-- ==== Sys2Proof/Word.lean ====
section
/-! DEFINITION. The word types of the Prism resonant filter engine (spec 00_scope.md rules R10, R11;
30_encoding.md rules R70, R73), and the register files of NC entries (00_scope.md R7). -/

namespace Sys2Proof

/-- A 32-bit interface word: `cmd`, `wdata`, `rdata` (R70), and the registers of type `U32` and `I32`
(R11), which software reads and writes as whole words. -/
abbrev Word := BitVec 32

/-- A value of the numeric domain `F`, held as its IEEE 754 binary32 bit pattern (R10, R73): bit 31 the
sign, bits 30:23 the exponent, bits 22:0 the fraction. Arithmetic on it is `Machine/Float.lean`. -/
abbrev F := BitVec 32

/-- A coefficient triple `F^3` (R51, R105, R162), its elements in the order `c0`, `c1`, `c2`. -/
structure Triple where
  c0 : F
  c1 : F
  c2 : F
deriving DecidableEq, Repr, Inhabited

/-- `NC`, the channels (R7). A stream is a channel's (10_state.md R31: "per channel, input and output"), so the
register files of streams have the same size. -/
abbrev NC : Nat := 6

/-- The number of channels, for proofs that count. -/
theorem NC_eq : NC = 6 := rfl

/-- The `i`-th entry of a fixed-size register file. -/
def look {α : Type} {n : Nat} (v : Vector α n) (i : Fin n) : α := v[i.val]

/-- A fixed-size register file with entry `i` replaced. -/
def upd {α : Type} {n : Nat} (v : Vector α n) (i : Fin n) (x : α) : Vector α n := v.set i.val x

/-- A register file given entry by entry: one entry a channel, or one a stream. -/
def perCh {α : Type} (f : Fin NC → α) : Vector α NC := Vector.ofFn f

end Sys2Proof
end

