-- ==== Sys2Proof/Syntax.lean ====
section
/-! DEFINITION. The instructions: the thirteen commands and the nine selector-chosen operations of
spec/opcode_table.json (30_encoding.md rules R72, R76 to R78, R83), and the register names of rules R74,
R75. `wdata` is an operand of the transaction, not part of the instruction (R70). -/

namespace Sys2Proof

/-- The global registers (R74). `undefined n` is a register number the map does not define. -/
inductive GReg
  | algsel | flags | glide | fscale | qglobal | hostrate | inch | outmode | status
  | undefined (n : Nat)
deriving DecidableEq, Repr

/-- The per-channel registers (R75). `undefined n` is a register number the map does not define. -/
inductive CReg
  | note | scale | bank | lock | qlock | q | nudge | shift | morph | fadeNote | fadeScale | level
  | env | pitch | chlevel | prevbank
  | undefined (n : Nat)
deriving DecidableEq, Repr

/-- One constructor per row of spec/opcode_table.json. -/
inductive Instr
  /- the thirteen commands (R72) -/
  | nop
  | reset
  | tick
  | usc
  | bank
  | wrg (reg : GReg)
  | rdg (reg : GReg)
  | wrc (ch : Nat) (reg : CReg)
  | rdc (ch : Nat) (reg : CReg)
  | wus (idx : Nat)
  | win (lane : Nat)
  | rout (lane : Nat)
  | rob (ch : Nat) (i : Nat)
  /- the resonator operations chosen by `G.ALGSEL` (R76), each run for one channel -/
  | filt2p (ch : Nat)
  | filt1p (ch : Nat)
  | filtbl (ch : Nat)
  /- the fold operations chosen by `G.OUTMODE` (R77) -/
  | fold1
  | fold2
  | fold6
  /- the fan-in operations chosen by `G.INCH` (R78) -/
  | fanin2
  | fanin3
  | fanin6
deriving DecidableEq, Repr

end Sys2Proof
end

