-- ==== Sys2Proof/WellFormed.lean ====
section
/-! DEFINITION. Which instruction terms stand for an encoding: every operand fits its field of rule R71
(`ch` four bits, `idx` twelve), an undefined register is one the maps of rules R74, R75 leave undefined, and
an engine operation names one of the six channels (R141, R152, R164). -/

namespace Sys2Proof

/-- An undefined global register number is above the map's last, 0x008 (R74), and fits `idx`. -/
def GReg.wf : GReg → Bool
  | .undefined n => decide (9 ≤ n) && decide (n < 4096)
  | .algsel | .flags | .glide | .fscale | .qglobal | .hostrate | .inch | .outmode | .status => true

/-- An undefined per-channel register number is above the map's last, 0x00F (R75), and fits `idx`. -/
def CReg.wf : CReg → Bool
  | .undefined n => decide (16 ≤ n) && decide (n < 4096)
  | .note | .scale | .bank | .lock | .qlock | .q | .nudge | .shift | .morph | .fadeNote | .fadeScale
  | .level | .env | .pitch | .chlevel | .prevbank => true

/-- The instruction stands for an encoding. -/
def Instr.wf : Instr → Bool
  | .nop | .reset | .tick | .usc | .bank => true
  | .wrg reg | .rdg reg => reg.wf
  | .wrc ch reg | .rdc ch reg => decide (ch < 16) && reg.wf
  | .wus idx => decide (idx < 4096)
  | .win lane | .rout lane => decide (lane < 4096)
  | .rob ch i => decide (ch < 16) && decide (i < 4096)
  | .filt2p ch | .filt1p ch | .filtbl ch => decide (ch < NC)
  | .fold1 | .fold2 | .fold6 | .fanin2 | .fanin3 | .fanin6 => true

end Sys2Proof
end

