-- ==== Sys2Proof/Decode.lean ====
section
/-! DEFINITION. The decoder, the encoder, the three selectors, the pseudo-instructions and the listing
syntax (spec 30_encoding.md rules R71 to R83). Decoding is total: a word that encodes no instruction is
rejected by name. -/

namespace Sys2Proof

/-- The four encoding spaces of spec/opcode_table.json, told apart by its `format` member (R83). -/
inductive Space
  | command   -- formats Z, G, C: a 32-bit command word
  | algsel    -- the 2-bit `G.ALGSEL`
  | outmode   -- the 2-bit `G.OUTMODE`
  | inch      -- the 32-bit `G.INCH`
deriving DecidableEq, Repr

/-- Why a word is rejected. -/
inductive DecodeError
  | reservedOpcode (op : Nat)     -- `op` is not in rule R72: R79 (a)
  | noSuchChannel (ch : Nat)      -- an engine operation on a channel above 5
deriving DecidableEq, Repr

/-! ## The three selectors -/

/-- The resonator algorithms (10_state.md R23). -/
inductive Alg
  | twoPass | onePass | blended
deriving DecidableEq, Repr

/-- `Alg` as a function of `G.ALGSEL` (R23, R76): bit 0 is `MODE2P`, bit 1 is `CHAR`. -/
def algOf (sel : BitVec 2) : Alg :=
  if sel.getLsbD 0 then .twoPass else if sel.getLsbD 1 then .blended else .onePass

/-- The output modes "1", "2" and "6". -/
inductive OutMode
  | one | two | six
deriving DecidableEq, Repr

/-- The output mode as a function of `G.OUTMODE` (R77): 00, 01, 1x. -/
def outModeOf (sel : BitVec 2) : OutMode :=
  if sel.getLsbD 1 then .six else if sel.getLsbD 0 then .two else .one

/-- The fan-in operations. -/
inductive FanIn
  | two | three | six
deriving DecidableEq, Repr

/-- The fan-in as a function of `G.INCH` (R78): the rows tried in the order 2, 3, 6 (R83). -/
def fanInOf (inch : Word) : FanIn :=
  if inch.toNat ≤ 1 then .two else if inch.toNat = 3 then .three else .six

/-- The resonator operation a fired block runs for channel `ch` (R76). -/
def decodeAlgsel (sel : BitVec 2) (ch : Nat) : Instr :=
  match algOf sel with
  | .twoPass => .filt2p ch
  | .onePass => .filt1p ch
  | .blended => .filtbl ch

/-- The fold operation (R77). -/
def decodeOutmode (sel : BitVec 2) : Instr :=
  match outModeOf sel with
  | .one => .fold1
  | .two => .fold2
  | .six => .fold6

/-- The fan-in operation (R78). -/
def decodeInch (inch : Word) : Instr :=
  match fanInOf inch with
  | .two   => .fanin2
  | .three => .fanin3
  | .six   => .fanin6

/-! ## The command word -/

/-- The global register numbered `n` (R74). -/
def gregOfNum (n : Nat) : GReg :=
  match n with
  | 0x000 => .algsel
  | 0x001 => .flags
  | 0x002 => .glide
  | 0x003 => .fscale
  | 0x004 => .qglobal
  | 0x005 => .hostrate
  | 0x006 => .inch
  | 0x007 => .outmode
  | 0x008 => .status
  | n     => .undefined n

/-- The per-channel register numbered `n` (R75). -/
def cregOfNum (n : Nat) : CReg :=
  match n with
  | 0x000 => .note
  | 0x001 => .scale
  | 0x002 => .bank
  | 0x003 => .lock
  | 0x004 => .qlock
  | 0x005 => .q
  | 0x006 => .nudge
  | 0x007 => .shift
  | 0x008 => .morph
  | 0x009 => .fadeNote
  | 0x00A => .fadeScale
  | 0x00B => .level
  | 0x00C => .env
  | 0x00D => .pitch
  | 0x00E => .chlevel
  | 0x00F => .prevbank
  | n     => .undefined n

/-- `op`, bits 31:24 (R71). -/
def opField (cmd : Word) : Nat := (cmd.extractLsb' 24 8).toNat
/-- `ch`, bits 23:20 (R71). -/
def chField (cmd : Word) : Nat := (cmd.extractLsb' 20 4).toNat
/-- `idx`, bits 19:8 (R71). -/
def idxField (cmd : Word) : Nat := (cmd.extractLsb' 8 12).toNat

/-- The command decoder (R71, R72): a field the format does not use, and bits 7:0, are ignored. -/
def decodeCmd (cmd : Word) : Except DecodeError Instr :=
  match opField cmd with
  | 0x00 => .ok .nop
  | 0x01 => .ok .reset
  | 0x02 => .ok .tick
  | 0x03 => .ok .usc
  | 0x04 => .ok .bank
  | 0x10 => .ok (.wrg (gregOfNum (idxField cmd)))
  | 0x11 => .ok (.rdg (gregOfNum (idxField cmd)))
  | 0x12 => .ok (.wrc (chField cmd) (cregOfNum (idxField cmd)))
  | 0x13 => .ok (.rdc (chField cmd) (cregOfNum (idxField cmd)))
  | 0x14 => .ok (.wus (idxField cmd))
  | 0x20 => .ok (.win (idxField cmd))
  | 0x21 => .ok (.rout (idxField cmd))
  | 0x22 => .ok (.rob (chField cmd) (idxField cmd))
  | op   => .error (.reservedOpcode op)

/-- The decoder over the four spaces. In the `algsel` space the selector is bits 1:0 and the channel the
engine's loop supplies stands in bits 11:8, the model's own place for it (log entry 2). -/
def decode (space : Space) (w : Word) : Except DecodeError Instr :=
  match space with
  | .command => decodeCmd w
  | .algsel  =>
    let ch := (w.extractLsb' 8 4).toNat
    if ch < NC then .ok (decodeAlgsel (w.setWidth 2) ch) else .error (.noSuchChannel ch)
  | .outmode => .ok (decodeOutmode (w.setWidth 2))
  | .inch    => .ok (decodeInch w)

/-! ## The encoder -/

/-- The register number of a global register (R74). -/
def GReg.num : GReg → Nat
  | .algsel => 0x000
  | .flags => 0x001
  | .glide => 0x002
  | .fscale => 0x003
  | .qglobal => 0x004
  | .hostrate => 0x005
  | .inch => 0x006
  | .outmode => 0x007
  | .status => 0x008
  | .undefined n => n

/-- The register number of a per-channel register (R75). -/
def CReg.num : CReg → Nat
  | .note => 0x000
  | .scale => 0x001
  | .bank => 0x002
  | .lock => 0x003
  | .qlock => 0x004
  | .q => 0x005
  | .nudge => 0x006
  | .shift => 0x007
  | .morph => 0x008
  | .fadeNote => 0x009
  | .fadeScale => 0x00A
  | .level => 0x00B
  | .env => 0x00C
  | .pitch => 0x00D
  | .chlevel => 0x00E
  | .prevbank => 0x00F
  | .undefined n => n

/-- A command word from its fields; the unused fields and bits 7:0 are zero, as an assembler writes them
(R71). -/
def cmdWord (op ch idx : Nat) : Word :=
  BitVec.ofNat 8 op ++ BitVec.ofNat 4 ch ++ BitVec.ofNat 12 idx ++ (0 : BitVec 8)

/-- An engine operation's word: selector in bits 1:0, channel in bits 11:8 (log entry 2). -/
def selWord (sel ch : Nat) : Word :=
  (0 : BitVec 20) ++ BitVec.ofNat 4 ch ++ BitVec.ofNat 8 sel

/-- The space and the word of an instruction (R72, R76 to R78). -/
def encode : Instr → Space × Word
  | .nop         => (.command, cmdWord 0x00 0 0)
  | .reset       => (.command, cmdWord 0x01 0 0)
  | .tick        => (.command, cmdWord 0x02 0 0)
  | .usc         => (.command, cmdWord 0x03 0 0)
  | .bank        => (.command, cmdWord 0x04 0 0)
  | .wrg reg     => (.command, cmdWord 0x10 0 reg.num)
  | .rdg reg     => (.command, cmdWord 0x11 0 reg.num)
  | .wrc ch reg  => (.command, cmdWord 0x12 ch reg.num)
  | .rdc ch reg  => (.command, cmdWord 0x13 ch reg.num)
  | .wus idx     => (.command, cmdWord 0x14 0 idx)
  | .win lane    => (.command, cmdWord 0x20 0 lane)
  | .rout lane   => (.command, cmdWord 0x21 0 lane)
  | .rob ch i    => (.command, cmdWord 0x22 ch i)
  | .filt2p ch   => (.algsel, selWord 1 ch)
  | .filt1p ch   => (.algsel, selWord 0 ch)
  | .filtbl ch   => (.algsel, selWord 2 ch)
  | .fold1       => (.outmode, 0)
  | .fold2       => (.outmode, 1)
  | .fold6       => (.outmode, 2)
  | .fanin2      => (.inch, 0)
  | .fanin3      => (.inch, 3)
  | .fanin6      => (.inch, 6)

/-- A word as an encoder writes it: the fields its command does not use and bits 7:0 made zero (R71). -/
def canonicalCmd (cmd : Word) : Word :=
  match opField cmd with
  | 0x00 | 0x01 | 0x02 | 0x03 | 0x04 => cmd &&& 0xFF000000
  | 0x10 | 0x11 | 0x14 | 0x20 | 0x21 => cmd &&& 0xFF0FFF00
  | 0x12 | 0x13 | 0x22 => cmd &&& 0xFFFFFF00
  | _ => cmd

/-! ## The rows of spec/opcode_table.json -/

/-- The space a table row of `nbits` bits is read in: a row of two selector bits is read as `G.ALGSEL`, a
row of 32 bits as a command word (log entry 2 says which rows that leaves out). -/
def tableSpace (nbits : Nat) : Space := if nbits ≤ 8 then .algsel else .command

/-- The instruction the decoder reads from a table row's bits, numbered as the table numbers them. -/
def decodeTableWord (nbits w : Nat) : Option Instr :=
  match decode (tableSpace nbits) (BitVec.ofNat 32 w) with
  | .ok i    => some i
  | .error _ => none

/-! ## Transactions, pseudo-instructions and the listing syntax -/

/-- One transaction a host issues (R70): a command word and the data word given with it. -/
structure Txn where
  word  : Word
  wdata : Word
deriving DecidableEq, Repr

/-- The transaction that carries a command with a data word. -/
def Txn.of (i : Instr) (wdata : Word) : Txn := ⟨(encode i).2, wdata⟩

/-- The pseudo-instructions (R82). -/
inductive Pseudo
  | setAlg (a : Alg)
  | setOut (m : OutMode)
  | algChg
  | usw (sc nt : Nat) (value : F)
  | noise (v0 v1 : F)
  | frame (vs : List F)
deriving DecidableEq, Repr

/-- `WIN lane, v` for each value, lanes counting up from `lane`. -/
def winFrom (lane : Nat) : List F → List Txn
  | []      => []
  | v :: vs => .of (.win lane) v :: winFrom (lane + 1) vs

/-- The expansion of a pseudo-instruction (R82); `nf` is the parameter `NF`. R82 does not say what `USW` with
`sc*NF+nt` of 4096 or more, or `FRAME` with more than 4096 values, expands to: such an index does not fit the 12-bit
`idx` field, and that the word keeps its low 12 bits, and so addresses another entry or lane, is the model's choice
(DESIGN CHOICE, log entry 15). -/
def Pseudo.expand (nf : Nat) : Pseudo → List Txn
  | .setAlg .onePass => [.of (.wrg .algsel) 0]
  | .setAlg .twoPass => [.of (.wrg .algsel) 1]
  | .setAlg .blended => [.of (.wrg .algsel) 2]
  | .setOut .one     => [.of (.wrg .outmode) 0]
  | .setOut .two     => [.of (.wrg .outmode) 1]
  | .setOut .six     => [.of (.wrg .outmode) 2]
  | .algChg          => [.of (.wrg .flags) 1]
  | .usw sc nt value => [.of (.wus (sc * nf + nt)) value]
  | .noise v0 v1     => winFrom 16 [v0, v1]
  | .frame vs        => winFrom 0 vs ++ [.of .tick 0]

/-- The digit `d` in hexadecimal. -/
def hexDigit (d : Nat) : Char :=
  if d < 10 then Char.ofNat (48 + d) else Char.ofNat (55 + d)

/-- The last `k` hexadecimal digits of `n`. -/
def hexDigits : Nat → Nat → List Char
  | 0, _     => []
  | k + 1, n => hexDigits k (n / 16) ++ [hexDigit (n % 16)]

/-- A hexadecimal word as the listing syntax writes it, `0x` and eight digits (R81). -/
def hexWord (w : Word) : String := "0x" ++ String.ofList (hexDigits 8 w.toNat)

/-- A register's name in the listing, or its number (R81). -/
def GReg.name : GReg → String
  | .algsel => "ALGSEL"
  | .flags => "FLAGS"
  | .glide => "GLIDE"
  | .fscale => "FSCALE"
  | .qglobal => "QGLOBAL"
  | .hostrate => "HOSTRATE"
  | .inch => "INCH"
  | .outmode => "OUTMODE"
  | .status => "STATUS"
  | .undefined n => toString n

/-- A per-channel register's name in the listing, or its number (R81). -/
def CReg.name : CReg → String
  | .note => "NOTE"
  | .scale => "SCALE"
  | .bank => "BANK"
  | .lock => "LOCK"
  | .qlock => "QLOCK"
  | .q => "Q"
  | .nudge => "NUDGE"
  | .shift => "SHIFT"
  | .morph => "MORPH"
  | .fadeNote => "FADE_NOTE"
  | .fadeScale => "FADE_SCALE"
  | .level => "LEVEL"
  | .env => "ENV"
  | .pitch => "PITCH"
  | .chlevel => "CHLEVEL"
  | .prevbank => "PREVBANK"
  | .undefined n => toString n

/-- One line of the listing syntax (R81), the value written as a hexadecimal word. An engine operation has
no line in that syntax; it is shown by the name the spec gives it. -/
def Instr.listing (i : Instr) (wdata : Word) : String :=
  match i with
  | .nop => "NOP"
  | .reset => "RESET"
  | .tick => "TICK"
  | .usc => "USC"
  | .bank => "BANK " ++ hexWord wdata
  | .wrg reg => "WRG " ++ reg.name ++ ", " ++ hexWord wdata
  | .rdg reg => "RDG " ++ reg.name
  | .wrc ch reg => "WRC " ++ toString ch ++ ", " ++ reg.name ++ ", " ++ hexWord wdata
  | .rdc ch reg => "RDC " ++ toString ch ++ ", " ++ reg.name
  | .wus idx => "WUS " ++ toString idx ++ ", " ++ hexWord wdata
  | .win lane => "WIN " ++ toString lane ++ ", " ++ hexWord wdata
  | .rout lane => "ROUT " ++ toString lane
  | .rob ch i => "ROB " ++ toString ch ++ ", " ++ toString i
  | .filt2p ch => "FILT2P(" ++ toString ch ++ ")"
  | .filt1p ch => "FILT1P(" ++ toString ch ++ ")"
  | .filtbl ch => "FILTBL(" ++ toString ch ++ ")"
  | .fold1 => "FOLD1"
  | .fold2 => "FOLD2"
  | .fold6 => "FOLD6"
  | .fanin2 => "FANIN2"
  | .fanin3 => "FANIN3"
  | .fanin6 => "FANIN6"

end Sys2Proof
end

