-- ==== Sys2Proof/Config.lean ====
section
/-! DEFINITION. What an implementation fixes and the free values. The spec's open parameters (spec
00_scope.md rule R8; 92_eei_decisions.md P1 to P24) are the fields of `Params`; the parameters of the
product are one uninterpreted constant, `Config.product`, and so is every value the spec leaves open. -/

namespace Sys2Proof

/-- The state of one resampler, `SRC.State` (46_ringbuf_resampler.md R214, R220): a position between
samples and an interpolation history. `REF_LINEAR` keeps `(t, prev)` as `t` and `hist = [prev]`; a kernel
with a longer memory uses a longer `hist` (log entry 11). -/
structure SrcState where
  t    : Rat
  hist : List F
deriving DecidableEq, Repr, Inhabited

/-- What `SRC.run` returns (R214): the new state, how many inputs were consumed, the outputs. -/
structure SrcResult where
  st       : SrcState
  consumed : Nat
  ys       : List F
deriving DecidableEq, Repr, Inhabited

/-- A resampler kernel `SRC` (R214, R216): `run st rin rout xs nmax`, `need st rin rout n` and
`yld st rin rout m` (the spec's `SRC.yield`). -/
structure SrcKernel where
  init : SrcState
  run  : SrcState → Nat → Nat → List F → Nat → SrcResult
  need : SrcState → Nat → Nat → Nat → Nat
  yld  : SrcState → Nat → Nat → Nat → Nat
deriving Inhabited

/-- The numeric domain `F` as a configuration field (R10: "A model should carry `F` as a configuration field with
these operations"; 92_eei_decisions.md D4, P23): the operations whose results depend on the format, on the words that
carry a value at the interface (30_encoding.md R73). The four operations are asked for finite operands only (log
entries 5, 6). What R10 and R11 fix in every domain is no field: the comparisons are IEEE's, `itof` is exact below
2^24, `trunc` goes toward zero, `fabs` clears the sign (Machine/Float.lean). The reference is `Domain.binary32`, and
R10's constraint on a domain `Domain.Exact`, there too. -/
structure Domain where
  plus  : F → F → F
  minus : F → F → F
  times : F → F → F
  quot  : F → F → F
  /-- `itof` of an integer of magnitude 2^24 or more, on which R11 is silent (log entry 5) -/
  itofWide : Int → F
  /-- `itof_q` (46_ringbuf_resampler.md R221) -/
  itofq : Rat → F
deriving Inhabited

/-- The parameters the source names and gives no value for (R8). A dimension that must be at least one is
held as its predecessor, so that `1 <= NS`, `NF`, `NB`, `BLOCK`, `FS_INT` holds by construction. -/
structure Params where
  dom          : Domain
  nsPred       : Nat
  nfPred       : Nat
  nbPred       : Nat
  blockPred    : Nat
  fsIntPred    : Nat
  inCap        : Nat
  outCap       : Nat
  cfMin        : F
  cfMax        : F
  tChar        : Nat → Nat → Nat → F
  tLo          : Nat → Nat → Nat → Triple
  tHi          : Nat → Nat → Nat → Triple
  poleRadius   : F → F → F
  twoPassCal   : F → F
  k1           : F
  k0           : F
  kc           : F
  k1One        : F
  k0One        : F
  kcOne        : F
  onePassGain  : F → F
  logQ         : F → F
  nudgeLo      : F
  nudgeHi      : F
  inClipThresh : Nat
  clipLevel    : F
  inScale      : F
  outScale     : F
  qmin         : Int
  qmax         : Int
  dup          : Nat → Nat → Nat
  fanin3       : Fin NC → Fin 3
  src          : SrcKernel
deriving Inhabited

namespace Params

/-- `NS`, the number of scales (R8). -/
def ns (P : Params) : Nat := P.nsPred + 1
/-- `NF`, the number of notes per scale (R8). -/
def nf (P : Params) : Nat := P.nfPred + 1
/-- `NB`, the number of scale banks; bank `NB-1` is the user bank (R8). -/
def nb (P : Params) : Nat := P.nbPred + 1
/-- `BLOCK`, the samples of one engine block (R8). -/
def block (P : Params) : Nat := P.blockPred + 1
/-- `FS_INT`, the internal fixed rate in hertz (R8). -/
def fsInt (P : Params) : Nat := P.fsIntPred + 1

end Params

/-- Which operation an open arithmetic result belongs to (60_exceptions.md R241). -/
inductive FOp
  | add | sub | mul | div | abs
  | poleRadius | twoPassCal | onePassGain | logQ
deriving DecidableEq, Repr, Inhabited

namespace Config

/-- The product's parameters: nothing is asserted of them (92_eei_decisions.md Part 2: "the model takes
each as an argument and no value is asserted"). FREE VALUE, log entry 3. -/
opaque product : Params

/-- The result of an `F` operation on a non-finite operand, or of one that overflows (R241). FREE VALUE, a
function of the operation and its operands, log entry 6. -/
opaque openF : FOp → F → F → F

/-- The answer of `<` on `F` when an operand is not finite (R241). FREE VALUE, log entry 6. -/
opaque openLt : F → F → Bool

/-- The answer of `==` on `F` when an operand is not finite (R241). FREE VALUE, log entry 6. -/
opaque openEq : F → F → Bool

/-- The frequency coefficient where its product is neither finite nor `+infinity` (41_twopass.md R133, R241), by
its four factors: coefficient, nudge, shift, frequency scale. FREE VALUE, log entry 6. -/
opaque openFreqCoef : F → F → F → F → F

/-- What the quantizer gives for a value the spec leaves open, before the clamp to `QMIN..QMAX` (R187, R241), by
the sample and `IN_SCALE`. FREE VALUE, log entry 6. -/
opaque openQuant : F → F → Int

/-- `PITCH[ch]` after a block with `Alg = BLENDED` (43_blended.md R165 (1), U5), by draw and channel. FREE
VALUE, log entry 7. -/
opaque openPitch : Nat → Nat → F

/-- The triple the user bank supplies to the blended-table algorithm (40_control_coefstore.md R105, U3), by
draw, channel, table (`true` the high-Q one), scale and note. FREE VALUE, log entry 8. -/
opaque openTriple : Nat → Nat → Bool → Nat → Nat → Triple

/-- A sample of a channel whose primary and target passes share one slot (41_twopass.md R140, U4), or of the
blended-table algorithm on the user bank (43_blended.md R165 (2), U3), by draw, channel, pass (`true` the target) and
sample number. FREE VALUE, log entries 8, 9. -/
opaque openSample : Nat → Nat → Bool → Nat → F

/-- An element of the history slot both passes of a channel shared (R140, U4), by draw, channel, array (`true` is
`HB`) and element number; and of a slot the blended-table algorithm ran over on the user bank (R165 (2), U3), the flag
then `true` for the target slot. FREE VALUE, log entries 8, 9. -/
opaque openSlot : Nat → Nat → Bool → Nat → F

end Config

end Sys2Proof
end

