-- ==== Sys2Proof/Machine/Float.lean ====
section
/-! DEFINITION. The numeric domain `F` (spec 00_scope.md rules R10, R11; 60_exceptions.md rule R241): the values
its words stand for, the reference domain `Domain.binary32`, and the operations the rules are written in, over
whichever domain the parameters fit. In the reference a finite value is taken to the exact rational it stands for,
the operation is done exactly, and the result is rounded once, to nearest even. -/

namespace Sys2Proof.F

/-- The sign bit. -/
def neg (a : F) : Bool := a.msb

/-- The exponent field, bits 30:23. -/
def expo (a : F) : Nat := (a.extractLsb' 23 8).toNat

/-- The fraction field, bits 22:0. -/
def frac (a : F) : Nat := (a.extractLsb' 0 23).toNat

/-- Neither an infinity nor a NaN. -/
def finite (a : F) : Bool := a.expo != 255

/-- A NaN. -/
def isNaN (a : F) : Bool := a.expo == 255 && a.frac != 0

/-- Positive infinity. -/
def posInf : F := 0x7F800000

/-- Negative infinity. -/
def negInf : F := 0xFF800000

/-- The NaN an extended product is marked with inside this file; it is never stored. -/
def nan : F := 0x7FC00000

/-- The significand of a finite value, the hidden bit included. -/
def mant (a : F) : Nat := if a.expo = 0 then a.frac else a.frac + 2 ^ 23

/-- The magnitude of a finite value, exactly: `mant * 2^(max expo 1 - 150)`. -/
def mag (a : F) : Rat := mkRat (Int.ofNat (a.mant * 2 ^ (max a.expo 1))) (2 ^ 150)

/-- The rational a finite value stands for. -/
def val (a : F) : Rat := if a.neg then -a.mag else a.mag

/-- `n / d` rounded to the nearest integer, a tie to the even one. -/
def rne (n d : Nat) : Nat :=
  let k := n / d
  let r := n % d
  if 2 * r < d then k else if d < 2 * r then k + 1 else if k % 2 = 0 then k else k + 1

/-- The bits below the sign of `n / d` rounded to binary32. `scale` is the exponent of the last place above
2^-149, so that the significand has 24 bits or, below the normal range, what is left of them; adding the
significand to the shifted scale lets a carry out of it raise the exponent. -/
def roundBits (n d : Nat) : Nat :=
  let scaled := n * 2 ^ 149
  let scale := Nat.log2 (scaled / d) - 23
  scale * 2 ^ 23 + rne scaled (d * 2 ^ scale)

/-- A magnitude rounded and given a sign; a magnitude above the range gives that infinity. -/
def roundMag (sign : Bool) (q : Rat) : F :=
  let bits := min (roundBits q.num.natAbs q.den) 0x7F800000
  BitVec.ofBool sign ++ BitVec.ofNat 31 bits

/-- An exact rational rounded to `F`: the spec's `itof_q` (46_ringbuf_resampler.md R221). -/
def ofRat (q : Rat) : F := roundMag (decide (q < 0)) q

/-- An integer as an `F` in the reference domain: exact below 2^24 (R11). At a magnitude of 2^24 or more R11 says
nothing, and that the reference rounds to nearest even there is the model's choice (DESIGN CHOICE, log entry 5). -/
def ofInt (n : Int) : F := ofRat (Rat.ofInt n)

/-- `trunc` (R11): the value of a finite `F` truncated toward zero. -/
def trunc (a : F) : Int := Int.tdiv a.val.num (Int.ofNat a.val.den)

/-- The rounded sum of finite values: an exact zero is `-0` only where both operands are negative. -/
def sumFin (a b : F) : F :=
  if a.val + b.val = 0 then BitVec.ofBool (a.neg && b.neg) ++ (0 : BitVec 31) else ofRat (a.val + b.val)

/-- The value with its sign changed. -/
def opp (a : F) : F := BitVec.ofBool (!a.neg) ++ a.extractLsb' 0 31

/-- The rounded product of finite values; the sign is the exclusive or of the signs. -/
def mulFin (a b : F) : F := roundMag (a.neg != b.neg) (a.mag * b.mag)

/-- The rounded quotient of finite values; a zero divisor gives no finite quotient. -/
def divFin (a b : F) : F :=
  if b.mag = 0 then posInf else roundMag (a.neg != b.neg) (a.mag / b.mag)

/-- The result of an operation: `r` where the operands and `r` are finite, else open, a function of the operation
and its operands. R241 leaves the whole result of a rule that reads such a value open; that the openness stands in the
single operation and the rest of the rule is done as written is the model's choice (DESIGN CHOICE, log entry 6). -/
def closed (op : FOp) (a b r : F) : F :=
  if a.finite && b.finite && r.finite then r else Config.openF op a b

/-- `fabs` (R11): the sign cleared. -/
def abs (a : F) : F := closed .abs a 0 ((0 : BitVec 1) ++ a.extractLsb' 0 31)

/-- A parameter function of one argument, open where the argument is not finite (R241). -/
def apply1 (op : FOp) (f : F → F) (a : F) : F := if a.finite then f a else Config.openF op a 0

/-- A parameter function of two arguments, open where one is not finite (R241). -/
def apply2 (op : FOp) (f : F → F → F) (a b : F) : F :=
  if a.finite && b.finite then f a b else Config.openF op a b

/-! The comparisons "on `F` are IEEE comparisons" (R10), in every domain: of the values, where both operands are
finite. Where one is not the answer is open (R241, log entry 6). -/

/-- `a < b`. -/
def lt (a b : F) : Bool := if a.finite && b.finite then decide (a.val < b.val) else Config.openLt a b

/-- `a == b`; `-0 == 0`. -/
def eq (a b : F) : Bool := if a.finite && b.finite then decide (a.val = b.val) else Config.openEq a b

/-- `a >= b`. -/
def ge (a b : F) : Bool := lt b a || eq a b

/-- `min(a, b)` is `b` if `b < a`, else `a` (R11). -/
def min (a b : F) : F := if lt b a then b else a

end Sys2Proof.F

namespace Sys2Proof.Domain

/-- The reference domain (R10, R11). -/
def binary32 : Domain where
  plus := F.sumFin
  minus := fun a b => F.sumFin a (F.opp b)
  times := F.mulFin
  quot := F.divFin
  itofWide := F.ofInt
  itofq := F.ofRat

/-- What R10 asks of a domain: "any `F` with at least a 24-bit significand" gives an exact result where the result is
a binary32 value (DEDUCED, log entry 5). -/
structure Exact (D : Domain) : Prop where
  plus : ∀ a b r, F.finite a → F.finite b → F.finite r → F.val a + F.val b = F.val r →
    F.finite (D.plus a b) ∧ F.val (D.plus a b) = F.val r
  minus : ∀ a b r, F.finite a → F.finite b → F.finite r → F.val a - F.val b = F.val r →
    F.finite (D.minus a b) ∧ F.val (D.minus a b) = F.val r
  times : ∀ a b r, F.finite a → F.finite b → F.finite r → F.val a * F.val b = F.val r →
    F.finite (D.times a b) ∧ F.val (D.times a b) = F.val r
  quot : ∀ a b r, F.finite a → F.finite b → F.finite r → F.val b ≠ 0 → F.val a / F.val b = F.val r →
    F.finite (D.quot a b) ∧ F.val (D.quot a b) = F.val r
  itofq : ∀ r, F.finite r → F.finite (D.itofq (F.val r)) ∧ F.val (D.itofq (F.val r)) = F.val r

/-! The operations the rules are written in, on a domain `D`. -/

/-- `a + b`. -/
def add (D : Domain) (a b : F) : F := F.closed .add a b (D.plus a b)

/-- `a - b`. -/
def sub (D : Domain) (a b : F) : F := F.closed .sub a b (D.minus a b)

/-- `a * b`. -/
def mul (D : Domain) (a b : F) : F := F.closed .mul a b (D.times a b)

/-- `a / b`. -/
def div (D : Domain) (a b : F) : F := F.closed .div a b (D.quot a b)

/-- `a * b` with the IEEE product of infinities and NaN, in every domain: the two places where R241 keeps an
infinity's effect compute with it. -/
def mulExt (D : Domain) (a b : F) : F :=
  let sign := F.neg a != F.neg b
  if F.isNaN a || F.isNaN b then F.nan
  else if F.finite a && F.finite b then D.times a b
  else if (F.finite a && decide (F.mag a = 0)) || (F.finite b && decide (F.mag b = 0)) then F.nan
  else if sign then F.negInf else F.posInf

/-- `itof(n)` (R11): "converts an integer of magnitude below `2^24` to `F` exactly"; the domain's above. -/
def itof (D : Domain) (n : Int) : F := if n.natAbs < 2 ^ 24 then F.ofInt n else D.itofWide n

end Sys2Proof.Domain
end

