-- ==== Sys2Proof/Machine/Constants.lean ====
section
/-! DEFINITION. The literals the source fixes by value (spec 00_scope.md rule R7: "a model keeps them as named
constants so that a corrected value is a one-line change"), as binary32 patterns where they are of type `F`;
`NC` is in Sys2Proof/Word.lean, where the register files take their size from it. -/

namespace Sys2Proof.Const

/-- `QBITS`, the width of a quantized sample (R7): `Params.Valid` and TCFG take the quantizer's bounds from it. -/
def qbits : Nat := 12
/-- The least `QBITS`-bit two's-complement number, the default of `QMIN` (R8, 45_io_pipeline.md R187). -/
def qLeast : Int := -(2 ^ (qbits - 1))
/-- The greatest, the default of `QMAX`. -/
def qGreatest : Int := 2 ^ (qbits - 1) - 1
/-- `HLEN`, the elements of a history slot (R7). -/
def hlen : Nat := 3

/-- 0.0 -/
def zero : F := 0x00000000
/-- 1.0 -/
def one : F := 0x3F800000
/-- `C1_MAX`, 1.30899581 (R7). -/
def c1Max : F := 0x3FA78D2D
/-- `QA_MUL`, 2.0 (R7). -/
def qaMul : F := 0x40000000
/-- `QA_CAP`, 4095.0 (R7). -/
def qaCap : F := 0x457FF000
/-- `QB_BASE`, 1000.0 (R7). -/
def qbBase : F := 0x447A0000
/-- `QB_KNEE`, 3900.0 (R7). -/
def qbKnee : F := 0x4573C000
/-- `QB_SLOPE`, 15.0 (R7). -/
def qbSlope : F := 0x41700000

end Sys2Proof.Const
end

