-- ==== Sys2Proof/Machine/Resampler.lean ====
section
/-! DEFINITION. Ring buffers, the resampler contract and the reference kernel `REF_LINEAR` (spec
46_ringbuf_resampler.md rules R210 to R222). A ring is its abstract value, the sequence of its elements,
oldest first (R210); `count` is `List.length`, `contents` the list itself, and dropping `List.drop`. -/

namespace Sys2Proof

/-- `push` (R211): append at the tail. Every rule checks for room first; a full ring is left as it is. -/
def push (cap : Nat) (ring : List F) (v : F) : List F :=
  if ring.length < cap then ring ++ [v] else ring

/-- Push each of a sequence, in order (45_io_pipeline.md R191). -/
def pushAll (cap : Nat) (ring : List F) (vs : List F) : List F := vs.foldl (push cap) ring

namespace SrcKernel

/-- The count laws of rule R215 and the meaning of `need` and `yield` of rule R216 for the states `ok` picks
out, at positive rates; `ok` holds of `init` and is kept by `run` (R214: `ok` is the type `SRC.State`). -/
structure CountLaws (K : SrcKernel) (ok : SrcState → Prop) : Prop where
  init_ok : ok K.init
  run_ok : ∀ st rin rout xs n, 0 < rin → 0 < rout → ok st → ok (K.run st rin rout xs n).st
  /-- R215 (a) -/
  bounds : ∀ st rin rout xs n, 0 < rin → 0 < rout → ok st →
    (K.run st rin rout xs n).consumed ≤ xs.length ∧ (K.run st rin rout xs n).ys.length ≤ n
  /-- R215 (b) -/
  production : ∀ st rin rout xs n, 0 < rin → 0 < rout → ok st →
    K.need st rin rout n ≤ xs.length → (K.run st rin rout xs n).ys.length = n
  /-- R215 (c) -/
  consumption : ∀ st rin rout xs n, 0 < rin → 0 < rout → ok st →
    K.yld st rin rout xs.length ≤ n →
    (K.run st rin rout xs n).consumed = xs.length ∧
      (K.run st rin rout xs n).ys.length = K.yld st rin rout xs.length
  /-- R215 (d) -/
  streaming : ∀ st rin rout xs more n1 n2, 0 < rin → 0 < rout → ok st →
    (K.run st rin rout xs n1).ys.length = n1 →
    K.run st rin rout (xs ++ more) (n1 + n2) =
      (let r1 := K.run st rin rout xs n1
       let r2 := K.run r1.st rin rout (xs.drop r1.consumed ++ more) n2
       ⟨r2.st, r1.consumed + r2.consumed, r1.ys ++ r2.ys⟩)
  /-- R216: `need` is the least length from which `n` outputs come whatever the samples are -/
  need_least : ∀ st rin rout n m, 0 < rin → 0 < rout → ok st →
    (∀ xs : List F, xs.length = m → (K.run st rin rout xs n).ys.length = n) → K.need st rin rout n ≤ m

/-- The states that arise from `init` by the runs `may` allows, given the state, the rates, the samples and the
bound; the rates may change from run to run (R218). -/
inductive Arises (K : SrcKernel) (may : SrcState → Nat → Nat → List F → Nat → Prop) : SrcState → Prop
  | init : Arises K may K.init
  | run (st : SrcState) (rin rout : Nat) (xs : List F) (n : Nat) :
      Arises K may st → may st rin rout xs n → Arises K may (K.run st rin rout xs n).st

/-- The equal-rate law (R217): from `init` and the states runs at equal rates lead to, the kernel is the identity,
bit for bit. -/
def EqualRateLaw (K : SrcKernel) : Prop :=
  ∀ st r, K.Arises (fun _ rin rout _ _ => rin = rout ∧ 0 < rin) st → 0 < r →
    (∀ n, K.need st r r n = n) ∧ (∀ m, K.yld st r r m = m) ∧
    ∀ xs n, (K.run st r r xs n).consumed = min xs.length n ∧
      (K.run st r r xs n).ys = xs.take (min xs.length n)

/-- The contract every kernel must meet (R214 to R217). -/
def Contract (K : SrcKernel) : Prop := (∃ ok, K.CountLaws ok) ∧ K.EqualRateLaw

end SrcKernel

namespace RefLinear

/-- `step = rin / rout` as an exact fraction (R220). -/
def stepOf (rin rout : Nat) : Rat := mkRat (Int.ofNat rin) rout

/-- `p(j)` (R221): the last consumed sample at 0, the `j`-th waiting one above it. -/
def sampleAt (prev : F) (xs : List F) (j : Nat) : F := if j = 0 then prev else xs.getD (j - 1) Const.zero

/-- The output at position `t` (R221). -/
def interp (D : Domain) (prev : F) (xs : List F) (t : Rat) : F :=
  let k := (t.ceil - 1).toNat
  let f := t - Rat.ofInt (Int.ofNat k)
  if f = 1 then sampleAt prev xs (k + 1)
  else D.add (D.mul (D.itofq (1 - f)) (sampleAt prev xs k)) (D.mul (D.itofq f) (sampleAt prev xs (k + 1)))

/-- The loop of R221: at most `n` outputs from position `t`, and the position after them. -/
def produce (D : Domain) (prev : F) (xs : List F) (step : Rat) : Nat → Rat → List F × Rat
  | 0, t => ([], t)
  | n + 1, t =>
    if t.ceil ≤ Int.ofNat xs.length then
      let rest := produce D prev xs step n (t + step)
      (interp D prev xs t :: rest.1, rest.2)
    else ([], t)

/-- `REF_LINEAR.run` (R221). -/
def run (D : Domain) (st : SrcState) (rin rout : Nat) (xs : List F) (nmax : Nat) : SrcResult :=
  let out := produce D (st.hist.headD Const.zero) xs (stepOf rin rout) nmax st.t
  let c := min (out.2.ceil - 1).toNat xs.length
  { st := { t := out.2 - Rat.ofInt (Int.ofNat c)
            hist := if 1 ≤ c then [xs.getD (c - 1) Const.zero] else st.hist }
    consumed := c
    ys := out.1 }

/-- `need` (R221). -/
def need (st : SrcState) (rin rout n : Nat) : Nat :=
  if n = 0 then 0 else (st.t + Rat.ofInt (Int.ofNat (n - 1)) * stepOf rin rout).ceil.toNat

/-- `yield` (R221). -/
def yld (st : SrcState) (rin rout m : Nat) : Nat :=
  if Rat.ofInt (Int.ofNat m) < st.t then 0
  else ((Rat.ofInt (Int.ofNat m) - st.t) / stepOf rin rout).floor.toNat + 1

/-- The reference kernel (R220), in a numeric domain: `SRC.init = (1, 0.0)`. -/
def kernel (D : Domain) : SrcKernel :=
  { init := { t := 1, hist := [Const.zero] }, run := run D, need := need, yld := yld }

end RefLinear

end Sys2Proof
end

