-- ==== Sys2Proof/Machine/Tcfg.lean ====
section
/-! DEFINITION. The two parameter sets a state can be fitted with: the product's, uninterpreted, and the
spec's test configuration `TCFG` (95_test_vectors.md section 1, "invented by the spec for testing ... not the
product's data"). `Params.Valid` is the constraint column of 00_scope.md rule R8. -/

namespace Sys2Proof

/-- `clamp(q, 0, 4095)` on rationals, for TCFG's lookups. -/
def clampQ (q : Rat) : Rat := if q < 0 then 0 else if 4095 < q then 4095 else q

/-- `TCFG` (95_test_vectors.md section 1). -/
def tcfg : Params where
  dom := Domain.binary32
  nsPred := 1
  nfPred := 2
  nbPred := 2
  blockPred := 3
  fsIntPred := 95999
  inCap := 8
  outCap := 8
  cfMin := F.ofInt 2048
  cfMax := F.ofInt 3072
  tChar := fun b sc nt => F.ofRat (mkRat (1 + nt + 3 * sc + 6 * b) 8)
  tLo := fun b sc nt =>
    ⟨F.ofRat (mkRat (4 + sc) 8), F.ofRat (mkRat (-(nt + 1)) 4), F.ofRat (mkRat (2 + b) 8)⟩
  tHi := fun b sc nt =>
    ⟨F.ofRat (mkRat (2 + sc) 8), F.ofRat (mkRat (-(nt + 1)) 2), F.ofRat (mkRat (4 + b) 8)⟩
  poleRadius := fun qw _ => F.ofRat (Rat.ofInt (clampQ qw.val / 1024).floor / 8)
  twoPassCal := fun _ => F.ofRat (mkRat 1 2)
  k1 := F.ofRat (mkRat 1 2)
  k0 := F.ofRat (mkRat (-1) 2)
  kc := F.ofInt 1
  k1One := F.ofRat (mkRat 1 2)
  k0One := F.ofRat (mkRat (-1) 2)
  kcOne := F.ofInt 1
  onePassGain := fun q => F.ofRat ((8192 - q.val) / 4096)
  logQ := fun q => F.ofRat (clampQ q.val / 4096)
  nudgeLo := F.ofRat (mkRat 1 64)
  nudgeHi := F.ofRat (mkRat 63 64)
  inClipThresh := 2000
  clipLevel := F.ofInt 2048
  inScale := F.ofInt 256
  outScale := F.ofRat (mkRat 1 256)
  qmin := Const.qLeast
  qmax := Const.qGreatest
  dup := fun n s => s % n
  fanin3 := fun ch => ⟨ch.val / 2, by have := ch.isLt; have := NC_eq; omega⟩
  src := RefLinear.kernel Domain.binary32

/-- Which parameter set a state is fitted with. -/
inductive ParamSet
  | product
  | tcfg
deriving DecidableEq, Repr

/-- The parameters of a set. -/
def ParamSet.params : ParamSet → Params
  | .product => Config.product
  | .tcfg    => Sys2Proof.tcfg

/-- What an input resampler can be in while the host rate stays among `rates`, changing as it may: the runs of
45_io_pipeline.md R186, of a fired block. -/
def Params.InArises (P : Params) (rates : Nat → Prop) : SrcState → Prop :=
  P.src.Arises fun st rin rout xs n => rates rin ∧ rout = P.fsInt ∧
    P.src.need st rin rout P.block ≤ xs.length ∧ xs.length ≤ P.inCap ∧ n = P.block

/-- The same of an output resampler: the runs of 45_io_pipeline.md R191. -/
def Params.OutArises (P : Params) (rates : Nat → Prop) : SrcState → Prop :=
  P.src.Arises fun st rin rout xs n => rin = P.fsInt ∧ rates rout ∧
    xs.length = P.block ∧ n = P.src.yld st rin rout P.block

/-- The rings can hold what a block needs and yields "for every rate ratio and every resampler state that can arise"
(70_reset_and_hazards.md R262) with host rates among `rates`: "the range of `G.HOSTRATE` a configuration supports is
whatever these inequalities allow". -/
structure Params.Supports (P : Params) (rates : Nat → Prop) : Prop where
  in_room : ∀ hr st, rates hr → P.InArises rates st → P.src.need st hr P.fsInt P.block ≤ P.inCap
  out_room : ∀ hr st, rates hr → P.OutArises rates st → P.src.yld st P.fsInt hr P.block ≤ P.outCap

/-- The constraints the rules need of the parameters (R8; 92_eei_decisions.md Part 2), those that do not hold
by construction; `rates` are the host rates the configuration is to support (R262). A clause with a mark is the
model's reading (log entry 3, 5). -/
structure Params.Valid (P : Params) (rates : Nat → Prop) : Prop where
  capacity : P.Supports rates
  /-- `HOSTRATE`, a U32, powers on as `FS_INT` (10_state.md R37; DEDUCED, log entry 3) -/
  fsInt_u32 : P.fsInt < 2 ^ 32
  /-- the numeric domain (R10; DEDUCED, log entry 5) -/
  dom_exact : P.dom.Exact
  /-- the order is R8's; that the thresholds are finite is DEDUCED, log entry 3 -/
  cf_order : F.finite P.cfMin ∧ F.finite P.cfMax ∧ F.val P.cfMin < F.val P.cfMax
  tables_finite : ∀ b sc nt, b + 1 < P.nb → sc < P.ns → nt < P.nf →
    F.finite (P.tChar b sc nt) ∧
    F.finite (P.tLo b sc nt).c0 ∧ F.finite (P.tLo b sc nt).c1 ∧ F.finite (P.tLo b sc nt).c2 ∧
    F.finite (P.tHi b sc nt).c0 ∧ F.finite (P.tHi b sc nt).c1 ∧ F.finite (P.tHi b sc nt).c2
  pole_range : ∀ qw fs, F.finite (P.poleRadius qw fs) ∧
    0 ≤ F.val (P.poleRadius qw fs) ∧ F.val (P.poleRadius qw fs) < 1
  /-- "non-decreasing in `qw`" (R8), read as: over finite `qw` at one `fscale` (DEDUCED, log entry 3) -/
  pole_mono : ∀ qa qb fs, F.finite qa → F.finite qb → F.val qa ≤ F.val qb →
    F.val (P.poleRadius qa fs) ≤ F.val (P.poleRadius qb fs)
  cal_finite : ∀ q, F.finite (P.twoPassCal q)
  consts_finite : F.finite P.k1 ∧ F.finite P.k0 ∧ F.finite P.kc ∧
    F.finite P.k1One ∧ F.finite P.k0One ∧ F.finite P.kcOne
  /-- "finite" (R8), asked on a finite `q` only (DEDUCED, log entry 3) -/
  gain_finite : ∀ q, F.finite q → F.finite (P.onePassGain q)
  logQ_range : ∀ q, F.finite (P.logQ q) ∧ 0 ≤ F.val (P.logQ q) ∧ F.val (P.logQ q) ≤ 1
  /-- the order is R8's; that the thresholds are finite is DEDUCED, log entry 3 -/
  nudge_order : F.finite P.nudgeLo ∧ F.finite P.nudgeHi ∧
    0 ≤ F.val P.nudgeLo ∧ F.val P.nudgeLo < F.val P.nudgeHi ∧ F.val P.nudgeHi ≤ 1
  /-- "nonzero" is R8's; that the level is finite is DEDUCED, log entry 3 -/
  clipLevel_nonzero : F.finite P.clipLevel ∧ F.val P.clipLevel ≠ 0
  scales_nonzero : F.finite P.inScale ∧ F.val P.inScale ≠ 0 ∧ F.finite P.outScale ∧ F.val P.outScale ≠ 0
  /-- R8 and P20 give the bounds no order; that `QMIN` is not above `QMAX` is the model's choice (DESIGN CHOICE, log
  entry 3) -/
  q_order : P.qmin ≤ P.qmax
  /-- a quantized sample fits `QBITS` bits (R7; DEDUCED, log entry 3) -/
  q_width : Const.qLeast ≤ P.qmin ∧ P.qmax ≤ Const.qGreatest
  dup_range : ∀ n s, (n = 2 ∨ n = 4 ∨ n = 5) → s < NC → P.dup n s < n
  src_contract : P.src.Contract

end Sys2Proof
end

