-- ==== Sys2Proof/Machine/State.lean ====
section
/-! DEFINITION. The state, plain data (spec 10_state.md rules R20 to R39), what a step can stop with, and the
power-on state (R37; 70_reset_and_hazards.md rule R250). -/

namespace Sys2Proof.Machine

/-- An element-addressed storage space (20_memory.md R50, R52, R53): the history arenas and the overlay
buffers, as (key, value) pairs, keys strictly rising, no value equal to what an unlisted element reads as,
0.0 (its power-on value, R37). The hardware has no byte-addressed memory (R50). -/
abbrev Memory := List (Nat × F)

/-- What an unlisted element reads as: its power-on value (R37). -/
def Memory.unlisted : F := Const.zero

/-- The canonical form: keys strictly rising and above `low`, and no listed value the unlisted one. -/
def Memory.wfFrom (low : Nat) : Memory → Bool
  | []          => true
  | (k, v) :: m => decide (low ≤ k) && v != Memory.unlisted && Memory.wfFrom (k + 1) m

/-- The canonical form. -/
def Memory.wf (m : Memory) : Bool := Memory.wfFrom 0 m

/-- Every listed key is below `bound`. -/
def Memory.below (bound : Nat) (m : Memory) : Bool := m.all fun cell => decide (cell.1 < bound)

/-- The per-channel control registers (R22). -/
structure Chan where
  note      : Word
  scale     : Word
  bank      : Word
  lock      : Bool
  qlock     : Bool
  q         : F
  nudge     : F
  shift     : F
  morph     : F
  fadeNote  : Word
  fadeScale : Word
  level     : F
deriving DecidableEq, Repr

/-- The per-channel defaults, power-on and `RESET` column of R37. -/
def Chan.default : Chan where
  note := 0
  scale := 0
  bank := 0
  lock := false
  qlock := false
  q := Const.zero
  nudge := Const.one
  shift := Const.one
  morph := Const.zero
  fadeNote := 0
  fadeScale := 0
  level := Const.one

/-- The block-local buffers (00_scope.md R13; 10_state.md R33): the resampled block `RS[s]`, the quantized
block `XQ[s]`, the engine's input `XIN[ch]`, the filter outputs `YP[ch]`, `YT[ch]`, the folded streams
`FOLD[s]`. They are empty between commands (log entry 10). -/
structure Block where
  rs   : Vector (List F) NC
  xq   : Vector (List Int) NC
  xin  : Vector (List Int) NC
  yp   : Vector (List F) NC
  yt   : Vector (List F) NC
  fold : Vector (List F) NC
deriving DecidableEq, Repr

/-- The buffers outside a fired block. -/
def Block.empty : Block where
  rs := Vector.replicate NC []
  xq := Vector.replicate NC []
  xin := Vector.replicate NC []
  yp := Vector.replicate NC []
  yt := Vector.replicate NC []
  fold := Vector.replicate NC []

/-- The state of the block (R20), the words of the transaction being run (30_encoding.md R70), and the model's
own fields `host`, `probe`, `draws` and `params` (log entries 1, 2, 3, 7). -/
structure State where
  /-- the input: the transactions the host is going to issue, the next one first (log entry 1) -/
  host : List Txn
  /-- no part of the hardware: an engine operation the model is asked to run by itself, in its encoding space; no
  transaction sets it (log entry 2) -/
  probe : Option (Space × Word)
  /-- the data word of the transaction being run (R70) -/
  wdata : Word
  /-- the result word of the last transaction (R70) -/
  rdata : Word
  /-- `G.ALGSEL` (R21) -/
  algsel : BitVec 2
  /-- `G.GLIDE` (R21) -/
  glide : Bool
  /-- `G.FSCALE` (R21) -/
  fscale : F
  /-- `G.QGLOBAL` (R21), read by no rule of the core -/
  qglobal : F
  /-- `G.HOSTRATE` (R21) -/
  hostrate : Word
  /-- `G.INCH` (R21) -/
  inch : Word
  /-- `G.OUTMODE` (R21) -/
  outmode : BitVec 2
  /-- `FLAGS.ALG_CHANGED` (R25) -/
  algChanged : Bool
  /-- `FLAGS.USCALE_CHANGED` (R25) -/
  uscaleChanged : Bool
  /-- `CLIP` (R24) -/
  clip : Bool
  /-- `FIRED` (R24) -/
  fired : Bool
  /-- `INDROP[s]` (R24) -/
  indrop : Vector Bool NC
  /-- `OUTVALID[s]` (R24) -/
  outvalid : Vector Bool NC
  /-- `C[ch]` (R22) -/
  chan : Vector Chan NC
  /-- `ENV[ch]` (R26) -/
  env : Vector F NC
  /-- `PITCH[ch]` (R26) -/
  pitch : Vector F NC
  /-- `CHLEVEL[ch]` (R26) -/
  chlevel : Vector F NC
  /-- `INLANE[k]` (R27) -/
  inlane : Vector F 18
  /-- `OUTLANE[s]` (R27) -/
  outlane : Vector F NC
  /-- `HA` (R28), at the composite key of R52 -/
  ha : Memory
  /-- `HB` (R28), at the composite key of R52 -/
  hb : Memory
  /-- `PREVBANK[ch]` (R29) -/
  prevbank : Vector Word NC
  /-- `US_STAGE` (R30), at the flat index of R53 -/
  usStage : Memory
  /-- `US_ACTIVE` (R30), at the flat index of R53 -/
  usActive : Memory
  /-- `INBUF[s]` (R31) -/
  inbuf : Vector (List F) NC
  /-- `OUTBUF[s]` (R31) -/
  outbuf : Vector (List F) NC
  /-- `INSRC[s]` (R32) -/
  insrc : Vector SrcState NC
  /-- `OUTSRC[s]` (R32) -/
  outsrc : Vector SrcState NC
  /-- `OUT[ch][i]` (R33) -/
  out : Vector (List F) NC
  /-- the block-local buffers (R33; log entry 10) -/
  blk : Block
  /-- the counter free values are drawn with (log entry 7) -/
  draws : Nat
  /-- the parameters the model is given as its argument (R34; log entry 3); no step changes it -/
  params : ParamSet
deriving DecidableEq, Repr

/-- The parameters of a state (R34). -/
def State.P (s : State) : Params := s.params.params

/-- Why a step stops with a fault. There is no way: "The block raises no exception, takes no trap and never
stops" (60_exceptions.md R230), so the type is empty (log entry 4). -/
inductive Fault
deriving DecidableEq, Repr

/-- Why a step is refused. -/
inductive Refusal
  /-- Raised by no meaning: the constructor stands for an instruction the model would give no meaning, and every
  instruction has one. Safe. -/
  | notModelled (mnemonic : String)
deriving DecidableEq, Repr

/-- The outcome of a step or of an instruction. -/
abbrev Result := Host.Outcome State Fault Refusal

/-- The power-on state with a parameter set fitted: the "power-on value" column of R37. `HOSTRATE` is a U32 whose
power-on value is `FS_INT`, which R8 bounds only from below: for an `FS_INT` of 2^32 or more, which no U32 holds, the
register's low 32 bits of it are the model's choice (DESIGN CHOICE, log entry 3). -/
def State.powerOn (p : ParamSet) : State where
  host := []
  probe := none
  wdata := 0
  rdata := 0
  algsel := 0
  glide := false
  fscale := Const.one
  qglobal := Const.zero
  hostrate := BitVec.ofNat 32 p.params.fsInt
  inch := 0
  outmode := 0
  algChanged := false
  uscaleChanged := false
  clip := false
  fired := false
  indrop := Vector.replicate NC false
  outvalid := Vector.replicate NC false
  chan := Vector.replicate NC Chan.default
  env := Vector.replicate NC Const.zero
  pitch := Vector.replicate NC Const.zero
  chlevel := Vector.replicate NC Const.zero
  inlane := Vector.replicate 18 Const.zero
  outlane := Vector.replicate NC Const.zero
  ha := []
  hb := []
  prevbank := Vector.replicate NC 0
  usStage := []
  usActive := []
  inbuf := Vector.replicate NC []
  outbuf := Vector.replicate NC []
  insrc := Vector.replicate NC p.params.src.init
  outsrc := Vector.replicate NC p.params.src.init
  out := Vector.replicate NC (List.replicate p.params.block Const.zero)
  blk := Block.empty
  draws := 0
  params := p

/-- The machine right after power-on (R250), the product's parameters fitted. -/
def State.reset : State := State.powerOn .product

end Sys2Proof.Machine
end

