-- ==== Sys2Proof/Machine/Ops.lean ====
section
/-! DEFINITION. The named operations over the storage spaces and the register files (spec 20_memory.md rules
R50 to R54; 40_control_coefstore.md rule R103). There is no operation for taking an exception or returning
from one: the block has neither ("Trap entry does not exist", 60_exceptions.md R237; R230, R238). -/

namespace Sys2Proof.Machine

/-! ## Element-addressed storage -/

/-- The element at a key. -/
def Memory.read : Memory → Nat → F
  | [], _          => Memory.unlisted
  | (j, v) :: m, k => if j = k then v else if k < j then Memory.unlisted else Memory.read m k

/-- A cell in front of a memory, left out where its value is the unlisted one. -/
def Memory.cons (k : Nat) (v : F) (m : Memory) : Memory := if v = Memory.unlisted then m else (k, v) :: m

/-- The memory with one element written, in canonical form. -/
def Memory.write (k : Nat) (v : F) : Memory → Memory
  | []          => Memory.cons k v []
  | (j, w) :: m =>
    if j < k then (j, w) :: Memory.write k v m
    else if j = k then Memory.cons k v m
    else Memory.cons k v ((j, w) :: m)

/-- Every element whose key is in `lo ..< hi` set to the unlisted value: "a range-clear over the channel's
slice" (R52). -/
def Memory.clear (lo hi : Nat) (m : Memory) : Memory :=
  m.filter fun cell => decide (cell.1 < lo) || decide (hi ≤ cell.1)

/-- The composite key of `H[ch][sc][nt][k]` (R52). -/
def histKey (P : Params) (ch : Fin NC) (sc nt k : Nat) : Nat :=
  ((ch.val * P.ns + sc) * P.nf + nt) * Const.hlen + k

/-- The first key of channel `ch`'s slice of a history arena, and the first after the slice of `ch - 1` (R52). -/
def sliceStart (P : Params) (ch : Nat) : Nat := ch * P.ns * P.nf * Const.hlen

/-- One history slot, its three elements. -/
structure Slot where
  h0 : F
  h1 : F
  h2 : F
deriving DecidableEq, Repr

/-- The slot of (channel, scale, note). -/
def readSlot (P : Params) (m : Memory) (ch : Fin NC) (sc nt : Nat) : Slot :=
  ⟨m.read (histKey P ch sc nt 0), m.read (histKey P ch sc nt 1), m.read (histKey P ch sc nt 2)⟩

/-- The memory with the slot of (channel, scale, note) written, all three elements. -/
def writeSlot (P : Params) (m : Memory) (ch : Fin NC) (sc nt : Nat) (h : Slot) : Memory :=
  ((m.write (histKey P ch sc nt 0) h.h0).write (histKey P ch sc nt 1) h.h1).write (histKey P ch sc nt 2) h.h2

/-- The memory with elements 0 and 1 of a slot written: what the blended-table algorithm touches (43_blended.md
R160). -/
def writeSlot01 (P : Params) (m : Memory) (ch : Fin NC) (sc nt : Nat) (h : Slot) : Memory :=
  (m.write (histKey P ch sc nt 0) h.h0).write (histKey P ch sc nt 1) h.h1

/-- The flat index of an overlay entry (R53). -/
def overlayKey (P : Params) (sc nt : Nat) : Nat := sc * P.nf + nt

/-! ## Indices -/

/-- `clampi` (00_scope.md R11). -/
def clampi (v lo hi : Int) : Int := if v < lo then lo else if hi < v then hi else v

/-- An I32 selector clamped to `0..count-1` (R103). -/
def clampIdx (v : Word) (count : Nat) : Nat := (clampi v.toInt 0 (Int.ofNat count - 1)).toNat

/-- The clamped indices of a channel (R103). -/
structure Idx where
  b   : Nat
  sc  : Nat
  nt  : Nat
  fsc : Nat
  fnt : Nat
deriving DecidableEq, Repr

/-- R103: "uses only these for every lookup and every history access of the block". -/
def idxOf (P : Params) (c : Chan) : Idx where
  b := clampIdx c.bank P.nb
  sc := clampIdx c.scale P.ns
  nt := clampIdx c.note P.nf
  fsc := clampIdx c.fadeScale P.ns
  fnt := clampIdx c.fadeNote P.nf

/-- The channel a command's `ch` field names, none above 5 (30_encoding.md R79 (b)). -/
def chanOf (ch : Nat) : Option (Fin NC) := if h : ch < NC then some ⟨ch, h⟩ else none

/-- The channels, ascending (45_io_pipeline.md R189 step 4). -/
def channels : List (Fin NC) := List.finRange NC

/-- An input lane by number; there are eighteen (10_state.md R27). -/
def lane (s : State) (k : Nat) : F := if h : k < 18 then look s.inlane ⟨k, h⟩ else Const.zero

/-! ## State updates -/

/-- The transaction's result word (R70). -/
def State.ret (s : State) (r : Word) : State := { s with rdata := r }

/-- Channel `ch`'s control registers replaced. -/
def State.setChan (s : State) (ch : Fin NC) (c : Chan) : State := { s with chan := upd s.chan ch c }

/-- The block-local buffers replaced. -/
def State.setBlk (s : State) (b : Block) : State := { s with blk := b }

end Sys2Proof.Machine
end

