-- ==== Sys2Proof/Machine/Flags.lean ====
section
/-! DEFINITION. Every flag computation: the `STATUS` and `FLAGS` words, the event flags, the input-clip test
(spec 10_state.md rules R24, R25, R39; 40_control_coefstore.md rules R101, R112; 41_twopass.md rule R138;
44_compositor.md rule R174). The tick flags `FIRED`, `INDROP`, `OUTVALID` are set where the pipeline's rules
set them (Machine/Pipeline.lean). -/

namespace Sys2Proof.Machine

/-- A word whose bit `i` is `f i`, built from its top bit down. -/
def bitsWord (f : Nat → Bool) : (n : Nat) → BitVec n
  | 0     => 0#0
  | n + 1 => BitVec.cons (f n) (bitsWord f n)

/-- Bit `i` of `STATUS` (R39). -/
def statusBit (s : State) (i : Nat) : Bool :=
  if i = 0 then s.clip
  else if i = 1 then s.fired
  else if h : 8 ≤ i ∧ i < 8 + NC then look s.indrop ⟨i - 8, by omega⟩
  else if h : 16 ≤ i ∧ i < 16 + NC then look s.outvalid ⟨i - 16, by omega⟩
  else false

/-- `STATUS` (R39). -/
def statusWord (s : State) : Word := bitsWord (statusBit s) 32

/-- `FLAGS` (30_encoding.md R74): bit 0 `ALG_CHANGED`, bit 1 `USCALE_CHANGED`. -/
def flagsWord (s : State) : Word :=
  (BitVec.ofBool s.uscaleChanged ++ BitVec.ofBool s.algChanged).setWidth 32

/-- A write to `ALGSEL` (R101, R112): `ALG_CHANGED` is set where the value of `Alg` changes. -/
def writeAlgsel (s : State) (new : BitVec 2) : State :=
  { s with algsel := new, algChanged := s.algChanged || decide (algOf new ≠ algOf s.algsel) }

/-- A write to `FLAGS` (R101): bits written 1 set their flag, bits written 0 change nothing. -/
def writeFlags (s : State) (v : Word) : State :=
  { s with algChanged := s.algChanged || v.getLsbD 0, uscaleChanged := s.uscaleChanged || v.getLsbD 1 }

/-- `USCALE_CHANGED` set (R109). -/
def setUscaleChanged (s : State) : State := { s with uscaleChanged := true }

/-- Both event flags cleared, at the end of a fired block (R174). -/
def clearEventFlags (s : State) : State := { s with algChanged := false, uscaleChanged := false }

/-- Some sample of the block is at or above the clip threshold in magnitude (R138, 90_conflicts.md C2). -/
def clipped (P : Params) (xin : Vector (List Int) NC) : Bool :=
  channels.any fun ch => (look xin ch).any fun x => decide (P.inClipThresh ≤ x.natAbs)

/-- Step 3 of `ENGINE` (45_io_pipeline.md R189): `CLIP` is one flag for all six channels, recomputed by every
fired block. -/
def clipTest (s : State) : State := { s with clip := clipped s.P s.blk.xin }

end Sys2Proof.Machine
end

