-- ==== Sys2Proof/Machine/Operands.lean ====
section
/-! DEFINITION. Operand assembly: how `wdata` and `rdata` carry each register (spec 30_encoding.md rules R73,
R74, R75; 40_control_coefstore.md rules R101, R102, R106, R107). Every register has one home, read and written
only here by number. -/

namespace Sys2Proof.Machine

/-- `zext_32` of a one-bit field (R73). -/
def bitWord (b : Bool) : Word := (BitVec.ofBool b).setWidth 32

/-- What `RDG` returns (R102): an undefined number reads 0. -/
def readG (s : State) : GReg → Word
  | .algsel      => s.algsel.setWidth 32
  | .flags       => flagsWord s
  | .glide       => bitWord s.glide
  | .fscale      => s.fscale
  | .qglobal     => s.qglobal
  | .hostrate    => s.hostrate
  | .inch        => s.inch
  | .outmode     => s.outmode.setWidth 32
  | .status      => statusWord s
  | .undefined _ => 0

/-- What `WRG` writes (R101): `STATUS` and an undefined number write nothing. -/
def writeG (s : State) (v : Word) : GReg → State
  | .algsel      => writeAlgsel s (v.setWidth 2)
  | .flags       => writeFlags s v
  | .glide       => { s with glide := v.getLsbD 0 }
  | .fscale      => { s with fscale := v }
  | .qglobal     => { s with qglobal := v }
  | .hostrate    => { s with hostrate := v }
  | .inch        => { s with inch := v }
  | .outmode     => { s with outmode := v.setWidth 2 }
  | .status      => s
  | .undefined _ => s

/-- What `RDC` returns for a channel (R107): an undefined number reads 0. -/
def readC (s : State) (ch : Fin NC) : CReg → Word
  | .note        => (look s.chan ch).note
  | .scale       => (look s.chan ch).scale
  | .bank        => (look s.chan ch).bank
  | .lock        => bitWord (look s.chan ch).lock
  | .qlock       => bitWord (look s.chan ch).qlock
  | .q           => (look s.chan ch).q
  | .nudge       => (look s.chan ch).nudge
  | .shift       => (look s.chan ch).shift
  | .morph       => (look s.chan ch).morph
  | .fadeNote    => (look s.chan ch).fadeNote
  | .fadeScale   => (look s.chan ch).fadeScale
  | .level       => (look s.chan ch).level
  | .env         => look s.env ch
  | .pitch       => look s.pitch ch
  | .chlevel     => look s.chlevel ch
  | .prevbank    => look s.prevbank ch
  | .undefined _ => 0

/-- A channel's control registers after `WRC` (R106): the value is stored unchecked and unclamped (R36); a
read-only or an undefined number writes nothing. -/
def writeC (c : Chan) (v : Word) : CReg → Chan
  | .note        => { c with note := v }
  | .scale       => { c with scale := v }
  | .bank        => { c with bank := v }
  | .lock        => { c with lock := v.getLsbD 0 }
  | .qlock       => { c with qlock := v.getLsbD 0 }
  | .q           => { c with q := v }
  | .nudge       => { c with nudge := v }
  | .shift       => { c with shift := v }
  | .morph       => { c with morph := v }
  | .fadeNote    => { c with fadeNote := v }
  | .fadeScale   => { c with fadeScale := v }
  | .level       => { c with level := v }
  | .env | .pitch | .chlevel | .prevbank => c
  | .undefined _ => c

end Sys2Proof.Machine
end

