-- ==== Sys2Proof/Machine/Control.lean ====
section
/-! DEFINITION. The control commands `NOP`, `RESET`, `USC`, `BANK`, `WRG`, `RDG`, `WRC`, `RDC`, `WUS` (spec
40_control_coefstore.md rules R100 to R111; 70_reset_and_hazards.md rules R251, R252). -/

namespace Sys2Proof.Machine

/-- `NOP` (R100): no state changes, `rdata <- 0`. -/
def execNop (s : State) : Result := .next (s.ret 0)

/-- `RESET` (R251, R252): the twelve control registers of every channel, and nothing else. -/
def execReset (s : State) : Result :=
  .next ({ s with chan := Vector.replicate NC Chan.default }.ret 0)

/-- `USC` (R109). -/
def execUsc (s : State) : Result := .next ((setUscaleChanged s).ret 0)

/-- The `BANK` event for one channel (R111): a locked channel keeps its bank; the value is stored unclamped. -/
def bankEvent (v : Word) (c : Chan) : Chan := if c.lock then c else { c with bank := v }

/-- `BANK` (R111). -/
def execBank (s : State) : Result :=
  .next ({ s with chan := perCh fun ch => bankEvent s.wdata (look s.chan ch) }.ret 0)

/-- `WRG` (R101). -/
def execWrg (reg : GReg) (s : State) : Result := .next ((writeG s s.wdata reg).ret 0)

/-- `RDG` (R102). -/
def execRdg (reg : GReg) (s : State) : Result := .next (s.ret (readG s reg))

/-- `WRC` (R106): a channel above 5 writes nothing. -/
def execWrc (ch : Nat) (reg : CReg) (s : State) : Result :=
  match chanOf ch with
  | some c => .next ((s.setChan c (writeC (look s.chan c) s.wdata reg)).ret 0)
  | none   => .next (s.ret 0)

/-- `RDC` (R107): a channel above 5 reads 0. -/
def execRdc (ch : Nat) (reg : CReg) (s : State) : Result :=
  match chanOf ch with
  | some c => .next (s.ret (readC s c reg))
  | none   => .next (s.ret 0)

/-- The staging buffer after `WUS` (R108): an index at or above `NS*NF` writes nothing. -/
def writeStage (s : State) (idx : Nat) : Memory :=
  if idx < s.P.ns * s.P.nf then s.usStage.write idx s.wdata else s.usStage

/-- `WUS` (R108): one staging entry by flat index. -/
def execWus (idx : Nat) (s : State) : Result := .next ({ s with usStage := writeStage s idx }.ret 0)

end Sys2Proof.Machine
end

