-- ==== Sys2Proof/Machine/CoefStore.lean ====
section
/-! DEFINITION. The coefficient store's lookups and the block-start operation `BLKSTART` (spec
40_control_coefstore.md rules R103 to R105, R110, R113). -/

namespace Sys2Proof.Machine

/-- `CoefChar` (R104): the last bank index is the user overlay. -/
def coefChar (s : State) (b sc nt : Nat) : F :=
  if b = s.P.nb - 1 then s.usActive.read (overlayKey s.P sc nt) else s.P.tChar b sc nt

/-- `CoefLo` (R105) as channel `ch` reads it; the user bank's triple is open (U3, log entry 8). -/
def coefLo (s : State) (ch : Fin NC) (b sc nt : Nat) : Triple :=
  if b = s.P.nb - 1 then Config.openTriple s.draws ch.val false sc nt else s.P.tLo b sc nt

/-- `CoefHi` (R105) as channel `ch` reads it; the user bank's triple is open (U3, log entry 8). -/
def coefHi (s : State) (ch : Fin NC) (b sc nt : Nat) : Triple :=
  if b = s.P.nb - 1 then Config.openTriple s.draws ch.val true sc nt else s.P.tHi b sc nt

/-- The bank channel `ch` would use in a block that starts now (R103), as `PREVBANK` holds it (R29). -/
def bankNow (s : State) (ch : Fin NC) : Word := BitVec.ofNat 32 (clampIdx (look s.chan ch).bank s.P.nb)

/-- `BLKSTART` clears channel `ch` (R113). -/
def mustClear (s : State) (ch : Fin NC) : Bool :=
  decide (bankNow s ch ≠ look s.prevbank ch) || s.algChanged || s.uscaleChanged

/-- A history arena with channel `ch`'s slice cleared (R52, R113). -/
def clearSlice (P : Params) (m : Memory) (ch : Fin NC) : Memory :=
  m.clear (sliceStart P ch.val) (sliceStart P (ch.val + 1))

/-- The loop body of R113 for one channel: both arrays cleared and `PREVBANK` brought up to date. -/
def blkStartChan (s : State) (ch : Fin NC) : State :=
  if mustClear s ch then
    { s with ha := clearSlice s.P s.ha ch, hb := clearSlice s.P s.hb ch,
             prevbank := upd s.prevbank ch (bankNow s ch) }
  else s

/-- Overlay activation (R110). -/
def activateOverlay (s : State) : State :=
  if s.uscaleChanged then { s with usActive := s.usStage } else s

/-- `BLKSTART` (R113). -/
def blkStart (s : State) : State := channels.foldl blkStartChan (activateOverlay s)

end Sys2Proof.Machine
end

