-- ==== Sys2Proof/Machine/Resonator.lean ====
section
/-! DEFINITION. What the three resonator algorithms share: the frequency coefficient (spec 41_twopass.md rule
R133), the resonator recurrence (R136), the pitch output (R139), and the morph-target pass with its gate (R140).
-/

namespace Sys2Proof.Machine

/-- `FreqCoef` of its four factors (R133): `((coef * NUDGE) * SHIFT) * FSCALE` with an upper clamp only
(90_conflicts.md C6). "A product of `+infinity` becomes `C1_MAX`". Any other product that is not finite is open
(60_exceptions.md R241): the model's choice is one free value for each quadruple of factors, whatever channel, slot
or block they come from (log entry 6). -/
def trimmedCoef (D : Domain) (coef nudge shift fscale : F) : F :=
  let p := D.mulExt (D.mulExt (D.mulExt coef nudge) shift) fscale
  if p = F.posInf then Const.c1Max
  else if F.finite p then (if F.lt Const.c1Max p then Const.c1Max else p)
  else Config.openFreqCoef coef nudge shift fscale

/-- `FreqCoef` (R133). -/
def freqCoef (s : State) (ch : Fin NC) (b sc nt : Nat) : F :=
  let c := look s.chan ch
  trimmedCoef s.P.dom (coefChar s b sc nt) c.nudge c.shift s.fscale

/-- An affine combination `((k1 * c1) + (k0 * c0)) + kc` (R135, 42_onepass.md R151). -/
def affine (D : Domain) (k1 k0 kc c1 c0 : F) : F := D.add (D.add (D.mul k1 c1) (D.mul k0 c0)) kc

/-- `RESON` (R136) on one slot and one input: the slot after, and the output `H[1]`. On a non-finite value or after
an overflow R241 leaves slot and output open; that the recurrence keeps its shape there, so that `H[1] = H[2]` and the
output is `H[1]`, is the model's choice (DESIGN CHOICE, log entry 6). -/
def reson (D : Domain) (c0 c1 c2 : F) (h : Slot) (x : F) : Slot × F :=
  let h2 := D.sub (D.add (D.mul c0 h.h1) (D.mul c1 h.h0)) (D.mul c2 x)
  (⟨D.sub h.h0 (D.mul c1 h2), h2, h2⟩, h2)

/-- A recurrence run over a block, samples in order: the state after and the outputs. -/
def runBlock {σ : Type} (D : Domain) (f : σ → F → σ × F) (st : σ) : List Int → σ × List F
  | []      => (st, [])
  | x :: xs =>
    let r := f st (D.itof x)
    let rest := runBlock D f r.1 xs
    (rest.1, r.2 :: rest.2)

/-- `C[ch].MORPH != 0`, the gate of R140, read at block start; on a non-finite `MORPH` a free answer (R241, log
entry 6). -/
def morphOn (c : Chan) : Bool := !(F.eq c.morph Const.zero)

/-- The clamped fade-to pair is the primary pair (R140, U4). -/
def samePair (ix : Idx) : Bool := decide (ix.fsc = ix.sc) && decide (ix.fnt = ix.nt)

/-- The open samples of a pass: over a shared slot (U4, log entry 9), or on the user bank (U3, log entry 8). -/
def openSamples (s : State) (ch : Fin NC) (target : Bool) : List F :=
  (List.range (look s.blk.xin ch).length).map fun i => Config.openSample s.draws ch.val target i

/-- The open contents of a slot such a pass ran over (U4, U3, log entries 9, 8). -/
def openSlot (s : State) (ch : Fin NC) (hb : Bool) : Slot :=
  ⟨Config.openSlot s.draws ch.val hb 0, Config.openSlot s.draws ch.val hb 1, Config.openSlot s.draws ch.val hb 2⟩

/-- The filter outputs of channel `ch` stored: `YP` always, `YT` where a target pass ran. -/
def setOutputs (s : State) (ch : Fin NC) (yp : List F) (yt : Option (List F)) : State :=
  s.setBlk { s.blk with
    yp := upd s.blk.yp ch yp
    yt := match yt with
      | some y => upd s.blk.yt ch y
      | none   => s.blk.yt }

/-- The passes of one channel over the history `m` (R140, 42_onepass.md R153): the primary pass over the whole
block, then, where the morph position is not zero, the target pass over the whole block. `pass target m` gives
the outputs and the history after; `openPair m` is what stands in its place where both passes would use one
slot. -/
def passes {μ : Type} (morph same : Bool) (pass : Bool → μ → List F × μ)
    (openPair : μ → List F × List F × μ) (m : μ) : List F × Option (List F) × μ :=
  if morph then
    if same then
      let o := openPair m
      (o.1, some o.2.1, o.2.2)
    else
      let p := pass false m
      let t := pass true p.2
      (p.1, some t.1, t.2)
  else
    let p := pass false m
    (p.1, none, p.2)

/-- The pitch output (R139). On a non-finite `MORPH` R241 leaves `PITCH` open; that it is still one of the two values
R139 names, and with `GLIDE = 0` the primary coefficient, is the model's choice (DESIGN CHOICE, log entry 6). -/
def pitchOf (s : State) (ch : Fin NC) : F :=
  let c := look s.chan ch
  let ix := idxOf s.P c
  let c1p := freqCoef s ch ix.b ix.sc ix.nt
  if s.glide && morphOn c then
    s.P.dom.add (s.P.dom.mul c1p (s.P.dom.sub Const.one c.morph))
      (s.P.dom.mul (freqCoef s ch ix.b ix.fsc ix.fnt) c.morph)
  else c1p

/-- `PITCH[ch]` written. -/
def setPitch (s : State) (ch : Fin NC) (p : F) : State := { s with pitch := upd s.pitch ch p }

end Sys2Proof.Machine
end

