-- ==== Sys2Proof/Machine/Blended.lean ====
section
/-! DEFINITION. The blended-table resonator `FILTBL` (spec 43_blended.md rules R160 to R165). -/

namespace Sys2Proof.Machine

/-- The note factor `fn` (R161): the nudge register snapped to 0 and 1 near the extremes, strictly. -/
def nudgeFactor (P : Params) (nudge : F) : F :=
  let fn := if F.lt nudge P.nudgeLo then Const.zero else nudge
  if F.lt P.nudgeHi fn then Const.one else fn

/-- The resonance factor `fq` (R161). -/
def qFactor (P : Params) (q : F) : F := F.apply1 .logQ P.logQ q

/-- `lerp(a, z, f) = (a * (1.0 - f)) + (z * f)` (R162). -/
def lerp (D : Domain) (a z f : F) : F := D.add (D.mul a (D.sub Const.one f)) (D.mul z f)

/-- `lerp` on the elements of two triples. -/
def lerp3 (D : Domain) (a z : Triple) (f : F) : Triple := ⟨lerp D a.c0 z.c0 f, lerp D a.c1 z.c1 f, lerp D a.c2 z.c2 f⟩

/-- The coefficient triple of one pass (R162): the note axis first, then the resonance axis; the next note of
the last note is the last note. -/
def blendCoefs (s : State) (ch : Fin NC) (b sc nt : Nat) : Triple :=
  let c := look s.chan ch
  let fn := nudgeFactor s.P c.nudge
  let n2 := min (nt + 1) (s.P.nf - 1)
  let lo := lerp3 s.P.dom (coefLo s ch b sc nt) (coefLo s ch b sc n2) fn
  let hi := lerp3 s.P.dom (coefHi s ch b sc nt) (coefHi s ch b sc n2) fn
  lerp3 s.P.dom lo hi (qFactor s.P c.q)

/-- `BLRES` (R163): `h_prev` is element 0, `h` element 1; element 2 is not used. -/
def blres (D : Domain) (k : Triple) (h : Slot) (x : F) : Slot × F :=
  let iir := D.sub (D.sub (D.mul x k.c0) (D.mul k.c1 h.h0)) (D.mul k.c2 h.h1)
  ({ h with h0 := h.h1, h1 := iir }, D.sub iir h.h0)

/-- One pass over the block at slot (`sc`, `nt`) of `HA`, elements 0 and 1 (R160, R164). -/
def blendRun (s : State) (ch : Fin NC) (b sc nt : Nat) (m : Memory) : List F × Memory :=
  let r := runBlock s.P.dom (blres s.P.dom (blendCoefs s ch b sc nt)) (readSlot s.P m ch sc nt) (look s.blk.xin ch)
  (r.2, writeSlot01 s.P m ch sc nt r.1)

/-- A channel's part of a block on the user bank, which R165 (2) leaves unspecified (U3): every sample of the outputs
and every element written to the slots it runs over is a free value (log entry 8). -/
def openBlend (s : State) (ch : Fin NC) (ix : Idx) (morph : Bool) : List F × Option (List F) × Memory :=
  let m := writeSlot01 s.P s.ha ch ix.sc ix.nt (openSlot s ch false)
  if morph then
    (openSamples s ch false, some (openSamples s ch true), writeSlot01 s.P m ch ix.fsc ix.fnt (openSlot s ch true))
  else (openSamples s ch false, none, m)

/-- The passes of `FILTBL(ch)` (R164, 41_twopass.md R140) on a bank with tables. -/
def blendPasses (s : State) (ch : Fin NC) (ix : Idx) (morph : Bool) : List F × Option (List F) × Memory :=
  passes morph (samePair ix)
    (fun target => if target then blendRun s ch ix.b ix.fsc ix.fnt else blendRun s ch ix.b ix.sc ix.nt)
    (fun m => (openSamples s ch false, openSamples s ch true,
      writeSlot01 s.P m ch ix.sc ix.nt (openSlot s ch false)))
    s.ha

/-- `FILTBL(ch)` (R164) on a channel; the pitch output is open (R165 (1), log entry 7), and on the user bank so is all
that the channel's passes give (R165 (2), log entry 8). -/
def filtbl (ch : Fin NC) (s : State) : State :=
  let c := look s.chan ch
  let ix := idxOf s.P c
  let r := if ix.b = s.P.nb - 1 then openBlend s ch ix (morphOn c) else blendPasses s ch ix (morphOn c)
  { setPitch (setOutputs s ch r.1 r.2.1) ch (Config.openPitch s.draws ch.val) with ha := r.2.2 }

/-- `FILTBL` as an instruction: no channel above 5 exists. -/
def execFiltbl (ch : Nat) (s : State) : Result :=
  match chanOf ch with
  | some c => .next (filtbl c s)
  | none   => .next s

end Sys2Proof.Machine
end

