-- ==== Sys2Proof/Machine/Compositor.lean ====
section
/-! DEFINITION. The morph and output compositor `COMPOSE` (spec 44_compositor.md rules R170 to R175). -/

namespace Sys2Proof.Machine

/-- The blend of one sample (R170): `(yp * (1.0 - pos)) + (yt * pos)`. -/
def blendSample (D : Domain) (pos yp yt : F) : F := D.add (D.mul yp (D.sub Const.one pos)) (D.mul yt pos)

/-- `BL[ch]` (R170): the primary output alone where the morph position is zero. -/
def blended (s : State) (ch : Fin NC) : List F :=
  let c := look s.chan ch
  if morphOn c then List.zipWith (blendSample s.P.dom c.morph) (look s.blk.yp ch) (look s.blk.yt ch)
  else look s.blk.yp ch

/-- `OUT[ch]` (R171): the blend scaled by the level. -/
def scaledOut (s : State) (ch : Fin NC) : List F :=
  (blended s ch).map fun bl => s.P.dom.mul bl (look s.chan ch).level

/-- `ENV[ch]` (R172): `fabs` of the first blended sample, taken before the level. -/
def envOf (s : State) (ch : Fin NC) : F :=
  match blended s ch with
  | bl :: _ => F.abs bl
  | []      => look s.env ch

/-- `CHLEVEL[ch]` (R173): the same value divided by `CLIP_LEVEL`. -/
def chlevelOf (s : State) (ch : Fin NC) : F :=
  match blended s ch with
  | bl :: _ => s.P.dom.div (F.abs bl) s.P.clipLevel
  | []      => look s.chlevel ch

/-- `COMPOSE` (R175). -/
def compose (s : State) : State :=
  clearEventFlags { s with
    out := perCh (scaledOut s)
    env := perCh (envOf s)
    chlevel := perCh (chlevelOf s) }

end Sys2Proof.Machine
end

