-- ==== Sys2Proof/Machine/TwoPass.lean ====
section
/-! DEFINITION. The two-pass resonator `FILT2P` (spec 41_twopass.md rules R130 to R143). -/

namespace Sys2Proof.Machine

/-- Step 1, `q_a` (R131). -/
def qaOf (D : Domain) (q : F) : F := F.min (D.mul Const.qaMul q) Const.qaCap

/-- Step 1, `q_b` (R131). -/
def qbOf (D : Domain) (q : F) : F :=
  if F.lt q Const.qbKnee then Const.qbBase
  else D.add Const.qbBase (D.mul (D.sub q Const.qbKnee) Const.qbSlope)

/-- `PoleRadius(qw, FSCALE)` (R132). -/
def poleRadius (s : State) (qw : F) : F := F.apply2 .poleRadius s.P.poleRadius qw s.fscale

/-- Step 4, `ratio_a` (R134). -/
def ratioA (P : Params) (q : F) : F :=
  if F.lt q P.cfMin then Const.one
  else if F.lt P.cfMax q then Const.zero
  else P.dom.div (P.dom.sub P.cfMax q) (P.dom.sub P.cfMax P.cfMin)

/-- Step 4, `ratio_b` (R134). -/
def ratioB (P : Params) (q : F) : F :=
  P.dom.mul (P.dom.sub Const.one (ratioA P q)) (F.apply1 .twoPassCal P.twoPassCal (qbOf P.dom q))

/-- `C2(c1, c0)` (R135). -/
def c2Of (P : Params) (c1 c0 : F) : F := affine P.dom P.k1 P.k0 P.kc c1 c0

/-- The coefficients of one pass: steps 1, 2 and 4 shared by both passes, steps 3 and 5 the pass's own. -/
structure TwoPassCoefs where
  c0a    : F
  c0     : F
  c1     : F
  c2a    : F
  c2     : F
  ratioA : F
deriving DecidableEq, Repr

/-- Steps 1 to 5 (R131 to R135) at the slot (`sc`, `nt`) of channel `ch`. -/
def twoPassCoefs (s : State) (ch : Fin NC) (b sc nt : Nat) : TwoPassCoefs :=
  let q := (look s.chan ch).q
  let c0a := poleRadius s (qaOf s.P.dom q)
  let c0 := poleRadius s (qbOf s.P.dom q)
  let c1 := freqCoef s ch b sc nt
  { c0a := c0a, c0 := c0, c1 := c1
    c2a := c2Of s.P c1 c0a
    c2 := s.P.dom.mul (c2Of s.P c1 c0) (ratioB s.P q)
    ratioA := ratioA s.P q }

/-- Step 6 for one sample (R137): stage A takes the sample, stage B stage A's output; the output is
`(ratio_a * yA) - yB`. -/
def cascade (D : Domain) (k : TwoPassCoefs) (h : Slot × Slot) (x : F) : (Slot × Slot) × F :=
  let a := reson D k.c0a k.c1 k.c2a h.1 x
  let b := reson D k.c0 k.c1 k.c2 h.2 a.2
  ((a.1, b.1), D.sub (D.mul k.ratioA a.2) b.2)

/-- One pass over the block at slot (`sc`, `nt`), `HA` and `HB` together (R137). -/
def twoPassRun (s : State) (ch : Fin NC) (b sc nt : Nat) (m : Memory × Memory) : List F × Memory × Memory :=
  let r := runBlock s.P.dom (cascade s.P.dom (twoPassCoefs s ch b sc nt))
    (readSlot s.P m.1 ch sc nt, readSlot s.P m.2 ch sc nt) (look s.blk.xin ch)
  (r.2, writeSlot s.P m.1 ch sc nt r.1.1, writeSlot s.P m.2 ch sc nt r.1.2)

/-- `FILT2P(ch)` (R141) on a channel. -/
def filt2p (ch : Fin NC) (s : State) : State :=
  let c := look s.chan ch
  let ix := idxOf s.P c
  let r := passes (morphOn c) (samePair ix)
    (fun target => if target then twoPassRun s ch ix.b ix.fsc ix.fnt else twoPassRun s ch ix.b ix.sc ix.nt)
    (fun m => (openSamples s ch false, openSamples s ch true,
      writeSlot s.P m.1 ch ix.sc ix.nt (openSlot s ch false),
      writeSlot s.P m.2 ch ix.sc ix.nt (openSlot s ch true)))
    (s.ha, s.hb)
  { setPitch (setOutputs s ch r.1 r.2.1) ch (pitchOf s ch) with ha := r.2.2.1, hb := r.2.2.2 }

/-- `FILT2P` as an instruction: no channel above 5 exists. -/
def execFilt2p (ch : Nat) (s : State) : Result :=
  match chanOf ch with
  | some c => .next (filt2p c s)
  | none   => .next s

end Sys2Proof.Machine
end

