-- ==== Sys2Proof/Machine/OnePass.lean ====
section
/-! DEFINITION. The one-pass resonator `FILT1P` (spec 42_onepass.md rules R150 to R153). -/

namespace Sys2Proof.Machine

/-- `C2One(c1, c0)` (R151). -/
def c2OneOf (P : Params) (c1 c0 : F) : F := affine P.dom P.k1One P.k0One P.kcOne c1 c0

/-- The coefficients `c0`, `c1`, `c2` of one pass (R151), on the raw `q`. -/
def onePassCoefs (s : State) (ch : Fin NC) (b sc nt : Nat) : Triple :=
  let q := (look s.chan ch).q
  let c0 := poleRadius s q
  let c1 := freqCoef s ch b sc nt
  ⟨c0, c1, s.P.dom.mul (c2OneOf s.P c1 c0) (F.apply1 .onePassGain s.P.onePassGain q)⟩

/-- One pass over the block at slot (`sc`, `nt`) of `HA` (R152). -/
def onePassRun (s : State) (ch : Fin NC) (b sc nt : Nat) (m : Memory) : List F × Memory :=
  let k := onePassCoefs s ch b sc nt
  let r := runBlock s.P.dom (reson s.P.dom k.c0 k.c1 k.c2) (readSlot s.P m ch sc nt) (look s.blk.xin ch)
  (r.2, writeSlot s.P m ch sc nt r.1)

/-- `FILT1P(ch)` (R152) on a channel; `HB` is neither read nor written (R150). -/
def filt1p (ch : Fin NC) (s : State) : State :=
  let c := look s.chan ch
  let ix := idxOf s.P c
  let r := passes (morphOn c) (samePair ix)
    (fun target => if target then onePassRun s ch ix.b ix.fsc ix.fnt else onePassRun s ch ix.b ix.sc ix.nt)
    (fun m => (openSamples s ch false, openSamples s ch true,
      writeSlot s.P m ch ix.sc ix.nt (openSlot s ch false)))
    s.ha
  { setPitch (setOutputs s ch r.1 r.2.1) ch (pitchOf s ch) with ha := r.2.2 }

/-- `FILT1P` as an instruction: no channel above 5 exists. -/
def execFilt1p (ch : Nat) (s : State) : Result :=
  match chanOf ch with
  | some c => .next (filt1p c s)
  | none   => .next s

end Sys2Proof.Machine
end

