-- ==== Sys2Proof/Machine/Pipeline.lean ====
section
/-! DEFINITION. The rate-converting I/O pipeline: `TICK`, `WIN`, `ROUT`, `ROB`, the fan-in and the fold
operations (spec 45_io_pipeline.md rules R180 to R197). -/

namespace Sys2Proof.Machine

/-! ## Stream counts (R181) -/

/-- `NIN`. -/
def ninOf (inch : Word) : Nat :=
  match fanInOf inch with
  | .two   => 2
  | .three => 3
  | .six   => NC

/-- `NOUT`. -/
def noutOf (outmode : BitVec 2) : Nat :=
  match outModeOf outmode with
  | .one => 1
  | .two => 2
  | .six => NC

/-- Input stream `i` is active in this tick (R181). -/
def activeIn (s : State) (i : Fin NC) : Bool := decide (i.val < ninOf s.inch)

/-- Output stream `i` is active in this tick (R181). -/
def activeOut (s : State) (i : Fin NC) : Bool := decide (i.val < noutOf s.outmode)

/-! ## Input side -/

/-- The lane that feeds input stream `i` (R183). -/
def laneOf (P : Params) (inch : Word) (i : Nat) : Nat :=
  let n := inch.toNat
  if n = 0 then 16 + i
  else if n = 1 then 0
  else if n = 2 ∨ n = 4 ∨ n = 5 then P.dup n i
  else i

/-- `InSample` (R183). -/
def inSample (s : State) (i : Fin NC) : F := lane s (laneOf s.P s.inch i.val)

/-- `ACCUMULATE` (R182): one sample to each active ring; a full ring drops it and says so. -/
def accumulate (s : State) : State :=
  { s with
    indrop := perCh fun i => activeIn s i && decide (s.P.inCap ≤ (look s.inbuf i).length)
    inbuf := perCh fun i =>
      if activeIn s i then push s.P.inCap (look s.inbuf i) (inSample s i) else look s.inbuf i }

/-- What input stream `i` needs for a block (R185). -/
def needOf (s : State) (i : Fin NC) : Nat :=
  s.P.src.need (look s.insrc i) s.hostrate.toNat s.P.fsInt s.P.block

/-- What a block yields on output stream `i` (R185). -/
def yieldOf (s : State) (i : Fin NC) : Nat :=
  s.P.src.yld (look s.outsrc i) s.P.fsInt s.hostrate.toNat s.P.block

/-- `FIRE_TEST` (R185). -/
def fireTest (s : State) : Bool :=
  decide (s.hostrate.toNat ≠ 0) &&
  channels.all (fun i => !activeIn s i || decide (needOf s i ≤ (look s.inbuf i).length)) &&
  channels.all (fun i => !activeOut s i || decide ((look s.outbuf i).length + yieldOf s i ≤ s.P.outCap))

/-- The run of input resampler `i` over its whole ring (R186). -/
def inRun (s : State) (i : Fin NC) : SrcResult :=
  s.P.src.run (look s.insrc i) s.hostrate.toNat s.P.fsInt (look s.inbuf i) s.P.block

/-- `RESAMPLE_IN` (R186). -/
def resampleIn (s : State) : State :=
  { s with
    insrc := perCh fun i => if activeIn s i then (inRun s i).st else look s.insrc i
    inbuf := perCh fun i =>
      if activeIn s i then (look s.inbuf i).drop (inRun s i).consumed else look s.inbuf i
    blk := { s.blk with rs := perCh fun i => if activeIn s i then (inRun s i).ys else look s.blk.rs i } }

/-- `Quant` after the scaling, `p` the product (R187). An infinite sample comes out at the bound its product is
beyond (60_exceptions.md R241; a negative `IN_SCALE` exchanges the bounds, log entry 6); a value the spec leaves open
stays inside the bounds (log entry 6). -/
def quantScaled (P : Params) (v p : F) : Int :=
  if F.finite p then
    if F.ge p (P.dom.itof P.qmax) then P.qmax
    else if F.ge (P.dom.itof P.qmin) p then P.qmin
    else F.trunc p
  else if !F.finite v && decide (p = F.posInf) then P.qmax
  else if !F.finite v && decide (p = F.negInf) then P.qmin
  else clampi (Config.openQuant v P.inScale) P.qmin P.qmax

/-- `Quant(v)` (R187). -/
def quant (P : Params) (v : F) : Int := quantScaled P v (P.dom.mulExt v P.inScale)

/-- `XQ[s][i] <- Quant(RS[s][i])` for every `i < BLOCK` (R187). -/
def quantStream (P : Params) (rs : List F) : List Int :=
  (List.range P.block).map fun i => quant P (rs.getD i Const.zero)

/-- `QUANTIZE` (R187). -/
def quantize (s : State) : State :=
  s.setBlk { s.blk with
    xq := perCh fun i => if activeIn s i then quantStream s.P (look s.blk.rs i) else look s.blk.xq i }

/-- `FANIN2` (R188): channels (0,1), (2,3), (4,5) each get readings (0,1). -/
def fanin2 (s : State) : State :=
  s.setBlk { s.blk with xin := perCh fun ch => look s.blk.xq ⟨ch.val % 2, by have := NC_eq; omega⟩ }

/-- `FANIN3` (R188): reading `FANIN3(ch)`. -/
def fanin3 (s : State) : State :=
  s.setBlk { s.blk with xin := perCh fun ch => look s.blk.xq ⟨(s.P.fanin3 ch).val, by have := NC_eq; omega⟩ }

/-- `FANIN6` (R188): one to one. -/
def fanin6 (s : State) : State := s.setBlk { s.blk with xin := perCh fun ch => look s.blk.xq ch }

/-- The fan-in `G.INCH` selects (30_encoding.md R78). -/
def fanIn (s : State) : State :=
  match fanInOf s.inch with
  | .two   => fanin2 s
  | .three => fanin3 s
  | .six   => fanin6 s

/-! ## The engine block (R189) -/

/-- Step 4 for one channel: the resonator `G.ALGSEL` selects (30_encoding.md R76). -/
def filter (s : State) (ch : Fin NC) : State :=
  match algOf s.algsel with
  | .twoPass => filt2p ch s
  | .onePass => filt1p ch s
  | .blended => filtbl ch s

/-- `ENGINE` (R189): block start, clip test, the six channels ascending, compositor. -/
def engine (s : State) : State := compose (channels.foldl filter (clipTest (blkStart s)))

/-! ## Output side -/

/-- `SUM(i)` (R190), ascending from 0.0. -/
def sumAt (s : State) (i : Nat) : F :=
  channels.foldl (fun acc ch => s.P.dom.add acc ((look s.out ch).getD i Const.zero)) Const.zero

/-- Streams of a fold: the first of `streams` replace the first of `FOLD`, the rest stay. -/
def setFold (s : State) (f : Fin NC → List F) : State := s.setBlk { s.blk with fold := perCh f }

/-- `FOLD1` (R190). -/
def fold1 (s : State) : State :=
  setFold s fun i => if i.val = 0 then (List.range s.P.block).map (sumAt s) else look s.blk.fold i

/-- The stream of `FOLD2` that keeps the positions of one parity (R190). -/
def parityStream (s : State) (parity : Nat) : List F :=
  (List.range s.P.block).map fun i => if i % 2 = parity then sumAt s i else Const.zero

/-- `FOLD2` (R190). -/
def fold2 (s : State) : State :=
  setFold s fun i => if i.val < 2 then parityStream s i.val else look s.blk.fold i

/-- `FOLD6` (R190). -/
def fold6 (s : State) : State := setFold s fun i => look s.out i

/-- The fold `G.OUTMODE` selects (30_encoding.md R77). -/
def foldOut (s : State) : State :=
  match outModeOf s.outmode with
  | .one => fold1 s
  | .two => fold2 s
  | .six => fold6 s

/-- The run of output resampler `i` over its folded stream (R191). -/
def outRun (s : State) (i : Fin NC) : SrcResult :=
  s.P.src.run (look s.outsrc i) s.P.fsInt s.hostrate.toNat (look s.blk.fold i) (yieldOf s i)

/-- `RESAMPLE_OUT` (R191). -/
def resampleOut (s : State) : State :=
  { s with
    outsrc := perCh fun i => if activeOut s i then (outRun s i).st else look s.outsrc i
    outbuf := perCh fun i =>
      if activeOut s i then pushAll s.P.outCap (look s.outbuf i) (outRun s i).ys else look s.outbuf i }

/-- `DRAIN` (R192): one frame of each active ring that holds one. -/
def drain (s : State) : State :=
  { s with
    outvalid := perCh fun i => activeOut s i && !(look s.outbuf i).isEmpty
    outlane := perCh fun i =>
      match activeOut s i, look s.outbuf i with
      | true, v :: _ => s.P.dom.mul v s.P.outScale
      | _, _         => look s.outlane i
    outbuf := perCh fun i => if activeOut s i then (look s.outbuf i).tail else look s.outbuf i }

/-! ## The tick (R180) -/

/-- The phases of a fired block, `RESAMPLE_IN` to `RESAMPLE_OUT`; the block-local buffers carry nothing to the
next block (10_state.md R33). -/
def firedBlock (s : State) : State :=
  (resampleOut (foldOut (engine (fanIn (quantize (resampleIn s)))))).setBlk Block.empty

/-- A tick up to `FIRED` (R180). -/
def process (s : State) : State :=
  let acc := accumulate s
  if fireTest acc then { firedBlock acc with fired := true } else { acc with fired := false }

/-- A tick: the phases, the drain, and `STATUS` as the result (R180). -/
def tick (s : State) : State :=
  let done := drain (process s)
  done.ret (statusWord done)

/-! ## The instructions -/

/-- `TICK` (R180). -/
def execTick (s : State) : Result := .next (tick s)

/-- `WIN` (R184): a lane above 17 writes nothing. -/
def execWin (idx : Nat) (s : State) : Result :=
  if h : idx < 18 then .next ({ s with inlane := upd s.inlane ⟨idx, h⟩ s.wdata }.ret 0)
  else .next (s.ret 0)

/-- `ROUT` (R193): a lane above 5 reads 0. -/
def execRout (idx : Nat) (s : State) : Result :=
  if h : idx < NC then .next (s.ret (look s.outlane ⟨idx, h⟩)) else .next (s.ret 0)

/-- `ROB` (R194): a channel above 5 or a sample number outside the block reads 0. -/
def execRob (ch i : Nat) (s : State) : Result :=
  match chanOf ch with
  | some c => .next (s.ret (if i < s.P.block then (look s.out c).getD i Const.zero else 0))
  | none   => .next (s.ret 0)

/-- `FANIN2` (R188). -/
def execFanin2 (s : State) : Result := .next (fanin2 s)
/-- `FANIN3` (R188). -/
def execFanin3 (s : State) : Result := .next (fanin3 s)
/-- `FANIN6` (R188). -/
def execFanin6 (s : State) : Result := .next (fanin6 s)
/-- `FOLD1` (R190). -/
def execFold1 (s : State) : Result := .next (fold1 s)
/-- `FOLD2` (R190). -/
def execFold2 (s : State) : Result := .next (fold2 s)
/-- `FOLD6` (R190). -/
def execFold6 (s : State) : Result := .next (fold6 s)

end Sys2Proof.Machine
end

