-- ==== Sys2Proof/Machine/Dispatch.lean ====
section
/-! DEFINITION. One arm per constructor of Instr, each a direct call of the instruction's meaning. -/

namespace Sys2Proof.Machine

def exec (i : Instr) (s : State) : Host.Outcome State Fault Refusal :=
  match i with
  | .nop => Sys2Proof.Machine.execNop s
  | .reset => Sys2Proof.Machine.execReset s
  | .tick => Sys2Proof.Machine.execTick s
  | .usc => Sys2Proof.Machine.execUsc s
  | .bank => Sys2Proof.Machine.execBank s
  | .wrg reg => Sys2Proof.Machine.execWrg reg s
  | .rdg reg => Sys2Proof.Machine.execRdg reg s
  | .wrc ch reg => Sys2Proof.Machine.execWrc ch reg s
  | .rdc ch reg => Sys2Proof.Machine.execRdc ch reg s
  | .wus idx => Sys2Proof.Machine.execWus idx s
  | .win lane => Sys2Proof.Machine.execWin lane s
  | .rout lane => Sys2Proof.Machine.execRout lane s
  | .rob ch idx => Sys2Proof.Machine.execRob ch idx s
  | .filt2p ch => Sys2Proof.Machine.execFilt2p ch s
  | .filt1p ch => Sys2Proof.Machine.execFilt1p ch s
  | .filtbl ch => Sys2Proof.Machine.execFiltbl ch s
  | .fold1 => Sys2Proof.Machine.execFold1 s
  | .fold2 => Sys2Proof.Machine.execFold2 s
  | .fold6 => Sys2Proof.Machine.execFold6 s
  | .fanin2 => Sys2Proof.Machine.execFanin2 s
  | .fanin3 => Sys2Proof.Machine.execFanin3 s
  | .fanin6 => Sys2Proof.Machine.execFanin6 s

end Sys2Proof.Machine
end

