-- ==== Sys2Proof/Machine/Fetch.lean ====
section
/-! DEFINITION. Taking the next transaction, and what a reserved command word does (spec 30_encoding.md rules
R70, R79 (a)). -/

namespace Sys2Proof.Machine

/-- The state in which a transaction's instruction runs: the transaction is off the host's list, its data word
stands at the interface, and the free-value counter has advanced (log entries 1, 7). -/
def begin (s : State) (t : Txn) (rest : List Txn) : State :=
  { s with host := rest, wdata := t.wdata, draws := s.draws + 1 }

/-- The state in which an engine operation runs by itself (log entry 2). -/
def beginProbe (s : State) : State := { s with probe := none, wdata := 0, draws := s.draws + 1 }

/-- What the next step decodes, and the state it runs in. A transaction of the host is a command word (R70), so
the host reaches no other space; the probe goes first where one is set (log entry 2). -/
def fetch (s : State) : Option (Space × Word × State) :=
  match s.probe with
  | some (space, w) => some (space, w, beginProbe s)
  | none =>
    match s.host with
    | []        => none
    | t :: rest => some (.command, t.word, begin s t rest)

/-- A word that encodes no instruction: "does nothing and returns `rdata = 0`, exactly as `NOP`" (R79 (a)). -/
def reserved (s : State) : State := s.ret 0

/-- `s` with a table row's word (spec/opcode_table.json) to be run next: a command as a transaction of the host,
its data word 0; an engine operation as the probe. -/
def place (s : State) (nbits w : Nat) : State :=
  match tableSpace nbits with
  | .command => { s with probe := none, host := ⟨BitVec.ofNat 32 w, 0⟩ :: s.host }
  | space    => { s with probe := some (space, BitVec.ofNat 32 w) }

end Sys2Proof.Machine
end

