-- ==== Sys2Proof/Machine/Step.lean ====
section
/-! DEFINITION. One step: one transaction, from its start to its end (spec 00_scope.md rule R14; 20_memory.md
rules R58, R59). -/

namespace Sys2Proof.Machine

/-- The next transaction is taken, decoded and run. With none offered the block waits, unchanged ("driven
synchronously from the host tick", 10_state.md R38; log entry 1). -/
def step (s : State) : Host.Outcome State Fault Refusal :=
  match fetch s with
  | none => .next s
  | some (space, w, t) =>
    match decode space w with
    | .ok i    => exec i t
    | .error _ => .next (reserved t)

/-- `s` with a table row's instruction as the next thing to run. -/
def State.withFetchWord (s : State) (nbits w : Nat) : State := place s nbits w

end Sys2Proof.Machine
end

