-- ==== Sys2Proof/Safety.lean ====
section
/-! DEFINITION. What counts as a safe state, in the terms the claims use: the invariant of a run, what a host
cannot reach, and the vocabulary the claims are written in (spec 46_ringbuf_resampler.md rule R213; 10_state.md
rules R29, R33, R35; 20_memory.md rules R52, R53). -/

namespace Sys2Proof.Machine

/-- The invariant. -/
structure State.Inv (s : State) : Prop where
  /-- the history arenas and the overlay buffers are in canonical form -/
  ha_wf : s.ha.wf = true
  hb_wf : s.hb.wf = true
  stage_wf : s.usStage.wf = true
  active_wf : s.usActive.wf = true
  /-- every key lies inside its space (R52, R53) -/
  ha_below : s.ha.below (sliceStart s.P NC) = true
  hb_below : s.hb.below (sliceStart s.P NC) = true
  stage_below : s.usStage.below (s.P.ns * s.P.nf) = true
  active_below : s.usActive.below (s.P.ns * s.P.nf) = true
  /-- no ring holds more than its capacity (R213) -/
  inbuf_le : ∀ i, (look s.inbuf i).length ≤ s.P.inCap
  outbuf_le : ∀ i, (look s.outbuf i).length ≤ s.P.outCap
  /-- `PREVBANK[ch]` is a bank index (R29) -/
  prevbank_lt : ∀ ch, (look s.prevbank ch).toNat < s.P.nb
  /-- `OUT[ch]` holds `BLOCK` samples (R33) -/
  out_length : ∀ ch, (look s.out ch).length = s.P.block

/-- The host-side commands: every command but `TICK`. -/
def hostCommand : Instr → Bool
  | .nop | .reset | .usc | .bank | .wrg _ | .rdg _ | .wrc _ _ | .rdc _ _ | .wus _ | .win _ | .rout _
  | .rob _ _ => true
  | .tick | .filt2p _ | .filt1p _ | .filtbl _ | .fold1 | .fold2 | .fold6 | .fanin2 | .fanin3 | .fanin6 => false

/-- Two states agree on everything only the engine writes (R35): the histories, the active overlay, the rings,
the resamplers, the block output, the per-channel outputs, `PREVBANK`, the output lanes, the status flags. -/
def State.sameEngine (s t : State) : Prop :=
  t.ha = s.ha ∧ t.hb = s.hb ∧ t.usActive = s.usActive ∧ t.inbuf = s.inbuf ∧ t.outbuf = s.outbuf ∧
  t.insrc = s.insrc ∧ t.outsrc = s.outsrc ∧ t.out = s.out ∧ t.env = s.env ∧ t.pitch = s.pitch ∧
  t.chlevel = s.chlevel ∧ t.prevbank = s.prevbank ∧ t.outlane = s.outlane ∧ t.clip = s.clip ∧
  t.fired = s.fired ∧ t.indrop = s.indrop ∧ t.outvalid = s.outvalid ∧ t.blk = s.blk

/-- Two states agree on everything the host writes and a tick only reads: the control registers (R21, R22),
the input lanes, the staging overlay, the model's input and parameters. -/
def State.sameControl (s t : State) : Prop :=
  t.algsel = s.algsel ∧ t.glide = s.glide ∧ t.fscale = s.fscale ∧ t.qglobal = s.qglobal ∧
  t.hostrate = s.hostrate ∧ t.inch = s.inch ∧ t.outmode = s.outmode ∧ t.chan = s.chan ∧
  t.inlane = s.inlane ∧ t.usStage = s.usStage ∧ t.host = s.host ∧ t.probe = s.probe ∧ t.wdata = s.wdata ∧
  t.draws = s.draws ∧ t.params = s.params

/-! ## The vocabulary of the statements about the resonators -/

/-- The recurrence of 41_twopass.md R136 as a relation, in a numeric domain: from slot `h`, inputs `xs` give outputs
`ys` and leave the slot `h'`. -/
inductive ResonTrace (D : Domain) (c0 c1 c2 : F) : Slot → List F → List F → Slot → Prop
  | nil (h : Slot) : ResonTrace D c0 c1 c2 h [] [] h
  | cons (h : Slot) (x h2 : F) (xs ys : List F) (h' : Slot) :
      h2 = D.sub (D.add (D.mul c0 h.h1) (D.mul c1 h.h0)) (D.mul c2 x) →
      ResonTrace D c0 c1 c2 ⟨D.sub h.h0 (D.mul c1 h2), h2, h2⟩ xs ys h' →
      ResonTrace D c0 c1 c2 h (x :: xs) (h2 :: ys) h'

/-- The recurrence of 43_blended.md R163 as a relation; element 2 of the slot is carried along. -/
inductive BlresTrace (D : Domain) (c0 c1 c2 : F) : Slot → List F → List F → Slot → Prop
  | nil (h : Slot) : BlresTrace D c0 c1 c2 h [] [] h
  | cons (h : Slot) (x iir : F) (xs ys : List F) (h' : Slot) :
      iir = D.sub (D.sub (D.mul x c0) (D.mul c1 h.h0)) (D.mul c2 h.h1) →
      BlresTrace D c0 c1 c2 ⟨h.h1, iir, h.h2⟩ xs ys h' →
      BlresTrace D c0 c1 c2 h (x :: xs) (D.sub iir h.h0 :: ys) h'

/-- `k` is the key of one of the first `n` elements of a slot. -/
def slotKey (P : Params) (ch : Fin NC) (sc nt n k : Nat) : Prop := ∃ j, j < n ∧ k = histKey P ch sc nt j

/-- `k` is the key of an element a resonator operation on `ch` may write: one of the first `n` elements of the
primary slot, or, with the morph position not zero, of the target slot. -/
def passKey (s : State) (ch : Fin NC) (n k : Nat) : Prop :=
  slotKey s.P ch (idxOf s.P (look s.chan ch)).sc (idxOf s.P (look s.chan ch)).nt n k ∨
  (morphOn (look s.chan ch) = true ∧
    slotKey s.P ch (idxOf s.P (look s.chan ch)).fsc (idxOf s.P (look s.chan ch)).fnt n k)

/-- What a resonator operation on `ch` leaves alone: every field but the histories, `PITCH[ch]`, `YP[ch]` and
`YT[ch]`, and every history element but the first `n` of the slots it runs over. -/
def State.filterFrame (s t : State) (ch : Fin NC) (n : Nat) : Prop :=
  t = { s with ha := t.ha, hb := t.hb, pitch := t.pitch,
               blk := { s.blk with yp := t.blk.yp, yt := t.blk.yt } } ∧
  (∀ d, d ≠ ch → look t.pitch d = look s.pitch d ∧ look t.blk.yp d = look s.blk.yp d ∧
    look t.blk.yt d = look s.blk.yt d) ∧
  (∀ k, ¬ passKey s ch n k → t.ha.read k = s.ha.read k ∧ t.hb.read k = s.hb.read k)

/-- Two states look alike to channel `ch`: the same global registers, event flags, overlay buffers, parameters
and draw counter, and the same registers, previous bank, history, engine input and outputs of that channel. -/
structure State.alike (s t : State) (ch : Fin NC) : Prop where
  global : t.algsel = s.algsel ∧ t.glide = s.glide ∧ t.fscale = s.fscale ∧ t.algChanged = s.algChanged ∧
    t.uscaleChanged = s.uscaleChanged ∧ t.usStage = s.usStage ∧ t.usActive = s.usActive ∧
    t.params = s.params ∧ t.draws = s.draws
  chan : look t.chan ch = look s.chan ch
  prevbank : look t.prevbank ch = look s.prevbank ch
  history : ∀ k, sliceStart s.P ch.val ≤ k → k < sliceStart s.P (ch.val + 1) →
    t.ha.read k = s.ha.read k ∧ t.hb.read k = s.hb.read k
  input : look t.blk.xin ch = look s.blk.xin ch
  outputs : look t.env ch = look s.env ch ∧ look t.pitch ch = look s.pitch ch ∧
    look t.chlevel ch = look s.chlevel ch

end Sys2Proof.Machine
end

