-- ==== Sys2Proof/Certificates/Slice0/Obligations.lean ====
section
/-! DEFINITION. The statements for the provers. Each docstring names the rule of spec/ it formalises. A command's
data word is `s.wdata` (30_encoding.md R70). Where a statement names a free value or another choice of the
model it says so and names the log entry. A statement without a premise of finiteness holds of non-finite words too, for
which 60_exceptions.md R241 leaves the whole result of a rule open: that the rule keeps its shape there, a free value
for each open operation in it, is the model's choice (log entry 6). A statement about a filter or a tick without a premise
on banks and fade-to pairs holds also of the blocks the spec says a model refuses (93_implementation_defined.md U3, U4):
that such a block completes, with its frame, lengths, flags and other channels, is the model's choice (log entries 4, 8,
9). -/

section
open Sys2Proof Sys2Proof.Machine

/-! ## The interface and the encodings -/

/-- One step is one transaction: the next command word the host offers is taken, decoded and run; a word that
encodes no instruction does nothing; with none offered nothing happens. An engine operation runs by itself only
where the probe is set. The list `host`, the probe, the draw counter and the idle step are the model's own (log
entries 1, 2, 7). -/
def Obligations.StepRunsDecodedTransaction : Prop :=
  (∀ (s : State) (t : Txn) (rest : List Txn), s.probe = none → s.host = t :: rest →
    (∀ i : Instr, decodeCmd t.word = .ok i →
      step s = exec i { s with host := rest, wdata := t.wdata, draws := s.draws + 1 }) ∧
    (∀ e : DecodeError, decodeCmd t.word = .error e →
      step s = .next { s with host := rest, wdata := t.wdata, draws := s.draws + 1, rdata := 0 })) ∧
  (∀ s : State, s.probe = none → s.host = [] → step s = .next s) ∧
  (∀ (s : State) (space : Space) (w : Word) (i : Instr), s.probe = some (space, w) → decode space w = .ok i →
    step s = exec i { s with probe := none, wdata := 0, draws := s.draws + 1 }) ∧
  (∀ (s : State) (nbits w : Nat) (i : Instr), decodeTableWord nbits w = some i →
    step (s.withFetchWord nbits w) = exec i { s with probe := none, wdata := 0, draws := s.draws + 1 })

/-- R239, R35: one mode, and the host reaches only what R35 lists. A step of a state with no probe set leaves none
set, and runs one of the thirteen commands: unless its word's opcode is that of `TICK`, the engine's state, the
output registers and the status flags are as they were. The probe is the model's own (log entry 2). -/
def Obligations.HostReachesCommandsOnly : Prop :=
  (∀ s t : State, s.probe = none → step s = .next t → t.probe = none ∧
    ((s.host = [] ∧ t = s) ∨
      ∃ (x : Txn) (rest : List Txn), s.host = x :: rest ∧ t.host = rest ∧ (opField x.word ≠ 0x02 → s.sameEngine t))) ∧
  State.reset.probe = none ∧ (∀ p : ParamSet, (State.powerOn p).probe = none)

/-- R230: every command completes, whatever the state holds. Totality on non-finite values and at the points the
spec offers to refuse is the model's choice (log entries 4, 6, 8, 9). -/
def Obligations.EveryCommandCompletes : Prop :=
  (∀ (i : Instr) (s : State), ∃ t, exec i s = .next t) ∧ (∀ s : State, ∃ t, step s = .next t)

/-- R100: `NOP`; R79 (a) to (e): what an undefined opcode, channel, register number, lane, sample or overlay index
does, a reserved opcode exactly what `NOP` does. -/
def Obligations.NopAndReservedEncodingsDoNothing : Prop :=
  (∀ s : State, exec .nop s = .next { s with rdata := 0 }) ∧
  (∀ w : Word, opField w = 0x00 → decodeCmd w = .ok .nop) ∧
  (∀ (s : State) (w d : Word) (rest : List Txn),
    opField w ∉ [0x01, 0x02, 0x03, 0x04, 0x10, 0x11, 0x12, 0x13, 0x14, 0x20, 0x21, 0x22] →
    s.probe = none → s.host = ⟨w, d⟩ :: rest →
    step s = .next { s with host := rest, wdata := d, draws := s.draws + 1, rdata := 0 }) ∧
  (∀ (s : State) (ch i : Nat) (reg : CReg), 6 ≤ ch →
    exec (.wrc ch reg) s = .next { s with rdata := 0 } ∧ exec (.rdc ch reg) s = .next { s with rdata := 0 } ∧
    exec (.rob ch i) s = .next { s with rdata := 0 }) ∧
  (∀ (s : State) (ch n : Nat),
    (8 ≤ n → exec (.wrg (gregOfNum n)) s = .next { s with rdata := 0 }) ∧
    (12 ≤ n → exec (.wrc ch (cregOfNum n)) s = .next { s with rdata := 0 }) ∧
    (9 ≤ n → exec (.rdg (gregOfNum n)) s = .next { s with rdata := 0 }) ∧
    (16 ≤ n → exec (.rdc ch (cregOfNum n)) s = .next { s with rdata := 0 })) ∧
  (∀ (s : State) (ch n : Nat),
    (s.P.ns * s.P.nf ≤ n → exec (.wus n) s = .next { s with rdata := 0 }) ∧
    (18 ≤ n → exec (.win n) s = .next { s with rdata := 0 }) ∧
    (6 ≤ n → exec (.rout n) s = .next { s with rdata := 0 }) ∧
    (s.P.block ≤ n → exec (.rob ch n) s = .next { s with rdata := 0 }))

/-- Decode and encode agree: every well-formed instruction, every operand at every value its field admits
(R71, R72, R74 to R78; the engine operations' words are the model's, log entry 2). -/
def Obligations.DecodeOfEncodeIsIdentity : Prop :=
  ∀ i : Instr, i.wf = true → decode (encode i).1 (encode i).2 = .ok i

/-- R71: the places of the fields; a field the command does not use, and bits 7:0, do not matter to the decoder
and are zero as the encoder writes them. -/
def Obligations.UnusedFieldsAreIgnored : Prop :=
  (∀ w : Word, opField w = w.toNat / 2 ^ 24 ∧ chField w = w.toNat / 2 ^ 20 % 16 ∧
    idxField w = w.toNat / 2 ^ 8 % 4096) ∧
  (∀ w v : Word, opField w = opField v →
    (opField w ∈ [0x10, 0x11, 0x14, 0x20, 0x21, 0x12, 0x13, 0x22] → idxField w = idxField v) →
    (opField w ∈ [0x12, 0x13, 0x22] → chField w = chField v) → decodeCmd w = decodeCmd v) ∧
  (∀ i : Instr, i.wf = true → (encode i).1 = .command →
    (encode i).2.toNat % 256 = 0 ∧
    (opField (encode i).2 ∉ [0x12, 0x13, 0x22] → chField (encode i).2 = 0) ∧
    (opField (encode i).2 ∉ [0x10, 0x11, 0x14, 0x20, 0x21, 0x12, 0x13, 0x22] → idxField (encode i).2 = 0))

/-- R72, R74, R75: the opcode and the register numbers of each command, and words written out in the spec's
examples (95_test_vectors.md sections 3.1, 4). -/
def Obligations.OpcodeMapAndExampleWords : Prop :=
  (∀ w : Word,
    (opField w = 0x00 → decodeCmd w = .ok .nop) ∧
    (opField w = 0x01 → decodeCmd w = .ok .reset) ∧
    (opField w = 0x02 → decodeCmd w = .ok .tick) ∧
    (opField w = 0x03 → decodeCmd w = .ok .usc) ∧
    (opField w = 0x04 → decodeCmd w = .ok .bank) ∧
    (opField w = 0x10 → decodeCmd w = .ok (.wrg (gregOfNum (idxField w)))) ∧
    (opField w = 0x11 → decodeCmd w = .ok (.rdg (gregOfNum (idxField w)))) ∧
    (opField w = 0x12 → decodeCmd w = .ok (.wrc (chField w) (cregOfNum (idxField w)))) ∧
    (opField w = 0x13 → decodeCmd w = .ok (.rdc (chField w) (cregOfNum (idxField w)))) ∧
    (opField w = 0x14 → decodeCmd w = .ok (.wus (idxField w))) ∧
    (opField w = 0x20 → decodeCmd w = .ok (.win (idxField w))) ∧
    (opField w = 0x21 → decodeCmd w = .ok (.rout (idxField w))) ∧
    (opField w = 0x22 → decodeCmd w = .ok (.rob (chField w) (idxField w)))) ∧
  [0x000, 0x001, 0x002, 0x003, 0x004, 0x005, 0x006, 0x007, 0x008].map gregOfNum =
    [.algsel, .flags, .glide, .fscale, .qglobal, .hostrate, .inch, .outmode, .status] ∧
  [0x000, 0x001, 0x002, 0x003, 0x004, 0x005, 0x006, 0x007].map cregOfNum =
    [.note, .scale, .bank, .lock, .qlock, .q, .nudge, .shift] ∧
  [0x008, 0x009, 0x00A, 0x00B, 0x00C, 0x00D, 0x00E, 0x00F].map cregOfNum =
    [.morph, .fadeNote, .fadeScale, .level, .env, .pitch, .chlevel, .prevbank] ∧
  decode .command 0x12200500 = .ok (.wrc 2 .q) ∧ decode .command 0x122005AB = .ok (.wrc 2 .q) ∧
  decode .command 0x10F00200 = .ok (.wrg .glide) ∧ decode .command 0x02ABCDEF = .ok .tick ∧
  decode .command 0x13000F00 = .ok (.rdc 0 .prevbank) ∧ decode .command 0x22100300 = .ok (.rob 1 3) ∧
  decode .command 0x14000600 = .ok (.wus 6) ∧ decode .command 0x05000000 = .error (.reservedOpcode 5)

/-- R76, R77, R78, R181: which operation each selector value chooses, and the stream counts. -/
def Obligations.SelectorsChooseOperations : Prop :=
  (∀ ch : Nat, decodeAlgsel 0b00 ch = .filt1p ch ∧ decodeAlgsel 0b01 ch = .filt2p ch ∧
    decodeAlgsel 0b10 ch = .filtbl ch ∧ decodeAlgsel 0b11 ch = .filt2p ch) ∧
  (decodeOutmode 0b00 = .fold1 ∧ noutOf 0b00 = 1) ∧ (decodeOutmode 0b01 = .fold2 ∧ noutOf 0b01 = 2) ∧
  (decodeOutmode 0b10 = .fold6 ∧ noutOf 0b10 = 6) ∧ (decodeOutmode 0b11 = .fold6 ∧ noutOf 0b11 = 6) ∧
  (∀ n : Word, (n = 0 ∨ n = 1 → decodeInch n = .fanin2 ∧ ninOf n = 2) ∧
    (n = 3 → decodeInch n = .fanin3 ∧ ninOf n = 3) ∧
    (n ≠ 0 → n ≠ 1 → n ≠ 3 → decodeInch n = .fanin6 ∧ ninOf n = 6)) ∧
  (∀ (s : State) (ch : Fin NC), exec (decodeAlgsel s.algsel ch.val) s = .next (filter s ch) ∧
    exec (decodeOutmode s.outmode) s = .next (foldOut s) ∧ exec (decodeInch s.inch) s = .next (fanIn s))

/-! ## The control commands -/

/-- R101, R112: what `WRG` writes, register by register, and nothing else. -/
def Obligations.WrgWritesGlobalRegister : Prop :=
  ∀ s : State,
    exec (.wrg .algsel) s = .next { s with
      algsel := s.wdata.extractLsb' 0 2
      algChanged := s.algChanged || decide (algOf (s.wdata.extractLsb' 0 2) ≠ algOf s.algsel)
      rdata := 0 } ∧
    exec (.wrg .flags) s = .next { s with
      algChanged := s.algChanged || s.wdata.getLsbD 0
      uscaleChanged := s.uscaleChanged || s.wdata.getLsbD 1
      rdata := 0 } ∧
    exec (.wrg .glide) s = .next { s with glide := s.wdata.getLsbD 0, rdata := 0 } ∧
    exec (.wrg .fscale) s = .next { s with fscale := s.wdata, rdata := 0 } ∧
    exec (.wrg .qglobal) s = .next { s with qglobal := s.wdata, rdata := 0 } ∧
    exec (.wrg .hostrate) s = .next { s with hostrate := s.wdata, rdata := 0 } ∧
    exec (.wrg .inch) s = .next { s with inch := s.wdata, rdata := 0 } ∧
    exec (.wrg .outmode) s = .next { s with outmode := s.wdata.extractLsb' 0 2, rdata := 0 } ∧
    exec (.wrg .status) s = .next { s with rdata := 0 } ∧
    (∀ n, exec (.wrg (.undefined n)) s = .next { s with rdata := 0 }) ∧
    (∀ w : Word, opField w = 0x10 → decodeCmd w = .ok (.wrg (gregOfNum (idxField w))))

/-- R102: what `RDG` returns, and that it changes nothing else. `STATUS` is `StatusBits`. -/
def Obligations.RdgReadsGlobalRegister : Prop :=
  ∀ s : State,
    exec (.rdg .algsel) s = .next { s with rdata := s.algsel.setWidth 32 } ∧
    (∃ r : Word, exec (.rdg .flags) s = .next { s with rdata := r } ∧ r.getLsbD 0 = s.algChanged ∧
      r.getLsbD 1 = s.uscaleChanged ∧ ∀ i, 2 ≤ i → r.getLsbD i = false) ∧
    exec (.rdg .glide) s = .next { s with rdata := if s.glide then 1 else 0 } ∧
    exec (.rdg .fscale) s = .next { s with rdata := s.fscale } ∧
    exec (.rdg .qglobal) s = .next { s with rdata := s.qglobal } ∧
    exec (.rdg .hostrate) s = .next { s with rdata := s.hostrate } ∧
    exec (.rdg .inch) s = .next { s with rdata := s.inch } ∧
    exec (.rdg .outmode) s = .next { s with rdata := s.outmode.setWidth 32 } ∧
    exec (.rdg .status) s = .next { s with rdata := statusWord s } ∧
    (∀ n, exec (.rdg (.undefined n)) s = .next { s with rdata := 0 }) ∧
    (∀ w : Word, opField w = 0x11 → decodeCmd w = .ok (.rdg (gregOfNum (idxField w))))

/-- R39: the bits of `STATUS`, as `RDG` returns it and as `TICK` does. -/
def Obligations.StatusBits : Prop :=
  (∀ s : State, ∃ r : Word, exec (.rdg .status) s = .next { s with rdata := r } ∧
    r.getLsbD 0 = s.clip ∧ r.getLsbD 1 = s.fired ∧
    (∀ k : Fin NC, r.getLsbD (8 + k.val) = look s.indrop k ∧ r.getLsbD (16 + k.val) = look s.outvalid k) ∧
    (∀ i, 2 ≤ i → i < 8 ∨ 14 ≤ i → i < 16 ∨ 22 ≤ i → r.getLsbD i = false)) ∧
  (∀ s : State, ∃ t : State, exec .tick s = .next t ∧ exec (.rdg .status) t = .next t)

/-- R106: what `WRC` writes, register by register, and nothing else. -/
def Obligations.WrcWritesChannelRegister : Prop :=
  (∀ (s : State) (ch : Fin NC),
    let c := look s.chan ch
    let wrote (i : Instr) (c' : Chan) : Prop := exec i s = .next { s with chan := upd s.chan ch c', rdata := 0 }
    wrote (.wrc ch.val .note) { c with note := s.wdata } ∧
    wrote (.wrc ch.val .scale) { c with scale := s.wdata } ∧
    wrote (.wrc ch.val .bank) { c with bank := s.wdata } ∧
    wrote (.wrc ch.val .lock) { c with lock := s.wdata.getLsbD 0 } ∧
    wrote (.wrc ch.val .qlock) { c with qlock := s.wdata.getLsbD 0 } ∧
    wrote (.wrc ch.val .q) { c with q := s.wdata } ∧
    wrote (.wrc ch.val .nudge) { c with nudge := s.wdata } ∧
    wrote (.wrc ch.val .shift) { c with shift := s.wdata } ∧
    wrote (.wrc ch.val .morph) { c with morph := s.wdata } ∧
    wrote (.wrc ch.val .fadeNote) { c with fadeNote := s.wdata } ∧
    wrote (.wrc ch.val .fadeScale) { c with fadeScale := s.wdata } ∧
    wrote (.wrc ch.val .level) { c with level := s.wdata }) ∧
  (∀ (s : State) (ch n : Nat),
    exec (.wrc ch .env) s = .next { s with rdata := 0 } ∧ exec (.wrc ch .pitch) s = .next { s with rdata := 0 } ∧
    exec (.wrc ch .chlevel) s = .next { s with rdata := 0 } ∧
    exec (.wrc ch .prevbank) s = .next { s with rdata := 0 } ∧
    exec (.wrc ch (.undefined n)) s = .next { s with rdata := 0 }) ∧
  (∀ (s : State) (ch : Nat) (reg : CReg), 5 < ch → exec (.wrc ch reg) s = .next { s with rdata := 0 }) ∧
  (∀ w : Word, opField w = 0x12 → decodeCmd w = .ok (.wrc (chField w) (cregOfNum (idxField w))))

/-- R107: what `RDC` returns, and that it changes nothing else. -/
def Obligations.RdcReadsChannelRegister : Prop :=
  (∀ (s : State) (ch : Fin NC),
    let c := look s.chan ch
    let reads (i : Instr) (v : Word) : Prop := exec i s = .next { s with rdata := v }
    reads (.rdc ch.val .note) c.note ∧ reads (.rdc ch.val .scale) c.scale ∧ reads (.rdc ch.val .bank) c.bank ∧
    reads (.rdc ch.val .lock) (if c.lock then 1 else 0) ∧ reads (.rdc ch.val .qlock) (if c.qlock then 1 else 0) ∧
    reads (.rdc ch.val .q) c.q ∧ reads (.rdc ch.val .nudge) c.nudge ∧ reads (.rdc ch.val .shift) c.shift ∧
    reads (.rdc ch.val .morph) c.morph ∧ reads (.rdc ch.val .fadeNote) c.fadeNote ∧
    reads (.rdc ch.val .fadeScale) c.fadeScale ∧ reads (.rdc ch.val .level) c.level ∧
    reads (.rdc ch.val .env) (look s.env ch) ∧ reads (.rdc ch.val .pitch) (look s.pitch ch) ∧
    reads (.rdc ch.val .chlevel) (look s.chlevel ch) ∧ reads (.rdc ch.val .prevbank) (look s.prevbank ch) ∧
    (∀ n, reads (.rdc ch.val (.undefined n)) 0)) ∧
  (∀ (s : State) (ch : Nat) (reg : CReg), 5 < ch → exec (.rdc ch reg) s = .next { s with rdata := 0 }) ∧
  (∀ w : Word, opField w = 0x13 → decodeCmd w = .ok (.rdc (chField w) (cregOfNum (idxField w))))

/-- R36, R73: a register keeps the value written, unchecked and unclamped; a field of w bits keeps the low w. -/
def Obligations.WrittenRegisterReadsBack : Prop :=
  ∀ (s : State) (ch : Fin NC),
    (∀ reg ∈ [CReg.note, .scale, .bank, .q, .nudge, .shift, .morph, .fadeNote, .fadeScale, .level],
      ∃ t u, exec (.wrc ch.val reg) s = .next t ∧ exec (.rdc ch.val reg) t = .next u ∧ u.rdata = s.wdata) ∧
    (∀ reg ∈ [CReg.lock, .qlock],
      ∃ t u, exec (.wrc ch.val reg) s = .next t ∧ exec (.rdc ch.val reg) t = .next u ∧
        u.rdata = s.wdata &&& 1) ∧
    (∀ reg ∈ [GReg.fscale, .qglobal, .hostrate, .inch],
      ∃ t u, exec (.wrg reg) s = .next t ∧ exec (.rdg reg) t = .next u ∧ u.rdata = s.wdata) ∧
    (∀ reg ∈ [GReg.algsel, .outmode],
      ∃ t u, exec (.wrg reg) s = .next t ∧ exec (.rdg reg) t = .next u ∧ u.rdata = s.wdata &&& 3) ∧
    (∃ t u, exec (.wrg .glide) s = .next t ∧ exec (.rdg .glide) t = .next u ∧ u.rdata = s.wdata &&& 1) ∧
    (∃ t u, exec (.wrg .flags) s = .next t ∧ exec (.rdg .flags) t = .next u ∧
      s.wdata &&& 3 = (u.rdata &&& s.wdata) &&& 3)

/-- R58: the register reads have no side effect and are idempotent; none clears a flag. -/
def Obligations.RegisterReadsHaveNoSideEffect : Prop :=
  ∀ (s : State) (i : Instr),
    (∃ g, i = .rdg g) ∨ (∃ ch c, i = .rdc ch c) ∨ (∃ l, i = .rout l) ∨ (∃ ch n, i = .rob ch n) →
    ∃ r : Word, exec i s = .next { s with rdata := r } ∧ ∀ r' : Word, exec i { s with rdata := r' } =
      .next { s with rdata := r }

/-- R109: `USC` sets `USCALE_CHANGED`; twice is once; `WRG FLAGS, 2` does the same; the flag outlives every tick
that fires no block. -/
def Obligations.UscSetsUscaleChanged : Prop :=
  (∀ s : State, exec .usc s = .next { s with uscaleChanged := true, rdata := 0 }) ∧
  (∀ s t : State, exec .usc s = .next t → exec .usc t = .next t ∧
    (fireTest (accumulate t) = false → ∃ u : State, exec .tick t = .next u ∧ u.uscaleChanged = true)) ∧
  (∀ s : State, exec (.wrg .flags) { s with wdata := 2 } =
    .next { s with wdata := 2, uscaleChanged := true, rdata := 0 }) ∧
  (∀ w : Word, opField w = 0x03 → decodeCmd w = .ok .usc)

/-- R111: `BANK` writes the bank of the channels that are not locked, unclamped, and nothing else. -/
def Obligations.BankEventSparesLockedChannels : Prop :=
  (∀ s : State, ∃ t : State, exec .bank s = .next t ∧ t = { s with chan := t.chan, rdata := 0 } ∧
    ∀ ch : Fin NC, look t.chan ch =
      if (look s.chan ch).lock = true then look s.chan ch else { look s.chan ch with bank := s.wdata }) ∧
  (∀ w : Word, opField w = 0x04 → decodeCmd w = .ok .bank)

/-- R108: `WUS` writes one staging entry by flat index, and no other element and no flag. -/
def Obligations.WusWritesOneStagingEntry : Prop :=
  (∀ (s : State) (idx : Nat), s.usStage.wf = true →
    ∃ t : State, exec (.wus idx) s = .next t ∧ t = { s with usStage := t.usStage, rdata := 0 } ∧
      t.usStage.wf = true ∧
      (idx < s.P.ns * s.P.nf →
        t.usStage.read (overlayKey s.P (idx / s.P.nf) (idx % s.P.nf)) = s.wdata ∧
        ∀ sc nt, sc < s.P.ns → nt < s.P.nf → sc * s.P.nf + nt ≠ idx →
          t.usStage.read (overlayKey s.P sc nt) = s.usStage.read (overlayKey s.P sc nt)) ∧
      (∀ k, k ≠ idx ∨ s.P.ns * s.P.nf ≤ idx → t.usStage.read k = s.usStage.read k)) ∧
  (∀ w : Word, opField w = 0x14 → decodeCmd w = .ok (.wus (idxField w)))

/-- R251, R252: `RESET` sets the twelve control registers of every channel and touches nothing else. -/
def Obligations.ResetSetsChannelDefaultsOnly : Prop :=
  (∀ s : State, ∃ t : State, exec .reset s = .next t ∧ t = { s with chan := t.chan, rdata := 0 } ∧
    ∀ ch : Fin NC, look t.chan ch =
      { note := 0, scale := 0, bank := 0, fadeNote := 0, fadeScale := 0, lock := false, qlock := false,
        q := 0x00000000, morph := 0x00000000, nudge := 0x3F800000, shift := 0x3F800000, level := 0x3F800000 }) ∧
  (∀ w : Word, opField w = 0x01 → decodeCmd w = .ok .reset)

/-- R184, R193, R194: `WIN` writes an input lane; `ROUT` and `ROB` read an output lane and a sample of the block
output. -/
def Obligations.LaneAndBlockOutputCommands : Prop :=
  (∀ (s : State) (k : Fin 18), exec (.win k.val) s =
    .next { s with inlane := upd s.inlane k s.wdata, rdata := 0 }) ∧
  (∀ (s : State) (n : Nat), 18 ≤ n → exec (.win n) s = .next { s with rdata := 0 }) ∧
  (∀ (s : State) (k : Fin NC), exec (.rout k.val) s = .next { s with rdata := look s.outlane k }) ∧
  (∀ (s : State) (n : Nat), 6 ≤ n → exec (.rout n) s = .next { s with rdata := 0 }) ∧
  (∀ (s : State) (ch : Fin NC) (i : Nat) (v : F), i < s.P.block → (look s.out ch)[i]? = some v →
    exec (.rob ch.val i) s = .next { s with rdata := v }) ∧
  (∀ (s : State) (ch i : Nat), 6 ≤ ch ∨ s.P.block ≤ i → exec (.rob ch i) s = .next { s with rdata := 0 }) ∧
  (∀ w : Word, (opField w = 0x20 → decodeCmd w = .ok (.win (idxField w))) ∧
    (opField w = 0x21 → decodeCmd w = .ok (.rout (idxField w))) ∧
    (opField w = 0x22 → decodeCmd w = .ok (.rob (chField w) (idxField w))))

/-! ## The coefficient store and block start -/

/-- R103: each index is the register's value clamped to its range, a negative one to 0. -/
def Obligations.IndicesAreClamped : Prop :=
  ∀ (P : Params) (c : Chan),
    ((idxOf P c).b : Int) = max 0 (min c.bank.toInt (P.nb - 1)) ∧
    ((idxOf P c).sc : Int) = max 0 (min c.scale.toInt (P.ns - 1)) ∧
    ((idxOf P c).nt : Int) = max 0 (min c.note.toInt (P.nf - 1)) ∧
    ((idxOf P c).fsc : Int) = max 0 (min c.fadeScale.toInt (P.ns - 1)) ∧
    ((idxOf P c).fnt : Int) = max 0 (min c.fadeNote.toInt (P.nf - 1))

/-- R104, R105 below the user bank, and the parameter functions on finite arguments (R132, R134, R151, R161), and
the morph gate (R140, R170, R10: an IEEE comparison, a negative zero is zero). -/
def Obligations.LookupsAndMorphGate : Prop :=
  (∀ (s : State) (b sc nt : Nat),
    coefChar s b sc nt = if b = s.P.nb - 1 then s.usActive.read (overlayKey s.P sc nt) else s.P.tChar b sc nt) ∧
  (∀ (s : State) (ch : Fin NC) (b sc nt : Nat), b + 1 < s.P.nb →
    coefLo s ch b sc nt = s.P.tLo b sc nt ∧ coefHi s ch b sc nt = s.P.tHi b sc nt) ∧
  (∀ (s : State) (q : F), F.finite q = true → F.finite s.fscale = true →
    poleRadius s q = s.P.poleRadius q s.fscale) ∧
  (∀ (P : Params) (q : F), F.finite q = true →
    F.apply1 .twoPassCal P.twoPassCal q = P.twoPassCal q ∧ F.apply1 .onePassGain P.onePassGain q = P.onePassGain q ∧
    qFactor P q = P.logQ q) ∧
  (∀ c : Chan, F.finite c.morph = true → (morphOn c = true ↔ F.val c.morph ≠ 0)) ∧
  (∀ c : Chan, morphOn { c with morph := 0x80000000 } = false)

/-- R113, R110: what `BLKSTART` clears, what it sets, and that it writes nothing else. -/
def Obligations.BlockStartClearsHistory : Prop :=
  ∀ s : State, s.ha.wf = true → s.hb.wf = true →
    let t := blkStart s
    let b (ch : Fin NC) : Word := BitVec.ofNat 32 (idxOf s.P (look s.chan ch)).b
    let clears (ch : Fin NC) : Prop := b ch ≠ look s.prevbank ch ∨ s.algChanged = true ∨ s.uscaleChanged = true
    t = { s with ha := t.ha, hb := t.hb, prevbank := t.prevbank, usActive := t.usActive } ∧
    t.usActive = (if s.uscaleChanged = true then s.usStage else s.usActive) ∧
    (∀ ch : Fin NC, look t.prevbank ch = b ch) ∧
    (∀ (ch : Fin NC) (sc nt k : Nat), sc < s.P.ns → nt < s.P.nf → k < 3 →
      (clears ch → t.ha.read (histKey s.P ch sc nt k) = 0x00000000 ∧
        t.hb.read (histKey s.P ch sc nt k) = 0x00000000) ∧
      (¬ clears ch → t.ha.read (histKey s.P ch sc nt k) = s.ha.read (histKey s.P ch sc nt k) ∧
        t.hb.read (histKey s.P ch sc nt k) = s.hb.read (histKey s.P ch sc nt k)))

/-- R113, the testable form of the invariant: the output of a channel whose history the block clears is the
response of a zero-initial-state filter. Of a blended block's pitch nothing is claimed (R165 (1)). Free values (the user
bank, equal pairs, results on values that are not finite) are equal on both sides because each is a function of the
draw counter, the channel and the operands, the model's choice (log entries 6, 8, 9). -/
def Obligations.SwitchedChannelStartsFromZeroState : Prop :=
  ∀ (s : State) (ch : Fin NC), s.ha.wf = true → s.hb.wf = true →
    (idxOf s.P (look s.chan ch)).b ≠ (look s.prevbank ch).toNat ∨ s.algChanged = true ∨ s.uscaleChanged = true →
    let t := engine s
    let z := engine { s with ha := [], hb := [] }
    look t.out ch = look z.out ch ∧ look t.env ch = look z.env ch ∧ look t.chlevel ch = look z.chlevel ch ∧
    (algOf s.algsel ≠ .blended → look t.pitch ch = look z.pitch ch)

/-- R60: a staged overlay becomes visible, whole, when a block begins with `USCALE_CHANGED` set, and not before;
the block consumes the flag. -/
def Obligations.OverlayHandoff : Prop :=
  (∀ (i : Instr) (s t : State), i ≠ .tick → exec i s = .next t → t.usActive = s.usActive) ∧
  (∀ s : State, ∃ t : State, exec .tick s = .next t ∧ t.usStage = s.usStage ∧
    (fireTest (accumulate s) = true →
      t.usActive = (if s.uscaleChanged = true then s.usStage else s.usActive) ∧ t.uscaleChanged = false) ∧
    (fireTest (accumulate s) = false → t.usActive = s.usActive ∧ t.uscaleChanged = s.uscaleChanged)) ∧
  (∀ (s : State) (ch : Fin NC), (filter s ch).usActive = s.usActive)

/-- R174, R235, R256: the event flags are cleared at the end of every fired block and by nothing else. -/
def Obligations.EventFlagsPendUntilABlock : Prop :=
  (∀ s : State, ∃ t : State, exec .tick s = .next t ∧
    (fireTest (accumulate s) = true → t.algChanged = false ∧ t.uscaleChanged = false) ∧
    (fireTest (accumulate s) = false → t.algChanged = s.algChanged ∧ t.uscaleChanged = s.uscaleChanged)) ∧
  (∀ (i : Instr) (s t : State), i ≠ .tick → exec i s = .next t →
    (s.algChanged = true → t.algChanged = true) ∧ (s.uscaleChanged = true → t.uscaleChanged = true))

/-! ## The resonators -/

/-- R133, in every numeric domain: the three products in order, one operation each, clamped from above only; the result
is never above `C1_MAX` (R232). Where the product is `+infinity`, from whatever factors, it is `C1_MAX` (R241); two
channels with the same four factors have the same coefficient, whatever it is (where the spec leaves it open this is
the model's choice, log entry 6). -/
def Obligations.FrequencyCoefficientIsClamped : Prop :=
  (∀ (s : State) (ch : Fin NC) (b sc nt : Nat),
    let D := s.P.dom
    let c := look s.chan ch
    let x := coefChar s b sc nt
    (D.mulExt (D.mulExt (D.mulExt x c.nudge) c.shift) s.fscale = 0x7F800000 → freqCoef s ch b sc nt = 0x3FA78D2D) ∧
    (let p1 := D.times x c.nudge
     let p2 := D.times p1 c.shift
     let p3 := D.times p2 s.fscale
     F.finite x = true → F.finite c.nudge = true → F.finite c.shift = true → F.finite s.fscale = true →
     F.finite p1 = true → F.finite p2 = true →
     (p3 = 0x7F800000 → freqCoef s ch b sc nt = 0x3FA78D2D) ∧
     (F.finite p3 = true →
      (F.val 0x3FA78D2D < F.val p3 → freqCoef s ch b sc nt = 0x3FA78D2D) ∧
      (F.val p3 ≤ F.val 0x3FA78D2D → freqCoef s ch b sc nt = p3) ∧
      F.val (freqCoef s ch b sc nt) ≤ F.val 0x3FA78D2D))) ∧
  (∀ (s : State) (ch d : Fin NC) (b sc nt b' sc' nt' : Nat), coefChar s b sc nt = coefChar s b' sc' nt' →
    (look s.chan ch).nudge = (look s.chan d).nudge → (look s.chan ch).shift = (look s.chan d).shift →
    freqCoef s ch b sc nt = freqCoef s d b' sc' nt')

/-- R150 to R153, R136, R139, R140: `FILT1P` for every setting of the morph position. Where the fade-to pair is
the primary pair and the morph position is not zero, R140 leaves the block unspecified (U4): the samples are free, and
that the pitch, the frame and the lengths of the outputs still hold there is the model's choice (log entry 9), and so is
that pitch and recurrence keep their shape on non-finite values (R241, log entry 6). -/
def Obligations.OnePassResonator : Prop :=
  ∀ (s : State) (ch : Fin NC), s.ha.wf = true →
    ∃ t : State, exec (.filt1p ch.val) s = .next t ∧
      let A := s.P.dom
      let c := look s.chan ch
      let ix := idxOf s.P c
      let c0 := poleRadius s c.q
      let xs := (look s.blk.xin ch).map A.itof
      let pass (sc nt : Nat) (ys : List F) : Prop :=
        let c1 := freqCoef s ch ix.b sc nt
        let c2 := A.mul (A.add (A.add (A.mul s.P.k1One c1) (A.mul s.P.k0One c0)) s.P.kcOne)
          (F.apply1 .onePassGain s.P.onePassGain c.q)
        ResonTrace A c0 c1 c2 (readSlot s.P s.ha ch sc nt) xs ys (readSlot s.P t.ha ch sc nt)
      let c1p := freqCoef s ch ix.b ix.sc ix.nt
      let c1t := freqCoef s ch ix.b ix.fsc ix.fnt
      (morphOn c = false → pass ix.sc ix.nt (look t.blk.yp ch) ∧ t.blk.yt = s.blk.yt) ∧
      (morphOn c = true → (ix.fsc, ix.fnt) ≠ (ix.sc, ix.nt) →
        pass ix.sc ix.nt (look t.blk.yp ch) ∧ pass ix.fsc ix.fnt (look t.blk.yt ch)) ∧
      (morphOn c = true → (look t.blk.yp ch).length = xs.length ∧ (look t.blk.yt ch).length = xs.length) ∧
      look t.pitch ch = (if s.glide = true ∧ morphOn c = true then
        A.add (A.mul c1p (A.sub 0x3F800000 c.morph)) (A.mul c1t c.morph) else c1p) ∧
      s.filterFrame t ch 3 ∧ t.hb = s.hb ∧ t.ha.wf = true

/-- R130 to R137, R139 to R141: `FILT2P` for every setting of the morph position; U4 and
R241 as in `OnePassResonator`. -/
def Obligations.TwoPassResonator : Prop :=
  ∀ (s : State) (ch : Fin NC), s.ha.wf = true → s.hb.wf = true →
    ∃ t : State, exec (.filt2p ch.val) s = .next t ∧
      let A := s.P.dom
      let c := look s.chan ch
      let ix := idxOf s.P c
      let q := c.q
      let qa := F.min (A.mul 0x40000000 q) 0x457FF000
      let qb := if F.lt q 0x4573C000 = true then 0x447A0000
        else A.add 0x447A0000 (A.mul (A.sub q 0x4573C000) 0x41700000)
      let c0a := poleRadius s qa
      let c0 := poleRadius s qb
      let ra := if F.lt q s.P.cfMin = true then 0x3F800000
        else if F.lt s.P.cfMax q = true then 0x00000000
        else A.div (A.sub s.P.cfMax q) (A.sub s.P.cfMax s.P.cfMin)
      let rb := A.mul (A.sub 0x3F800000 ra) (F.apply1 .twoPassCal s.P.twoPassCal qb)
      let amp (c1 c0 : F) : F := A.add (A.add (A.mul s.P.k1 c1) (A.mul s.P.k0 c0)) s.P.kc
      let xs := (look s.blk.xin ch).map A.itof
      let pass (sc nt : Nat) (ys : List F) : Prop :=
        let c1 := freqCoef s ch ix.b sc nt
        ∃ yA yB : List F,
          ResonTrace A c0a c1 (amp c1 c0a) (readSlot s.P s.ha ch sc nt) xs yA (readSlot s.P t.ha ch sc nt) ∧
          ResonTrace A c0 c1 (A.mul (amp c1 c0) rb) (readSlot s.P s.hb ch sc nt) yA yB
            (readSlot s.P t.hb ch sc nt) ∧
          ys = List.zipWith (fun a b => A.sub (A.mul ra a) b) yA yB
      let c1p := freqCoef s ch ix.b ix.sc ix.nt
      let c1t := freqCoef s ch ix.b ix.fsc ix.fnt
      (morphOn c = false → pass ix.sc ix.nt (look t.blk.yp ch) ∧ t.blk.yt = s.blk.yt) ∧
      (morphOn c = true → (ix.fsc, ix.fnt) ≠ (ix.sc, ix.nt) →
        pass ix.sc ix.nt (look t.blk.yp ch) ∧ pass ix.fsc ix.fnt (look t.blk.yt ch)) ∧
      (morphOn c = true → (look t.blk.yp ch).length = xs.length ∧ (look t.blk.yt ch).length = xs.length) ∧
      look t.pitch ch = (if s.glide = true ∧ morphOn c = true then
        A.add (A.mul c1p (A.sub 0x3F800000 c.morph)) (A.mul c1t c.morph) else c1p) ∧
      s.filterFrame t ch 3 ∧ t.ha.wf = true ∧ t.hb.wf = true

/-- R160 to R164: `FILTBL` for every setting of the morph position; U4 and R241 as in `OnePassResonator`. `PITCH[ch]` is
free (R165 (1), log entry 7) and nothing is said of it. On the user bank R165 (2) leaves the block unspecified: the
outputs and the slots are free, and that the instruction completes, the frame and the lengths is the model's choice (U3,
log entry 8). -/
def Obligations.BlendedTableResonator : Prop :=
  ∀ (s : State) (ch : Fin NC), s.ha.wf = true →
    ∃ t : State, exec (.filtbl ch.val) s = .next t ∧
      let A := s.P.dom
      let c := look s.chan ch
      let ix := idxOf s.P c
      let f1 := if F.lt c.nudge s.P.nudgeLo = true then 0x00000000 else c.nudge
      let fn := if F.lt s.P.nudgeHi f1 = true then 0x3F800000 else f1
      let fq := qFactor s.P c.q
      let lerp (a z f : F) : F := A.add (A.mul a (A.sub 0x3F800000 f)) (A.mul z f)
      let blend (el : Triple → F) (sc nt : Nat) : F :=
        let n2 := min (nt + 1) (s.P.nf - 1)
        lerp (lerp (el (coefLo s ch ix.b sc nt)) (el (coefLo s ch ix.b sc n2)) fn)
          (lerp (el (coefHi s ch ix.b sc nt)) (el (coefHi s ch ix.b sc n2)) fn) fq
      let xs := (look s.blk.xin ch).map A.itof
      let pass (sc nt : Nat) (ys : List F) : Prop :=
        BlresTrace A (blend Triple.c0 sc nt) (blend Triple.c1 sc nt) (blend Triple.c2 sc nt)
          (readSlot s.P s.ha ch sc nt) xs ys (readSlot s.P t.ha ch sc nt)
      (ix.b + 1 < s.P.nb →
        (morphOn c = false → pass ix.sc ix.nt (look t.blk.yp ch)) ∧
        (morphOn c = true → (ix.fsc, ix.fnt) ≠ (ix.sc, ix.nt) →
          pass ix.sc ix.nt (look t.blk.yp ch) ∧ pass ix.fsc ix.fnt (look t.blk.yt ch))) ∧
      (morphOn c = false → t.blk.yt = s.blk.yt) ∧
      (look t.blk.yp ch).length = xs.length ∧ (morphOn c = true → (look t.blk.yt ch).length = xs.length) ∧
      s.filterFrame t ch 2 ∧ t.hb = s.hb ∧ t.ha.wf = true

/-- R143 in the reference domain. Below `CF_MIN`: `ratio_a` is 1, the amplitude of stage B is zero, and a block of
`FILT2P` from a zero stage B slot outputs stage A's values and leaves that slot zero. Above `CF_MAX`: `ratio_a` is 0
and the block outputs stage B's values negated. Stated on values, for the finite case. -/
def Obligations.CrossfadeBoundary : Prop :=
  ∀ (s : State) (ch : Fin NC), s.P.dom = Domain.binary32 → s.ha.wf = true → s.hb.wf = true →
    let c := look s.chan ch
    let ix := idxOf s.P c
    let k := twoPassCoefs s ch ix.b ix.sc ix.nt
    let hB := readSlot s.P s.hb ch ix.sc ix.nt
    let xs := (look s.blk.xin ch).map F.ofInt
    F.finite c.q = true → F.finite s.P.cfMin = true → F.finite s.P.cfMax = true →
    F.val s.P.cfMin < F.val s.P.cfMax → morphOn c = false →
    (F.val c.q < F.val s.P.cfMin →
      k.ratioA = 0x3F800000 ∧
      (F.finite (F.apply1 .twoPassCal s.P.twoPassCal (qbOf s.P.dom c.q)) = true → F.val (ratioB s.P c.q) = 0) ∧
      (F.finite (c2Of s.P k.c1 k.c0) = true → F.finite (ratioB s.P c.q) = true → F.val (ratioB s.P c.q) = 0 →
        F.finite k.c2 = true ∧ F.val k.c2 = 0) ∧
      (F.val k.c2 = 0 → F.finite k.c0 = true → F.finite k.c1 = true → F.finite k.c2 = true →
        F.finite hB.h0 = true → F.finite hB.h1 = true → F.val hB.h0 = 0 → F.val hB.h1 = 0 →
        ∃ (t : State) (yA : List F), exec (.filt2p ch.val) s = .next t ∧
          ResonTrace s.P.dom k.c0a k.c1 k.c2a (readSlot s.P s.ha ch ix.sc ix.nt) xs yA
            (readSlot s.P t.ha ch ix.sc ix.nt) ∧
          ((∀ y ∈ yA, F.finite y = true) →
            (look t.blk.yp ch).map F.val = yA.map F.val ∧
            F.val (readSlot s.P t.hb ch ix.sc ix.nt).h0 = 0 ∧ F.val (readSlot s.P t.hb ch ix.sc ix.nt).h1 = 0))) ∧
    (F.val s.P.cfMax < F.val c.q →
      k.ratioA = 0x00000000 ∧
      ∃ (t : State) (yA yB : List F), exec (.filt2p ch.val) s = .next t ∧
        ResonTrace s.P.dom k.c0a k.c1 k.c2a (readSlot s.P s.ha ch ix.sc ix.nt) xs yA
          (readSlot s.P t.ha ch ix.sc ix.nt) ∧
        ResonTrace s.P.dom k.c0 k.c1 k.c2 hB yA yB (readSlot s.P t.hb ch ix.sc ix.nt) ∧
        ((∀ y ∈ yA ++ yB, F.finite y = true) → (look t.blk.yp ch).map F.val = yB.map fun y => - F.val y))

/-- R189: the order in which the channels are filtered is not observable; the whole state comes out the same, but for
a blended block's pitch, of which nothing is claimed (R165 (1)). Free values are the same because each is a function of
the draw counter, the channel and the operands, the model's choice (log entries 6, 8, 9). -/
def Obligations.ChannelOrderIsUnobservable : Prop :=
  ∀ (s : State) (l : List (Fin NC)), s.ha.wf = true → s.hb.wf = true → l.Perm [0, 1, 2, 3, 4, 5] →
    let t := l.foldl filter s
    let u := [(0 : Fin NC), 1, 2, 3, 4, 5].foldl filter s
    t = { u with pitch := t.pitch } ∧ (algOf s.algsel ≠ .blended → t.pitch = u.pitch)

/-- R175 (c), R28: the six channels are independent. Two states that look alike to a channel give that channel
the same block output, envelope, pitch, level, previous bank and history, whatever the others hold; of a blended block's
pitch nothing is claimed (R165 (1)). Looking alike includes an equal draw counter, the model's own, so that free values
are equal too, the model's choice (log entries 6, 8, 9). -/
def Obligations.ChannelsDoNotInteract : Prop :=
  ∀ (s t : State) (ch : Fin NC), s.ha.wf = true → s.hb.wf = true → t.ha.wf = true → t.hb.wf = true →
    s.alike t ch →
    look (engine t).out ch = look (engine s).out ch ∧ look (engine t).env ch = look (engine s).env ch ∧
    (algOf s.algsel ≠ .blended → look (engine t).pitch ch = look (engine s).pitch ch) ∧
    look (engine t).chlevel ch = look (engine s).chlevel ch ∧
    look (engine t).prevbank ch = look (engine s).prevbank ch ∧
    ∀ k, sliceStart s.P ch.val ≤ k → k < sliceStart s.P (ch.val + 1) →
      (engine t).ha.read k = (engine s).ha.read k ∧ (engine t).hb.read k = (engine s).hb.read k

/-- R170 to R175: the blend, the level, the envelope, the channel level, the cleared flags, and the frame. That
the shape holds on non-finite values is the model's choice (R241, log entry 6). -/
def Obligations.ComposeBlendsAndScales : Prop :=
  ∀ s : State,
    let t := compose s
    t = { s with out := t.out, env := t.env, chlevel := t.chlevel, algChanged := false, uscaleChanged := false } ∧
    ∀ (ch : Fin NC) (i : Nat) (yp yt : F), (look s.blk.yp ch)[i]? = some yp →
      (morphOn (look s.chan ch) = true → (look s.blk.yt ch)[i]? = some yt) →
      let c := look s.chan ch
      let D := s.P.dom
      let bl := if morphOn c = true then D.add (D.mul yp (D.sub 0x3F800000 c.morph)) (D.mul yt c.morph) else yp
      (look t.out ch)[i]? = some (s.P.dom.mul bl c.level) ∧
      (i = 0 → look t.env ch = F.abs bl ∧ look t.chlevel ch = s.P.dom.div (F.abs bl) s.P.clipLevel)

/-- R138, R233, R189 step 3: after a block `CLIP` says whether some input sample of the block was at or above the
threshold in magnitude, whatever it said before and whatever the algorithm; the test writes nothing else. -/
def Obligations.ClipFlagRecordsOverRange : Prop :=
  (∀ s : State, (engine s).clip = true ↔
    ∃ (ch : Fin NC) (x : Int), x ∈ look s.blk.xin ch ∧ (s.P.inClipThresh : Int) ≤ |x|) ∧
  (∀ s : State, clipTest s = { s with clip := (clipTest s).clip }) ∧
  (∀ s : State, (engine s).blk.xin = s.blk.xin)

/-! ## The pipeline -/

/-- R180: the phases of a tick, in order, and the result word. Only the buffers' contents after the block are left
open (R33, log entry 10). -/
def Obligations.TickRunsPhasesInOrder : Prop :=
  (∀ s : State, ∃ e : Block, exec .tick s = .next (
    let a := accumulate s
    let p := if fireTest a = true
      then { resampleOut (foldOut (engine (fanIn (quantize (resampleIn a))))) with blk := e, fired := true }
      else { a with fired := false }
    let d := drain p
    { d with rdata := statusWord d })) ∧
  (∀ s : State, engine s = compose (([0, 1, 2, 3, 4, 5] : List (Fin NC)).foldl filter (clipTest (blkStart s)))) ∧
  (∀ w : Word, opField w = 0x02 → decodeCmd w = .ok .tick)

/-- R180 corner case, R182, R192: a tick that does not fire changes the rings, `OUTLANE` and the tick flags, as
the input side and the drain do, and nothing else. -/
def Obligations.TickWithoutBlock : Prop :=
  ∀ s : State, fireTest (accumulate s) = false →
    ∃ t : State, exec .tick s = .next t ∧
      t = { s with inbuf := t.inbuf, indrop := t.indrop, outbuf := t.outbuf, outvalid := t.outvalid,
                   outlane := t.outlane, fired := false, rdata := statusWord t } ∧
      (∀ i : Fin NC,
        (i.val < ninOf s.inch → (look s.inbuf i).length < s.P.inCap →
          look t.inbuf i = look s.inbuf i ++ [inSample s i] ∧ look t.indrop i = false) ∧
        (i.val < ninOf s.inch → s.P.inCap ≤ (look s.inbuf i).length →
          look t.inbuf i = look s.inbuf i ∧ look t.indrop i = true) ∧
        (ninOf s.inch ≤ i.val → look t.inbuf i = look s.inbuf i ∧ look t.indrop i = false) ∧
        (i.val < noutOf s.outmode → ∀ v rest, look s.outbuf i = v :: rest →
          look t.outbuf i = rest ∧ look t.outvalid i = true ∧ look t.outlane i = s.P.dom.mul v s.P.outScale) ∧
        (noutOf s.outmode ≤ i.val ∨ look s.outbuf i = [] →
          look t.outbuf i = look s.outbuf i ∧ look t.outvalid i = false ∧ look t.outlane i = look s.outlane i))

/-- What a tick that fires leaves: `FIRED`, both event flags clear, the banks used, the overlay, and the block
output of full length (R180, R29, R174, R110, R33). That a block the spec says a model refuses (U3, U4, U7) does so too is
the model's choice (log entries 4, 6, 8, 9). -/
def Obligations.TickWithBlock : Prop :=
  ∀ s : State, fireTest (accumulate s) = true →
    ∃ t : State, exec .tick s = .next t ∧ t.fired = true ∧ t.algChanged = false ∧ t.uscaleChanged = false ∧
      t.usActive = (if s.uscaleChanged = true then s.usStage else s.usActive) ∧
      (∀ ch : Fin NC, (look t.prevbank ch).toNat = (idxOf s.P (look s.chan ch)).b) ∧
      (∀ ch : Fin NC, (look t.out ch).length = s.P.block) ∧ t.rdata = statusWord t

/-- A tick leaves alone what only the host writes (R21, R22, R27, R30, R35), and so does each phase's operation;
no step changes the parameters (R34). `host` and `draws` are the model's own (log entries 1, 7). -/
def Obligations.TickKeepsHostWrittenState : Prop :=
  (∀ s : State, ∃ t : State, exec .tick s = .next t ∧ s.sameControl t) ∧
  (∀ (s : State) (ch : Fin NC), s.sameControl (filter s ch)) ∧
  (∀ s t : State, step s = .next t → t.params = s.params)

/-- R35, R58: every command but `TICK` leaves the engine's state, the output registers and the status flags
alone. -/
def Obligations.HostCommandsKeepEngineState : Prop :=
  ∀ (i : Instr) (s : State), hostCommand i = true → ∃ t : State, exec i s = .next t ∧ s.sameEngine t

/-- R182, R183: what `ACCUMULATE` pushes on each active ring, for every value of `INCH`, and what it drops. -/
def Obligations.AccumulatePushesOneSample : Prop :=
  ∀ s : State,
    let t := accumulate s
    let n := s.inch.toNat
    t = { s with inbuf := t.inbuf, indrop := t.indrop } ∧
    (∀ i : Fin NC, ∃ v : F,
      (n = 0 → ∀ k : Fin 18, k.val = 16 + i.val → i.val < 2 → v = look s.inlane k) ∧
      (n = 1 → v = look s.inlane 0) ∧
      (n = 2 ∨ n = 4 ∨ n = 5 → ∀ k : Fin 18, k.val = s.P.dup n i.val → v = look s.inlane k) ∧
      (n = 3 ∨ 6 ≤ n → ∀ k : Fin 18, k.val = i.val → v = look s.inlane k) ∧
      (i.val < ninOf s.inch → (look s.inbuf i).length < s.P.inCap →
        look t.inbuf i = look s.inbuf i ++ [v] ∧ look t.indrop i = false) ∧
      (i.val < ninOf s.inch → s.P.inCap ≤ (look s.inbuf i).length →
        look t.inbuf i = look s.inbuf i ∧ look t.indrop i = true) ∧
      (ninOf s.inch ≤ i.val → look t.inbuf i = look s.inbuf i ∧ look t.indrop i = false))

/-- R185: when a block fires. -/
def Obligations.FireTestRule : Prop :=
  ∀ s : State, fireTest s = true ↔
    s.hostrate ≠ 0 ∧
    (∀ i : Fin NC, i.val < ninOf s.inch →
      s.P.src.need (look s.insrc i) s.hostrate.toNat s.P.fsInt s.P.block ≤ (look s.inbuf i).length) ∧
    (∀ i : Fin NC, i.val < noutOf s.outmode →
      (s.P.src.yld (look s.outsrc i) s.P.fsInt s.hostrate.toNat s.P.block : Int) ≤
        (s.P.outCap : Int) - ((look s.outbuf i).length : Int))

/-- R186, R191: the two resampling phases, active streams only; on the way out every output is pushed, oldest
first, where the ring has the room the fire test asks for. -/
def Obligations.ResamplingPhases : Prop :=
  (∀ s : State,
    let t := resampleIn s
    t = { s with insrc := t.insrc, inbuf := t.inbuf, blk := { s.blk with rs := t.blk.rs } } ∧
    ∀ i : Fin NC,
      let r := s.P.src.run (look s.insrc i) s.hostrate.toNat s.P.fsInt (look s.inbuf i) s.P.block
      (i.val < ninOf s.inch → look t.insrc i = r.st ∧ look t.blk.rs i = r.ys ∧
        look t.inbuf i = (look s.inbuf i).drop r.consumed) ∧
      (ninOf s.inch ≤ i.val → look t.insrc i = look s.insrc i ∧ look t.blk.rs i = look s.blk.rs i ∧
        look t.inbuf i = look s.inbuf i)) ∧
  (∀ s : State,
    let t := resampleOut s
    t = { s with outsrc := t.outsrc, outbuf := t.outbuf } ∧
    ∀ i : Fin NC,
      let n := s.P.src.yld (look s.outsrc i) s.P.fsInt s.hostrate.toNat s.P.block
      let r := s.P.src.run (look s.outsrc i) s.P.fsInt s.hostrate.toNat (look s.blk.fold i) n
      (i.val < noutOf s.outmode → look t.outsrc i = r.st ∧
        ((look s.outbuf i).length + r.ys.length ≤ s.P.outCap → look t.outbuf i = look s.outbuf i ++ r.ys)) ∧
      (noutOf s.outmode ≤ i.val → look t.outsrc i = look s.outsrc i ∧ look t.outbuf i = look s.outbuf i))

/-- R186, R191, R213, with a kernel that meets R215 and R216 (`ok` picks out the states it can be in, R214): in a
tick that fires every active stream's resampled block has exactly `BLOCK` samples, the whole folded block is consumed
on the way out, and every output finds room in its ring; and the kernel's states stay such.
R262, R218, for every kernel: where the rings can hold what every state that can arise needs and yields, host rates
among `rates`, a block fires within as many ticks as the larger ring has places, whatever the rings hold; a tick
leaves the resamplers in states that can arise, and power-on too, so the rate may change among `rates` in between.
Where a ring can not hold it, no block fires. -/
def Obligations.FiredBlockMeetsKernelContract : Prop :=
  (∀ (s : State) (ok : SrcState → Prop), s.P.src.CountLaws ok →
      (∀ i : Fin NC, ok (look s.insrc i) ∧ ok (look s.outsrc i)) →
      (fireTest (accumulate s) = true →
        let r := resampleIn (accumulate s)
        let f := foldOut (engine (fanIn (quantize r)))
        (∀ i : Fin NC, i.val < ninOf s.inch → (look r.blk.rs i).length = s.P.block) ∧
        (∀ i : Fin NC, i.val < noutOf s.outmode →
          let n := s.P.src.yld (look s.outsrc i) s.P.fsInt s.hostrate.toNat s.P.block
          let y := s.P.src.run (look s.outsrc i) s.P.fsInt s.hostrate.toNat (look f.blk.fold i) n
          (look f.blk.fold i).length = s.P.block ∧ y.consumed = s.P.block ∧ y.ys.length = n ∧
          look (resampleOut f).outbuf i = look s.outbuf i ++ y.ys)) ∧
      (∃ t : State, exec .tick s = .next t ∧ ∀ i : Fin NC, ok (look t.insrc i) ∧ ok (look t.outsrc i))) ∧
  (∀ (s : State) (rates : Nat → Prop), s.Inv → s.P.Supports rates → rates s.hostrate.toNat → s.hostrate ≠ 0 →
    (∀ i : Fin NC, s.P.InArises rates (look s.insrc i) ∧ s.P.OutArises rates (look s.outsrc i)) →
    (∃ n ≤ max s.P.inCap s.P.outCap, fireTest (accumulate (tick^[n] s)) = true) ∧
    (∃ t : State, exec .tick s = .next t ∧ t = tick s ∧
      ∀ i : Fin NC, s.P.InArises rates (look t.insrc i) ∧ s.P.OutArises rates (look t.outsrc i))) ∧
  (∀ (p : ParamSet) (rates : Nat → Prop) (i : Fin NC),
    p.params.InArises rates (look (State.powerOn p).insrc i) ∧ p.params.OutArises rates (look (State.powerOn p).outsrc i)) ∧
  (∀ s : State, s.Inv →
    (∃ i : Fin NC, (i.val < ninOf s.inch ∧ s.P.inCap < s.P.src.need (look s.insrc i) s.hostrate.toNat s.P.fsInt s.P.block) ∨
      (i.val < noutOf s.outmode ∧
        s.P.outCap < s.P.src.yld (look s.outsrc i) s.P.fsInt s.hostrate.toNat s.P.block)) →
    fireTest (accumulate s) = false)

/-- R187, in every numeric domain: the quantizer on a value whose scaled product is finite, and what `QUANTIZE`
writes. R241: an infinity quantizes to a bound; that a negative scale, which R8 allows, exchanges the bounds is the
model's choice (log entry 6). -/
def Obligations.QuantizerRule : Prop :=
  (∀ (P : Params) (v : F),
    let p := P.dom.times v P.inScale
    let hi := P.dom.itof P.qmax
    let lo := P.dom.itof P.qmin
    F.finite v = true → F.finite P.inScale = true → F.finite p = true →
    F.finite hi = true → F.finite lo = true →
    (F.val hi ≤ F.val p → quant P v = P.qmax) ∧
    (F.val p < F.val hi → F.val p ≤ F.val lo → quant P v = P.qmin) ∧
    (F.val p < F.val hi → F.val lo < F.val p →
      quant P v = if 0 ≤ F.val p then (F.val p).floor else (F.val p).ceil)) ∧
  (∀ P : Params, F.finite P.inScale = true →
    (0 < F.val P.inScale → quant P 0x7F800000 = P.qmax ∧ quant P 0xFF800000 = P.qmin) ∧
    (F.val P.inScale < 0 → quant P 0x7F800000 = P.qmin ∧ quant P 0xFF800000 = P.qmax)) ∧
  (∀ s : State,
    let t := quantize s
    t = { s with blk := { s.blk with xq := t.blk.xq } } ∧
    ∀ (i : Fin NC) (j : Nat) (v : F), i.val < ninOf s.inch → j < s.P.block → (look s.blk.rs i)[j]? = some v →
      (look t.blk.xq i)[j]? = some (quant s.P v))

/-- The quantizer's range (R187, R233), in every numeric domain and for every word a lane can hold; where the spec
leaves the value open (R241) that it stays in range is the model's choice (log entry 6). -/
def Obligations.QuantizedSamplesStayInRange : Prop :=
  ∀ (P : Params) (v : F), P.qmin ≤ P.qmax → |P.qmin| < 2 ^ 24 → |P.qmax| < 2 ^ 24 →
    P.qmin ≤ quant P v ∧ quant P v ≤ P.qmax

/-- R188: the three fan-in operations, and that they write nothing but the engine's input. -/
def Obligations.FanInOperations : Prop :=
  (∀ s : State, ∃ t : State, exec .fanin2 s = .next t ∧ t = { s with blk := { s.blk with xin := t.blk.xin } } ∧
    look t.blk.xin 0 = look s.blk.xq 0 ∧ look t.blk.xin 1 = look s.blk.xq 1 ∧
    look t.blk.xin 2 = look s.blk.xq 0 ∧ look t.blk.xin 3 = look s.blk.xq 1 ∧
    look t.blk.xin 4 = look s.blk.xq 0 ∧ look t.blk.xin 5 = look s.blk.xq 1) ∧
  (∀ s : State, ∃ t : State, exec .fanin3 s = .next t ∧ t = { s with blk := { s.blk with xin := t.blk.xin } } ∧
    ∀ (ch i : Fin NC), i.val = (s.P.fanin3 ch).val → look t.blk.xin ch = look s.blk.xq i) ∧
  (∀ s : State, ∃ t : State, exec .fanin6 s = .next t ∧ t = { s with blk := { s.blk with xin := t.blk.xin } } ∧
    ∀ ch : Fin NC, look t.blk.xin ch = look s.blk.xq ch) ∧
  (∀ ch : Fin NC, (tcfg.fanin3 ch).val = ch.val / 2)

/-- R190: the three fold operations, the order of the additions, and that they write nothing but the folded
streams. That the sum's shape and the zeros of `FOLD2` hold on non-finite values is the model's choice (R241, log entry
6). -/
def Obligations.FoldOperations : Prop :=
  ∀ (s : State) (o : Fin NC → Nat → F), (∀ ch i, i < s.P.block → (look s.out ch)[i]? = some (o ch i)) →
    let D := s.P.dom
    let sum (i : Nat) : F :=
      D.add (D.add (D.add (D.add (D.add (D.add 0x00000000 (o 0 i)) (o 1 i)) (o 2 i)) (o 3 i)) (o 4 i)) (o 5 i)
    let only (t : State) : Prop := t = { s with blk := { s.blk with fold := t.blk.fold } }
    (∃ t : State, exec .fold1 s = .next t ∧ only t ∧ (∀ k : Fin NC, 1 ≤ k.val → look t.blk.fold k = look s.blk.fold k) ∧
      (look t.blk.fold 0).length = s.P.block ∧ ∀ i, i < s.P.block → (look t.blk.fold 0)[i]? = some (sum i)) ∧
    (∃ t : State, exec .fold2 s = .next t ∧ only t ∧ (∀ k : Fin NC, 2 ≤ k.val → look t.blk.fold k = look s.blk.fold k) ∧
      (look t.blk.fold 0).length = s.P.block ∧ (look t.blk.fold 1).length = s.P.block ∧
      ∀ i, i < s.P.block →
        (look t.blk.fold 0)[i]? = some (if i % 2 = 0 then sum i else 0x00000000) ∧
        (look t.blk.fold 1)[i]? = some (if i % 2 = 1 then sum i else 0x00000000)) ∧
    (∃ t : State, exec .fold6 s = .next t ∧ only t ∧ ∀ ch : Fin NC, look t.blk.fold ch = look s.out ch)

/-- R196 (b): at every position one stream of mode "2" is 0.0 and the other has the value of mode "1"'s stream;
in the reference domain, where that value is finite, the two add up to it. That the zeros stand, and that both modes
have the same sample, where the sum is not finite (R241) is the model's choice (log entry 6). -/
def Obligations.ModeTwoStreamsAreDisjoint : Prop :=
  ∀ s t u : State, exec .fold1 s = .next t → exec .fold2 s = .next u → ∀ i, i < s.P.block →
    ∃ m a b : F, (look t.blk.fold 0)[i]? = some m ∧ (look u.blk.fold 0)[i]? = some a ∧
      (look u.blk.fold 1)[i]? = some b ∧
      ((a = 0x00000000 ∧ b = m) ∨ (a = m ∧ b = 0x00000000)) ∧
      (s.P.dom = Domain.binary32 → F.finite m = true → F.val (s.P.dom.add a b) = F.val m)

/-- R196 (a): one connected input, from equal rings and resamplers of the two streams, keeps them equal and, if
a block fires, gives all six channels the same samples; three connected inputs give the channels fed by one
stream the same samples. That two streams quantize a non-finite sample alike (R241) is the model's choice (log entry
6). -/
def Obligations.FanOutKeepsDuplicatesEqual : Prop :=
  (∀ s : State, s.inch = 1 → look s.inbuf 0 = look s.inbuf 1 → look s.insrc 0 = look s.insrc 1 →
    (∃ t : State, exec .tick s = .next t ∧ look t.inbuf 0 = look t.inbuf 1 ∧ look t.insrc 0 = look t.insrc 1) ∧
    ∀ ch d : Fin NC, look (fanIn (quantize (resampleIn (accumulate s)))).blk.xin ch =
      look (fanIn (quantize (resampleIn (accumulate s)))).blk.xin d) ∧
  (∀ s : State, s.inch = 3 → ∀ ch d : Fin NC, s.P.fanin3 ch = s.P.fanin3 d →
    look (fanIn (quantize (resampleIn (accumulate s)))).blk.xin ch =
      look (fanIn (quantize (resampleIn (accumulate s)))).blk.xin d)

/-- R192: the drain, one frame of each active ring that holds one. That a non-finite frame is scaled like any other is
the model's choice (R241, log entry 6). -/
def Obligations.DrainDeliversOneFrame : Prop :=
  ∀ s : State,
    let t := drain s
    t = { s with outbuf := t.outbuf, outvalid := t.outvalid, outlane := t.outlane } ∧
    ∀ i : Fin NC,
      (i.val < noutOf s.outmode → ∀ v rest, look s.outbuf i = v :: rest →
        look t.outbuf i = rest ∧ look t.outvalid i = true ∧ look t.outlane i = s.P.dom.mul v s.P.outScale) ∧
      (noutOf s.outmode ≤ i.val ∨ look s.outbuf i = [] →
        look t.outbuf i = look s.outbuf i ∧ look t.outvalid i = false ∧ look t.outlane i = look s.outlane i)

/-- R197: a tick, fired or not, does not touch the rings, resamplers and lanes of inactive streams. -/
def Obligations.InactiveStreamsAreUntouched : Prop :=
  ∀ s : State, ∃ t : State, exec .tick s = .next t ∧ ∀ i : Fin NC,
    (ninOf s.inch ≤ i.val → look t.inbuf i = look s.inbuf i ∧ look t.insrc i = look s.insrc i) ∧
    (noutOf s.outmode ≤ i.val → look t.outbuf i = look s.outbuf i ∧ look t.outsrc i = look s.outsrc i ∧
      look t.outlane i = look s.outlane i)

/-! ## The resampler -/

/-- R215, R216, R217 of the reference kernel, in every numeric domain: the count laws, streaming, and the equal-rate
identity. R262 of it at a constant ratio `r` of host rate to internal rate: the bounds on the position of an input and
of an output resampler, on what a block of `n` samples needs, and on what it yields. -/
def Obligations.RefLinearMeetsContract : Prop :=
  (∀ D : Domain, (RefLinear.kernel D).Contract) ∧
  (∀ (D : Domain) (hr fs n : Nat), 0 < hr → 0 < fs → 0 < n →
      let r : Rat := (hr : Rat) / fs
      (∀ st, (RefLinear.kernel D).Arises (fun _ rin rout _ _ => rin = hr ∧ rout = fs) st →
        0 < st.t ∧ st.t ≤ max 1 r ∧
        ((RefLinear.need st hr fs n : Int) ≤ (max 1 r + ((n : Rat) - 1) * r).ceil)) ∧
      (∀ st, (RefLinear.kernel D).Arises (fun _ rin rout _ _ => rin = fs ∧ rout = hr) st →
        0 < st.t ∧ st.t ≤ max 1 (1 / r) ∧ ((RefLinear.yld st fs hr n : Int) ≤ ((n : Rat) * r).floor + 1)))

/-- R222: the worked behaviour, and that up by two and down by two returns every sequence bit for bit, in every
numeric domain; the interpolated values of the worked upsampling in the reference domain. -/
def Obligations.RefLinearRoundTripIsExact : Prop :=
  (∀ (D : Domain) (r : Nat) (xs : List F), 0 < r →
    (RefLinear.run D (RefLinear.kernel D).init (2 * r) r
      (RefLinear.run D (RefLinear.kernel D).init r (2 * r) xs (2 * xs.length)).ys xs.length).ys = xs) ∧
  (∀ (D : Domain) (r n : Nat) (xs : List F), 0 < r →
    (RefLinear.run D (RefLinear.kernel D).init r r xs n).ys = xs.take n) ∧
  (let R := RefLinear.run Domain.binary32 (RefLinear.kernel Domain.binary32).init
   R 48000 96000 [F.ofInt 8, F.ofInt (-4), F.ofInt 0] 4 =
     ⟨⟨1, [F.ofInt (-4)]⟩, 2, [F.ofInt 8, F.ofInt 2, F.ofInt (-4), F.ofInt (-2)]⟩ ∧
   (R 96000 48000 [F.ofInt 1, F.ofInt 2, F.ofInt 3, F.ofInt 4] 2).ys = [F.ofInt 1, F.ofInt 3] ∧
   (R 96000 48000 [F.ofInt 1, F.ofInt 2, F.ofInt 3, F.ofInt 4] 2).consumed = 4)

/-- The spec's test configuration meets the constraints of R8, and those of R262 while the host rate stays, changing as
it may, between 1 and twice the internal one (95_test_vectors.md section 1; 92_eei_decisions.md Part 2); the kernel's
part is `RefLinearMeetsContract`. The clauses that `Params.Valid` marks are the model's and not the spec's words: that
QMIN is not above QMAX (DESIGN CHOICE), that both fit QBITS bits and FS_INT a U32, that thresholds and clip level are
finite, where a lookup is monotonic or finite (DEDUCED, log entry 3), and what R10 asks of a domain (DEDUCED, log
entry 5). -/
def Obligations.TestConfigurationIsValid : Prop := Sys2Proof.tcfg.Valid fun hr => 0 < hr ∧ hr ≤ 192000

/-! ## The numeric domain -/

/-- R10, the reference domain: an exact result is rounded to a nearest finite value, and a tie goes to the even
significand. -/
def Obligations.RoundingIsToNearestEven : Prop :=
  ∀ (q : Rat) (c : F), F.finite (F.ofRat q) = true → F.finite c = true →
    |F.val (F.ofRat q) - q| ≤ |F.val c - q| ∧
    (|F.val (F.ofRat q) - q| = |F.val c - q| → F.val c ≠ F.val (F.ofRat q) → (F.ofRat q).getLsbD 0 = false)

/-- R10, R11. The reference domain: each operation on finite values is the exact result rounded once, and a finite
value rounds to itself. Every domain: comparisons are those of the values, `itof` is exact below 2^24, `trunc` goes
toward zero. -/
def Obligations.OperationsRoundExactResultOnce : Prop :=
  let A := Domain.binary32
  (∀ a b : F, F.finite a = true → F.finite b = true →
    (F.finite (F.ofRat (F.val a + F.val b)) = true → F.val (A.add a b) = F.val (F.ofRat (F.val a + F.val b))) ∧
    (F.finite (F.ofRat (F.val a - F.val b)) = true → F.val (A.sub a b) = F.val (F.ofRat (F.val a - F.val b))) ∧
    (F.finite (F.ofRat (F.val a * F.val b)) = true → F.val (A.mul a b) = F.val (F.ofRat (F.val a * F.val b))) ∧
    (F.val b ≠ 0 → F.finite (F.ofRat (F.val a / F.val b)) = true →
      F.val (A.div a b) = F.val (F.ofRat (F.val a / F.val b))) ∧
    (F.lt a b = true ↔ F.val a < F.val b) ∧ (F.eq a b = true ↔ F.val a = F.val b) ∧
    (F.ge a b = true ↔ F.val b ≤ F.val a) ∧ F.min a b = (if F.val b < F.val a then b else a)) ∧
  (∀ a : F, F.finite a = true → F.val (F.ofRat (F.val a)) = F.val a ∧ F.val (F.abs a) = |F.val a|) ∧
  (∀ (D : Domain) (n : Int), |n| < 2 ^ 24 → F.finite (D.itof n) = true ∧ F.val (D.itof n) = (n : Rat)) ∧
  (∀ a : F, F.finite a = true → F.trunc a = if 0 ≤ F.val a then (F.val a).floor else (F.val a).ceil)

/-! ## Invariants and power-on -/

/-- R250: what power-on leaves. `HOSTRATE` is `FS_INT` where a U32 holds it; that it is the low 32 bits of a larger one
is the model's choice (log entry 3). The list `host`, the words at the interface, the empty buffers and the draw
counter are the model's own (log entries 1, 7, 10). -/
def Obligations.PowerOnState : Prop :=
  ∀ p : ParamSet,
    let s := State.powerOn p
    s.algsel = 0 ∧ s.algChanged = false ∧ s.uscaleChanged = false ∧ s.glide = false ∧ s.fscale = 0x3F800000 ∧
    s.qglobal = 0x00000000 ∧ (s.P.fsInt < 2 ^ 32 → s.hostrate.toNat = s.P.fsInt) ∧
    s.hostrate = BitVec.ofNat 32 s.P.fsInt ∧ s.inch = 0 ∧ s.outmode = 0 ∧
    s.clip = false ∧ s.fired = false ∧
    (∀ ch : Fin NC, look s.chan ch =
      { note := 0, scale := 0, bank := 0, fadeNote := 0, fadeScale := 0, lock := false, qlock := false,
        q := 0x00000000, morph := 0x00000000, nudge := 0x3F800000, shift := 0x3F800000, level := 0x3F800000 }) ∧
    (∀ ch : Fin NC, look s.indrop ch = false ∧ look s.outvalid ch = false ∧ look s.env ch = 0x00000000 ∧
      look s.pitch ch = 0x00000000 ∧ look s.chlevel ch = 0x00000000 ∧ look s.outlane ch = 0x00000000 ∧
      look s.prevbank ch = 0 ∧ look s.inbuf ch = [] ∧ look s.outbuf ch = [] ∧
      look s.insrc ch = s.P.src.init ∧ look s.outsrc ch = s.P.src.init ∧
      (look s.out ch).length = s.P.block ∧ ∀ v ∈ look s.out ch, v = 0x00000000) ∧
    (∀ k : Fin 18, look s.inlane k = 0x00000000) ∧
    (∀ k : Nat, s.ha.read k = 0x00000000 ∧ s.hb.read k = 0x00000000 ∧ s.usStage.read k = 0x00000000 ∧
      s.usActive.read k = 0x00000000) ∧
    State.reset = State.powerOn .product

/-- The invariant holds after power-on. -/
def Obligations.PowerOnMeetsInvariant : Prop := ∀ p : ParamSet, (State.powerOn p).Inv

/-- The invariant is kept by every step, whatever the host issues: canonical memories inside their spaces, no
ring above its capacity (R213), `PREVBANK` a bank index (R29), `OUT` of full length (R33). -/
def Obligations.EveryStepKeepsInvariant : Prop := ∀ s t : State, s.Inv → step s = .next t → t.Inv

end
end

