-- ==== Sys2Proof/Laws/Float.lean ====
section
/-! SUPPORT. The operations on the numeric domain: what each is on finite operands, and the frequency coefficient
and the quantizer case by case, once. -/

namespace Sys2Proof

namespace F

variable {a b : F}

/-- The comparisons of finite words are those of their values (00_scope.md R10). -/
theorem lt_iff (ha : finite a = true) (hb : finite b = true) : lt a b = true ↔ val a < val b := by
  simp [lt, ha, hb]
theorem eq_iff (ha : finite a = true) (hb : finite b = true) : eq a b = true ↔ val a = val b := by
  simp [eq, ha, hb]
theorem ge_iff (ha : finite a = true) (hb : finite b = true) : ge a b = true ↔ val b ≤ val a := by
  rw [ge, Bool.or_eq_true, lt_iff hb ha, eq_iff ha hb, le_iff_lt_or_eq]
  exact or_congr_right eq_comm

end F

namespace Domain

variable (D : Domain) {a b : F}

/-- `+`, `-`, `*`, `/` are the domain's own where operands and result are finite. -/
theorem add_of_finite (ha : F.finite a = true) (hb : F.finite b = true) (h : F.finite (D.plus a b) = true) :
    D.add a b = D.plus a b := by simp [add, F.closed, ha, hb, h]
theorem sub_of_finite (ha : F.finite a = true) (hb : F.finite b = true) (h : F.finite (D.minus a b) = true) :
    D.sub a b = D.minus a b := by simp [sub, F.closed, ha, hb, h]
theorem mul_of_finite (ha : F.finite a = true) (hb : F.finite b = true) (h : F.finite (D.times a b) = true) :
    D.mul a b = D.times a b := by simp [mul, F.closed, ha, hb, h]
theorem div_of_finite (ha : F.finite a = true) (hb : F.finite b = true) (h : F.finite (D.quot a b) = true) :
    D.div a b = D.quot a b := by simp [div, F.closed, ha, hb, h]


/-- The extended product of finite words is the domain's product. -/
theorem mulExt_of_finite (ha : F.finite a = true) (hb : F.finite b = true) : D.mulExt a b = D.times a b := by
  have ha' : F.isNaN a = false := by simp_all [F.isNaN, F.finite]
  have hb' : F.isNaN b = false := by simp_all [F.isNaN, F.finite]
  simp [mulExt, ha, hb, ha', hb']

/-- The extended product of an infinity and a finite word of value not 0 is the infinity of the sign of the product. -/
theorem mulExt_posInf (hb : F.finite b = true) (h0 : F.mag b ≠ 0) :
    D.mulExt F.posInf b = if F.neg b then F.negInf else F.posInf := by
  have hb' : F.isNaN b = false := by simp_all [F.isNaN, F.finite]
  have e : F.isNaN F.posInf = false ∧ F.finite F.posInf = false ∧ F.neg F.posInf = false := by decide
  simp [mulExt, hb, hb', e, h0]
theorem mulExt_negInf (hb : F.finite b = true) (h0 : F.mag b ≠ 0) :
    D.mulExt F.negInf b = if F.neg b then F.posInf else F.negInf := by
  have hb' : F.isNaN b = false := by simp_all [F.isNaN, F.finite]
  have e : F.isNaN F.negInf = false ∧ F.finite F.negInf = false ∧ F.neg F.negInf = true := by decide
  cases h : F.neg b <;> simp [mulExt, hb, hb', e, h0, h]

/-- `itof` below 2^24 is the same in every domain, and in the reference one function throughout. -/
theorem itof_of_small {n : Int} (h : n.natAbs < 2 ^ 24) : D.itof n = F.ofInt n := if_pos h
theorem itof_binary32 (n : Int) : binary32.itof n = F.ofInt n := by
  unfold itof; split <;> rfl

end Domain

namespace Machine

/-- The frequency coefficient by its product (41_twopass.md R133, R241). -/
theorem trimmedCoef_cases (D : Domain) (coef nudge shift fscale : F) :
    let p := D.mulExt (D.mulExt (D.mulExt coef nudge) shift) fscale
    (p = F.posInf ∧ trimmedCoef D coef nudge shift fscale = Const.c1Max) ∨
    (p ≠ F.posInf ∧ F.finite p = true ∧
      trimmedCoef D coef nudge shift fscale = if F.lt Const.c1Max p then Const.c1Max else p) ∨
    (p ≠ F.posInf ∧ F.finite p = false ∧
      trimmedCoef D coef nudge shift fscale = Config.openFreqCoef coef nudge shift fscale) := by
  intro p
  unfold trimmedCoef
  by_cases h : p = F.posInf
  · exact .inl ⟨h, if_pos h⟩
  · cases hf : F.finite p
    · exact .inr (.inr ⟨h, rfl, by rw [if_neg h]; exact if_neg (by simp [p] at hf; simp [hf])⟩)
    · exact .inr (.inl ⟨h, rfl, by rw [if_neg h]; exact if_pos hf⟩)

/-- The channels, written out. -/
theorem channels_eq : channels = [0, 1, 2, 3, 4, 5] := rfl

end Machine

end Sys2Proof
end

