-- ==== Sys2Proof/Laws/Memory.lean ====
section
/-! SUPPORT. The element-addressed storage: read after write, and that every operation keeps the canonical form
and the key bound. -/

namespace Sys2Proof.Machine.Memory

/-! ## The canonical form -/

theorem wfFrom_mono {m : Memory} {a b : Nat} (hab : a ≤ b) (h : wfFrom b m = true) : wfFrom a m = true := by
  cases m with
  | nil => rfl
  | cons c m =>
    simp only [wfFrom, Bool.and_eq_true, decide_eq_true_eq] at h ⊢
    exact ⟨⟨by omega, h.1.2⟩, h.2⟩

/-- Below its lowest key a canonical memory reads the unlisted value. -/
theorem read_lt {m : Memory} {low k : Nat} (h : wfFrom low m = true) (hk : k < low) : m.read k = unlisted := by
  cases m with
  | nil => rfl
  | cons c m =>
    simp only [wfFrom, Bool.and_eq_true, decide_eq_true_eq] at h
    simp only [read]
    rw [if_neg (by omega), if_pos (by omega)]

theorem wfFrom_cons {m : Memory} {low k : Nat} (v : F) (hlow : low ≤ k) (h : wfFrom (k + 1) m = true) :
    wfFrom low (cons k v m) = true := by
  unfold cons
  split
  · exact wfFrom_mono (by omega) h
  · simp_all [wfFrom]

theorem wfFrom_write {m : Memory} {low k : Nat} (v : F) (hlow : low ≤ k) (h : wfFrom low m = true) :
    wfFrom low (m.write k v) = true := by
  induction m generalizing low with
  | nil => exact wfFrom_cons v hlow rfl
  | cons c m ih =>
    simp only [wfFrom, Bool.and_eq_true, decide_eq_true_eq] at h
    simp only [write]
    split
    · simp only [wfFrom, Bool.and_eq_true, decide_eq_true_eq]
      exact ⟨h.1, ih (by omega) h.2⟩
    · split
      · exact wfFrom_cons v hlow (wfFrom_mono (by omega) h.2)
      · refine wfFrom_cons v hlow ?_
        simp only [wfFrom, Bool.and_eq_true, decide_eq_true_eq]
        exact ⟨⟨by omega, h.1.2⟩, h.2⟩

/-- A write keeps the canonical form. -/
theorem wf_write {m : Memory} (k : Nat) (v : F) (h : m.wf = true) : (m.write k v).wf = true :=
  wfFrom_write v (Nat.zero_le k) h

theorem wfFrom_filter {m : Memory} {low : Nat} (p : Nat × F → Bool) (h : wfFrom low m = true) :
    wfFrom low (List.filter p m) = true := by
  induction m generalizing low with
  | nil => rfl
  | cons c m ih =>
    simp only [wfFrom, Bool.and_eq_true, decide_eq_true_eq] at h
    rw [List.filter_cons]
    split
    · simp only [wfFrom, Bool.and_eq_true, decide_eq_true_eq]
      exact ⟨h.1, ih h.2⟩
    · exact wfFrom_mono (by omega) (ih h.2)

/-- A range-clear keeps the canonical form. -/
theorem wf_clear {m : Memory} (lo hi : Nat) (h : m.wf = true) : (m.clear lo hi).wf = true :=
  wfFrom_filter _ h

@[simp] theorem wf_nil : wf [] = true := rfl

/-! ## Reads -/

theorem read_cons_same {m : Memory} {low k : Nat} (v : F) (hlow : k < low) (h : wfFrom low m = true) :
    (cons k v m).read k = v := by
  unfold cons
  split
  · next hv => rw [read_lt h hlow, hv]
  · simp [read]

theorem read_cons_ne {m : Memory} {low k j : Nat} (v : F) (hlow : k < low) (h : wfFrom low m = true)
    (hj : j ≠ k) : (cons k v m).read j = m.read j := by
  unfold cons
  split
  · rfl
  · simp only [read]
    rw [if_neg (Ne.symm hj)]
    split
    · exact (read_lt h (by omega)).symm
    · rfl

theorem read_write_same' {m : Memory} {low k : Nat} (v : F) (h : wfFrom low m = true) :
    (m.write k v).read k = v := by
  induction m generalizing low with
  | nil => exact read_cons_same (low := k + 1) v (Nat.lt_succ_self k) rfl
  | cons c m ih =>
    simp only [wfFrom, Bool.and_eq_true, decide_eq_true_eq] at h
    simp only [write]
    split
    · next hlt => simp only [read]; rw [if_neg (by omega), if_neg (by omega)]; exact ih h.2
    · split
      · next he => exact read_cons_same (low := c.1 + 1) v (by omega) h.2
      · refine read_cons_same (low := c.1) v (by omega) ?_
        simp only [wfFrom, Bool.and_eq_true, decide_eq_true_eq]
        exact ⟨⟨le_refl _, h.1.2⟩, h.2⟩

theorem read_write_ne' {m : Memory} {low k j : Nat} (v : F) (h : wfFrom low m = true) (hj : j ≠ k) :
    (m.write k v).read j = m.read j := by
  induction m generalizing low with
  | nil => exact read_cons_ne (low := k + 1) v (Nat.lt_succ_self k) rfl hj
  | cons c m ih =>
    simp only [wfFrom, Bool.and_eq_true, decide_eq_true_eq] at h
    simp only [write]
    split
    · simp only [read]; rw [ih h.2]
    · split
      · next he =>
        rw [read_cons_ne (low := c.1 + 1) v (by omega) h.2 hj]
        simp only [read]
        rw [if_neg (by omega)]
        split
        · exact read_lt h.2 (by omega)
        · rfl
      · refine read_cons_ne (low := c.1) v (by omega) ?_ hj
        simp only [wfFrom, Bool.and_eq_true, decide_eq_true_eq]
        exact ⟨⟨le_refl _, h.1.2⟩, h.2⟩

/-- A read after a write to the same element gives the value written. -/
theorem read_write_same {m : Memory} (h : m.wf = true) (k : Nat) (v : F) : (m.write k v).read k = v :=
  read_write_same' v h

/-- A write leaves every other element alone. -/
theorem read_write_ne {m : Memory} (h : m.wf = true) {k j : Nat} (hj : j ≠ k) (v : F) :
    (m.write k v).read j = m.read j :=
  read_write_ne' v h hj

theorem read_clear' {m : Memory} {low : Nat} (lo hi j : Nat) (h : wfFrom low m = true) :
    (m.clear lo hi).read j = if lo ≤ j ∧ j < hi then unlisted else m.read j := by
  induction m generalizing low with
  | nil => simp [clear, read]
  | cons c m ih =>
    simp only [wfFrom, Bool.and_eq_true, decide_eq_true_eq] at h
    have ih' := ih h.2
    simp only [clear] at ih' ⊢
    rw [List.filter_cons]
    split
    · next hk =>
      simp only [Bool.or_eq_true, decide_eq_true_eq] at hk
      simp only [read]
      rw [ih']
      by_cases h1 : c.1 = j
      · rw [if_pos h1, if_pos h1, if_neg (by omega)]
      · rw [if_neg h1, if_neg h1]
        by_cases h2 : j < c.1
        · rw [if_pos h2, if_pos h2]; split <;> rfl
        · rw [if_neg h2, if_neg h2]
    · next hk =>
      simp only [Bool.or_eq_true, decide_eq_true_eq, not_or, not_lt, not_le] at hk
      rw [ih']
      simp only [read]
      by_cases h1 : c.1 = j
      · rw [if_pos (by omega), if_pos (by omega)]
      · rw [if_neg h1]
        by_cases h2 : j < c.1
        · rw [if_pos h2, read_lt h.2 (by omega)]
        · rw [if_neg h2]

/-- A range-clear sets the range to the unlisted value and leaves the rest alone. -/
theorem read_clear {m : Memory} (h : m.wf = true) (lo hi j : Nat) :
    (m.clear lo hi).read j = if lo ≤ j ∧ j < hi then unlisted else m.read j :=
  read_clear' lo hi j h

/-! ## Equal memories are equal data -/

theorem wfFrom_tail {k : Nat} {v : F} {m : Memory} {low : Nat} (h : wfFrom low ((k, v) :: m) = true) :
    wfFrom (k + 1) m = true := by
  simp only [wfFrom, Bool.and_eq_true] at h
  exact h.2

theorem ext' {m w : Memory} {a b : Nat} (hm : wfFrom a m = true) (hw : wfFrom b w = true)
    (h : ∀ k, m.read k = w.read k) : m = w := by
  induction m generalizing w a b with
  | nil =>
    cases w with
    | nil => rfl
    | cons c w =>
      simp only [wfFrom, Bool.and_eq_true, bne_iff_ne] at hw
      have := h c.1
      simp only [read, if_pos] at this
      exact absurd this.symm hw.1.2
  | cons c m ih =>
    cases w with
    | nil =>
      simp only [wfFrom, Bool.and_eq_true, bne_iff_ne] at hm
      have := h c.1
      simp only [read, if_pos] at this
      exact absurd this hm.1.2
    | cons d w =>
      have hm' := hm
      have hw' := hw
      simp only [wfFrom, Bool.and_eq_true, bne_iff_ne] at hm' hw'
      have hkey : c.1 = d.1 := by
        by_contra hne
        rcases Nat.lt_or_gt_of_ne hne with hlt | hgt
        · have := h c.1
          simp only [read, if_pos] at this
          rw [if_neg (by omega), if_pos hlt] at this
          exact hm'.1.2 this
        · have := h d.1
          simp only [read, if_pos] at this
          rw [if_neg hne, if_pos hgt] at this
          exact hw'.1.2 this.symm
      have hval : c.2 = d.2 := by
        have := h c.1
        simp only [read, if_pos] at this
        rwa [if_pos hkey.symm] at this
      have htail : m = w := by
        refine ih hm'.2 hw'.2 fun k => ?_
        by_cases hk : k ≤ c.1
        · rw [read_lt hm'.2 (by omega), read_lt hw'.2 (by omega)]
        · have := h k
          simp only [read] at this
          rwa [if_neg (by omega), if_neg (by omega), if_neg (by omega), if_neg (by omega)] at this
      rw [htail, Prod.ext hkey hval]

/-- Canonical memories that read alike are the same data. -/
theorem ext {m w : Memory} (hm : m.wf = true) (hw : w.wf = true) (h : ∀ k, m.read k = w.read k) : m = w :=
  ext' hm hw h

/-- Writes to different elements commute. -/
theorem write_comm {m : Memory} (h : m.wf = true) {j k : Nat} (hjk : j ≠ k) (v w : F) :
    (m.write j v).write k w = (m.write k w).write j v := by
  refine ext (wf_write _ _ (wf_write _ _ h)) (wf_write _ _ (wf_write _ _ h)) fun i => ?_
  by_cases hk : i = k
  · subst hk
    rw [read_write_same (wf_write _ _ h), read_write_ne (wf_write _ _ h) (Ne.symm hjk), read_write_same h]
  · by_cases hj : i = j
    · subst hj
      rw [read_write_ne (wf_write _ _ h) hk, read_write_same h, read_write_same (wf_write _ _ h)]
    · rw [read_write_ne (wf_write _ _ h) hk, read_write_ne h hj, read_write_ne (wf_write _ _ h) hj,
        read_write_ne h hk]

/-! ## The key bound -/

theorem below_cell (c : Nat × F) (m : Memory) (bound : Nat) :
    below bound (c :: m) = true ↔ c.1 < bound ∧ below bound m = true := by
  unfold below
  rw [List.all_cons, Bool.and_eq_true, decide_eq_true_eq]

theorem below_cons {m : Memory} {bound k : Nat} (v : F) (hk : k < bound) (h : m.below bound = true) :
    (cons k v m).below bound = true := by
  unfold cons
  split
  · exact h
  · exact (below_cell _ _ _).2 ⟨hk, h⟩

/-- A write inside the space keeps every key inside it. -/
theorem below_write {m : Memory} {bound k : Nat} (v : F) (hk : k < bound) (h : m.below bound = true) :
    (m.write k v).below bound = true := by
  induction m with
  | nil => exact below_cons v hk rfl
  | cons c m ih =>
    have hc := (below_cell _ _ _).1 h
    simp only [write]
    split
    · exact (below_cell _ _ _).2 ⟨hc.1, ih hc.2⟩
    · split
      · exact below_cons v hk hc.2
      · exact below_cons v hk h

/-- A range-clear keeps every key inside the space. -/
theorem below_clear {m : Memory} {bound : Nat} (lo hi : Nat) (h : m.below bound = true) :
    (m.clear lo hi).below bound = true := by
  simp only [below, clear, List.all_eq_true] at h ⊢
  exact fun c hc => h c (List.mem_of_mem_filter hc)

end Sys2Proof.Machine.Memory
end

