-- ==== Sys2Proof/Laws/State.lean ====
section
/-! SUPPORT. One lemma per field of State per update, and what the updates leave of the parameters. -/

namespace Sys2Proof.Machine

@[simp] theorem ret_host (s : State) (r : Word) : (s.ret r).host = s.host := rfl
@[simp] theorem ret_probe (s : State) (r : Word) : (s.ret r).probe = s.probe := rfl
@[simp] theorem ret_wdata (s : State) (r : Word) : (s.ret r).wdata = s.wdata := rfl
@[simp] theorem ret_rdata (s : State) (r : Word) : (s.ret r).rdata = r := rfl
@[simp] theorem ret_algsel (s : State) (r : Word) : (s.ret r).algsel = s.algsel := rfl
@[simp] theorem ret_glide (s : State) (r : Word) : (s.ret r).glide = s.glide := rfl
@[simp] theorem ret_fscale (s : State) (r : Word) : (s.ret r).fscale = s.fscale := rfl
@[simp] theorem ret_qglobal (s : State) (r : Word) : (s.ret r).qglobal = s.qglobal := rfl
@[simp] theorem ret_hostrate (s : State) (r : Word) : (s.ret r).hostrate = s.hostrate := rfl
@[simp] theorem ret_inch (s : State) (r : Word) : (s.ret r).inch = s.inch := rfl
@[simp] theorem ret_outmode (s : State) (r : Word) : (s.ret r).outmode = s.outmode := rfl
@[simp] theorem ret_algChanged (s : State) (r : Word) : (s.ret r).algChanged = s.algChanged := rfl
@[simp] theorem ret_uscaleChanged (s : State) (r : Word) : (s.ret r).uscaleChanged = s.uscaleChanged := rfl
@[simp] theorem ret_clip (s : State) (r : Word) : (s.ret r).clip = s.clip := rfl
@[simp] theorem ret_fired (s : State) (r : Word) : (s.ret r).fired = s.fired := rfl
@[simp] theorem ret_indrop (s : State) (r : Word) : (s.ret r).indrop = s.indrop := rfl
@[simp] theorem ret_outvalid (s : State) (r : Word) : (s.ret r).outvalid = s.outvalid := rfl
@[simp] theorem ret_chan (s : State) (r : Word) : (s.ret r).chan = s.chan := rfl
@[simp] theorem ret_env (s : State) (r : Word) : (s.ret r).env = s.env := rfl
@[simp] theorem ret_pitch (s : State) (r : Word) : (s.ret r).pitch = s.pitch := rfl
@[simp] theorem ret_chlevel (s : State) (r : Word) : (s.ret r).chlevel = s.chlevel := rfl
@[simp] theorem ret_inlane (s : State) (r : Word) : (s.ret r).inlane = s.inlane := rfl
@[simp] theorem ret_outlane (s : State) (r : Word) : (s.ret r).outlane = s.outlane := rfl
@[simp] theorem ret_ha (s : State) (r : Word) : (s.ret r).ha = s.ha := rfl
@[simp] theorem ret_hb (s : State) (r : Word) : (s.ret r).hb = s.hb := rfl
@[simp] theorem ret_prevbank (s : State) (r : Word) : (s.ret r).prevbank = s.prevbank := rfl
@[simp] theorem ret_usStage (s : State) (r : Word) : (s.ret r).usStage = s.usStage := rfl
@[simp] theorem ret_usActive (s : State) (r : Word) : (s.ret r).usActive = s.usActive := rfl
@[simp] theorem ret_inbuf (s : State) (r : Word) : (s.ret r).inbuf = s.inbuf := rfl
@[simp] theorem ret_outbuf (s : State) (r : Word) : (s.ret r).outbuf = s.outbuf := rfl
@[simp] theorem ret_insrc (s : State) (r : Word) : (s.ret r).insrc = s.insrc := rfl
@[simp] theorem ret_outsrc (s : State) (r : Word) : (s.ret r).outsrc = s.outsrc := rfl
@[simp] theorem ret_out (s : State) (r : Word) : (s.ret r).out = s.out := rfl
@[simp] theorem ret_blk (s : State) (r : Word) : (s.ret r).blk = s.blk := rfl
@[simp] theorem ret_draws (s : State) (r : Word) : (s.ret r).draws = s.draws := rfl
@[simp] theorem ret_params (s : State) (r : Word) : (s.ret r).params = s.params := rfl
@[simp] theorem ret_P (s : State) (r : Word) : (s.ret r).P = s.P := rfl

@[simp] theorem setChan_host (s : State) (ch : Fin NC) (c : Chan) : (s.setChan ch c).host = s.host := rfl
@[simp] theorem setChan_probe (s : State) (ch : Fin NC) (c : Chan) : (s.setChan ch c).probe = s.probe := rfl
@[simp] theorem setChan_wdata (s : State) (ch : Fin NC) (c : Chan) : (s.setChan ch c).wdata = s.wdata := rfl
@[simp] theorem setChan_rdata (s : State) (ch : Fin NC) (c : Chan) : (s.setChan ch c).rdata = s.rdata := rfl
@[simp] theorem setChan_algsel (s : State) (ch : Fin NC) (c : Chan) : (s.setChan ch c).algsel = s.algsel := rfl
@[simp] theorem setChan_glide (s : State) (ch : Fin NC) (c : Chan) : (s.setChan ch c).glide = s.glide := rfl
@[simp] theorem setChan_fscale (s : State) (ch : Fin NC) (c : Chan) : (s.setChan ch c).fscale = s.fscale := rfl
@[simp] theorem setChan_qglobal (s : State) (ch : Fin NC) (c : Chan) : (s.setChan ch c).qglobal = s.qglobal := rfl
@[simp] theorem setChan_hostrate (s : State) (ch : Fin NC) (c : Chan) : (s.setChan ch c).hostrate = s.hostrate := rfl
@[simp] theorem setChan_inch (s : State) (ch : Fin NC) (c : Chan) : (s.setChan ch c).inch = s.inch := rfl
@[simp] theorem setChan_outmode (s : State) (ch : Fin NC) (c : Chan) : (s.setChan ch c).outmode = s.outmode := rfl
@[simp] theorem setChan_algChanged (s : State) (ch : Fin NC) (c : Chan) : (s.setChan ch c).algChanged = s.algChanged := rfl
@[simp] theorem setChan_uscaleChanged (s : State) (ch : Fin NC) (c : Chan) : (s.setChan ch c).uscaleChanged = s.uscaleChanged := rfl
@[simp] theorem setChan_clip (s : State) (ch : Fin NC) (c : Chan) : (s.setChan ch c).clip = s.clip := rfl
@[simp] theorem setChan_fired (s : State) (ch : Fin NC) (c : Chan) : (s.setChan ch c).fired = s.fired := rfl
@[simp] theorem setChan_indrop (s : State) (ch : Fin NC) (c : Chan) : (s.setChan ch c).indrop = s.indrop := rfl
@[simp] theorem setChan_outvalid (s : State) (ch : Fin NC) (c : Chan) : (s.setChan ch c).outvalid = s.outvalid := rfl
@[simp] theorem setChan_chan (s : State) (ch : Fin NC) (c : Chan) : (s.setChan ch c).chan = upd s.chan ch c := rfl
@[simp] theorem setChan_env (s : State) (ch : Fin NC) (c : Chan) : (s.setChan ch c).env = s.env := rfl
@[simp] theorem setChan_pitch (s : State) (ch : Fin NC) (c : Chan) : (s.setChan ch c).pitch = s.pitch := rfl
@[simp] theorem setChan_chlevel (s : State) (ch : Fin NC) (c : Chan) : (s.setChan ch c).chlevel = s.chlevel := rfl
@[simp] theorem setChan_inlane (s : State) (ch : Fin NC) (c : Chan) : (s.setChan ch c).inlane = s.inlane := rfl
@[simp] theorem setChan_outlane (s : State) (ch : Fin NC) (c : Chan) : (s.setChan ch c).outlane = s.outlane := rfl
@[simp] theorem setChan_ha (s : State) (ch : Fin NC) (c : Chan) : (s.setChan ch c).ha = s.ha := rfl
@[simp] theorem setChan_hb (s : State) (ch : Fin NC) (c : Chan) : (s.setChan ch c).hb = s.hb := rfl
@[simp] theorem setChan_prevbank (s : State) (ch : Fin NC) (c : Chan) : (s.setChan ch c).prevbank = s.prevbank := rfl
@[simp] theorem setChan_usStage (s : State) (ch : Fin NC) (c : Chan) : (s.setChan ch c).usStage = s.usStage := rfl
@[simp] theorem setChan_usActive (s : State) (ch : Fin NC) (c : Chan) : (s.setChan ch c).usActive = s.usActive := rfl
@[simp] theorem setChan_inbuf (s : State) (ch : Fin NC) (c : Chan) : (s.setChan ch c).inbuf = s.inbuf := rfl
@[simp] theorem setChan_outbuf (s : State) (ch : Fin NC) (c : Chan) : (s.setChan ch c).outbuf = s.outbuf := rfl
@[simp] theorem setChan_insrc (s : State) (ch : Fin NC) (c : Chan) : (s.setChan ch c).insrc = s.insrc := rfl
@[simp] theorem setChan_outsrc (s : State) (ch : Fin NC) (c : Chan) : (s.setChan ch c).outsrc = s.outsrc := rfl
@[simp] theorem setChan_out (s : State) (ch : Fin NC) (c : Chan) : (s.setChan ch c).out = s.out := rfl
@[simp] theorem setChan_blk (s : State) (ch : Fin NC) (c : Chan) : (s.setChan ch c).blk = s.blk := rfl
@[simp] theorem setChan_draws (s : State) (ch : Fin NC) (c : Chan) : (s.setChan ch c).draws = s.draws := rfl
@[simp] theorem setChan_params (s : State) (ch : Fin NC) (c : Chan) : (s.setChan ch c).params = s.params := rfl
@[simp] theorem setChan_P (s : State) (ch : Fin NC) (c : Chan) : (s.setChan ch c).P = s.P := rfl

@[simp] theorem setBlk_host (s : State) (b : Block) : (s.setBlk b).host = s.host := rfl
@[simp] theorem setBlk_probe (s : State) (b : Block) : (s.setBlk b).probe = s.probe := rfl
@[simp] theorem setBlk_wdata (s : State) (b : Block) : (s.setBlk b).wdata = s.wdata := rfl
@[simp] theorem setBlk_rdata (s : State) (b : Block) : (s.setBlk b).rdata = s.rdata := rfl
@[simp] theorem setBlk_algsel (s : State) (b : Block) : (s.setBlk b).algsel = s.algsel := rfl
@[simp] theorem setBlk_glide (s : State) (b : Block) : (s.setBlk b).glide = s.glide := rfl
@[simp] theorem setBlk_fscale (s : State) (b : Block) : (s.setBlk b).fscale = s.fscale := rfl
@[simp] theorem setBlk_qglobal (s : State) (b : Block) : (s.setBlk b).qglobal = s.qglobal := rfl
@[simp] theorem setBlk_hostrate (s : State) (b : Block) : (s.setBlk b).hostrate = s.hostrate := rfl
@[simp] theorem setBlk_inch (s : State) (b : Block) : (s.setBlk b).inch = s.inch := rfl
@[simp] theorem setBlk_outmode (s : State) (b : Block) : (s.setBlk b).outmode = s.outmode := rfl
@[simp] theorem setBlk_algChanged (s : State) (b : Block) : (s.setBlk b).algChanged = s.algChanged := rfl
@[simp] theorem setBlk_uscaleChanged (s : State) (b : Block) : (s.setBlk b).uscaleChanged = s.uscaleChanged := rfl
@[simp] theorem setBlk_clip (s : State) (b : Block) : (s.setBlk b).clip = s.clip := rfl
@[simp] theorem setBlk_fired (s : State) (b : Block) : (s.setBlk b).fired = s.fired := rfl
@[simp] theorem setBlk_indrop (s : State) (b : Block) : (s.setBlk b).indrop = s.indrop := rfl
@[simp] theorem setBlk_outvalid (s : State) (b : Block) : (s.setBlk b).outvalid = s.outvalid := rfl
@[simp] theorem setBlk_chan (s : State) (b : Block) : (s.setBlk b).chan = s.chan := rfl
@[simp] theorem setBlk_env (s : State) (b : Block) : (s.setBlk b).env = s.env := rfl
@[simp] theorem setBlk_pitch (s : State) (b : Block) : (s.setBlk b).pitch = s.pitch := rfl
@[simp] theorem setBlk_chlevel (s : State) (b : Block) : (s.setBlk b).chlevel = s.chlevel := rfl
@[simp] theorem setBlk_inlane (s : State) (b : Block) : (s.setBlk b).inlane = s.inlane := rfl
@[simp] theorem setBlk_outlane (s : State) (b : Block) : (s.setBlk b).outlane = s.outlane := rfl
@[simp] theorem setBlk_ha (s : State) (b : Block) : (s.setBlk b).ha = s.ha := rfl
@[simp] theorem setBlk_hb (s : State) (b : Block) : (s.setBlk b).hb = s.hb := rfl
@[simp] theorem setBlk_prevbank (s : State) (b : Block) : (s.setBlk b).prevbank = s.prevbank := rfl
@[simp] theorem setBlk_usStage (s : State) (b : Block) : (s.setBlk b).usStage = s.usStage := rfl
@[simp] theorem setBlk_usActive (s : State) (b : Block) : (s.setBlk b).usActive = s.usActive := rfl
@[simp] theorem setBlk_inbuf (s : State) (b : Block) : (s.setBlk b).inbuf = s.inbuf := rfl
@[simp] theorem setBlk_outbuf (s : State) (b : Block) : (s.setBlk b).outbuf = s.outbuf := rfl
@[simp] theorem setBlk_insrc (s : State) (b : Block) : (s.setBlk b).insrc = s.insrc := rfl
@[simp] theorem setBlk_outsrc (s : State) (b : Block) : (s.setBlk b).outsrc = s.outsrc := rfl
@[simp] theorem setBlk_out (s : State) (b : Block) : (s.setBlk b).out = s.out := rfl
@[simp] theorem setBlk_blk (s : State) (b : Block) : (s.setBlk b).blk = b := rfl
@[simp] theorem setBlk_draws (s : State) (b : Block) : (s.setBlk b).draws = s.draws := rfl
@[simp] theorem setBlk_params (s : State) (b : Block) : (s.setBlk b).params = s.params := rfl
@[simp] theorem setBlk_P (s : State) (b : Block) : (s.setBlk b).P = s.P := rfl

@[simp] theorem setPitch_host (s : State) (ch : Fin NC) (p : F) : (setPitch s ch p).host = s.host := rfl
@[simp] theorem setPitch_probe (s : State) (ch : Fin NC) (p : F) : (setPitch s ch p).probe = s.probe := rfl
@[simp] theorem setPitch_wdata (s : State) (ch : Fin NC) (p : F) : (setPitch s ch p).wdata = s.wdata := rfl
@[simp] theorem setPitch_rdata (s : State) (ch : Fin NC) (p : F) : (setPitch s ch p).rdata = s.rdata := rfl
@[simp] theorem setPitch_algsel (s : State) (ch : Fin NC) (p : F) : (setPitch s ch p).algsel = s.algsel := rfl
@[simp] theorem setPitch_glide (s : State) (ch : Fin NC) (p : F) : (setPitch s ch p).glide = s.glide := rfl
@[simp] theorem setPitch_fscale (s : State) (ch : Fin NC) (p : F) : (setPitch s ch p).fscale = s.fscale := rfl
@[simp] theorem setPitch_qglobal (s : State) (ch : Fin NC) (p : F) : (setPitch s ch p).qglobal = s.qglobal := rfl
@[simp] theorem setPitch_hostrate (s : State) (ch : Fin NC) (p : F) : (setPitch s ch p).hostrate = s.hostrate := rfl
@[simp] theorem setPitch_inch (s : State) (ch : Fin NC) (p : F) : (setPitch s ch p).inch = s.inch := rfl
@[simp] theorem setPitch_outmode (s : State) (ch : Fin NC) (p : F) : (setPitch s ch p).outmode = s.outmode := rfl
@[simp] theorem setPitch_algChanged (s : State) (ch : Fin NC) (p : F) : (setPitch s ch p).algChanged = s.algChanged := rfl
@[simp] theorem setPitch_uscaleChanged (s : State) (ch : Fin NC) (p : F) : (setPitch s ch p).uscaleChanged = s.uscaleChanged := rfl
@[simp] theorem setPitch_clip (s : State) (ch : Fin NC) (p : F) : (setPitch s ch p).clip = s.clip := rfl
@[simp] theorem setPitch_fired (s : State) (ch : Fin NC) (p : F) : (setPitch s ch p).fired = s.fired := rfl
@[simp] theorem setPitch_indrop (s : State) (ch : Fin NC) (p : F) : (setPitch s ch p).indrop = s.indrop := rfl
@[simp] theorem setPitch_outvalid (s : State) (ch : Fin NC) (p : F) : (setPitch s ch p).outvalid = s.outvalid := rfl
@[simp] theorem setPitch_chan (s : State) (ch : Fin NC) (p : F) : (setPitch s ch p).chan = s.chan := rfl
@[simp] theorem setPitch_env (s : State) (ch : Fin NC) (p : F) : (setPitch s ch p).env = s.env := rfl
@[simp] theorem setPitch_pitch (s : State) (ch : Fin NC) (p : F) : (setPitch s ch p).pitch = upd s.pitch ch p := rfl
@[simp] theorem setPitch_chlevel (s : State) (ch : Fin NC) (p : F) : (setPitch s ch p).chlevel = s.chlevel := rfl
@[simp] theorem setPitch_inlane (s : State) (ch : Fin NC) (p : F) : (setPitch s ch p).inlane = s.inlane := rfl
@[simp] theorem setPitch_outlane (s : State) (ch : Fin NC) (p : F) : (setPitch s ch p).outlane = s.outlane := rfl
@[simp] theorem setPitch_ha (s : State) (ch : Fin NC) (p : F) : (setPitch s ch p).ha = s.ha := rfl
@[simp] theorem setPitch_hb (s : State) (ch : Fin NC) (p : F) : (setPitch s ch p).hb = s.hb := rfl
@[simp] theorem setPitch_prevbank (s : State) (ch : Fin NC) (p : F) : (setPitch s ch p).prevbank = s.prevbank := rfl
@[simp] theorem setPitch_usStage (s : State) (ch : Fin NC) (p : F) : (setPitch s ch p).usStage = s.usStage := rfl
@[simp] theorem setPitch_usActive (s : State) (ch : Fin NC) (p : F) : (setPitch s ch p).usActive = s.usActive := rfl
@[simp] theorem setPitch_inbuf (s : State) (ch : Fin NC) (p : F) : (setPitch s ch p).inbuf = s.inbuf := rfl
@[simp] theorem setPitch_outbuf (s : State) (ch : Fin NC) (p : F) : (setPitch s ch p).outbuf = s.outbuf := rfl
@[simp] theorem setPitch_insrc (s : State) (ch : Fin NC) (p : F) : (setPitch s ch p).insrc = s.insrc := rfl
@[simp] theorem setPitch_outsrc (s : State) (ch : Fin NC) (p : F) : (setPitch s ch p).outsrc = s.outsrc := rfl
@[simp] theorem setPitch_out (s : State) (ch : Fin NC) (p : F) : (setPitch s ch p).out = s.out := rfl
@[simp] theorem setPitch_blk (s : State) (ch : Fin NC) (p : F) : (setPitch s ch p).blk = s.blk := rfl
@[simp] theorem setPitch_draws (s : State) (ch : Fin NC) (p : F) : (setPitch s ch p).draws = s.draws := rfl
@[simp] theorem setPitch_params (s : State) (ch : Fin NC) (p : F) : (setPitch s ch p).params = s.params := rfl
@[simp] theorem setPitch_P (s : State) (ch : Fin NC) (p : F) : (setPitch s ch p).P = s.P := rfl

@[simp] theorem clearEventFlags_host (s : State) : (clearEventFlags s).host = s.host := rfl
@[simp] theorem clearEventFlags_probe (s : State) : (clearEventFlags s).probe = s.probe := rfl
@[simp] theorem clearEventFlags_wdata (s : State) : (clearEventFlags s).wdata = s.wdata := rfl
@[simp] theorem clearEventFlags_rdata (s : State) : (clearEventFlags s).rdata = s.rdata := rfl
@[simp] theorem clearEventFlags_algsel (s : State) : (clearEventFlags s).algsel = s.algsel := rfl
@[simp] theorem clearEventFlags_glide (s : State) : (clearEventFlags s).glide = s.glide := rfl
@[simp] theorem clearEventFlags_fscale (s : State) : (clearEventFlags s).fscale = s.fscale := rfl
@[simp] theorem clearEventFlags_qglobal (s : State) : (clearEventFlags s).qglobal = s.qglobal := rfl
@[simp] theorem clearEventFlags_hostrate (s : State) : (clearEventFlags s).hostrate = s.hostrate := rfl
@[simp] theorem clearEventFlags_inch (s : State) : (clearEventFlags s).inch = s.inch := rfl
@[simp] theorem clearEventFlags_outmode (s : State) : (clearEventFlags s).outmode = s.outmode := rfl
@[simp] theorem clearEventFlags_algChanged (s : State) : (clearEventFlags s).algChanged = false := rfl
@[simp] theorem clearEventFlags_uscaleChanged (s : State) : (clearEventFlags s).uscaleChanged = false := rfl
@[simp] theorem clearEventFlags_clip (s : State) : (clearEventFlags s).clip = s.clip := rfl
@[simp] theorem clearEventFlags_fired (s : State) : (clearEventFlags s).fired = s.fired := rfl
@[simp] theorem clearEventFlags_indrop (s : State) : (clearEventFlags s).indrop = s.indrop := rfl
@[simp] theorem clearEventFlags_outvalid (s : State) : (clearEventFlags s).outvalid = s.outvalid := rfl
@[simp] theorem clearEventFlags_chan (s : State) : (clearEventFlags s).chan = s.chan := rfl
@[simp] theorem clearEventFlags_env (s : State) : (clearEventFlags s).env = s.env := rfl
@[simp] theorem clearEventFlags_pitch (s : State) : (clearEventFlags s).pitch = s.pitch := rfl
@[simp] theorem clearEventFlags_chlevel (s : State) : (clearEventFlags s).chlevel = s.chlevel := rfl
@[simp] theorem clearEventFlags_inlane (s : State) : (clearEventFlags s).inlane = s.inlane := rfl
@[simp] theorem clearEventFlags_outlane (s : State) : (clearEventFlags s).outlane = s.outlane := rfl
@[simp] theorem clearEventFlags_ha (s : State) : (clearEventFlags s).ha = s.ha := rfl
@[simp] theorem clearEventFlags_hb (s : State) : (clearEventFlags s).hb = s.hb := rfl
@[simp] theorem clearEventFlags_prevbank (s : State) : (clearEventFlags s).prevbank = s.prevbank := rfl
@[simp] theorem clearEventFlags_usStage (s : State) : (clearEventFlags s).usStage = s.usStage := rfl
@[simp] theorem clearEventFlags_usActive (s : State) : (clearEventFlags s).usActive = s.usActive := rfl
@[simp] theorem clearEventFlags_inbuf (s : State) : (clearEventFlags s).inbuf = s.inbuf := rfl
@[simp] theorem clearEventFlags_outbuf (s : State) : (clearEventFlags s).outbuf = s.outbuf := rfl
@[simp] theorem clearEventFlags_insrc (s : State) : (clearEventFlags s).insrc = s.insrc := rfl
@[simp] theorem clearEventFlags_outsrc (s : State) : (clearEventFlags s).outsrc = s.outsrc := rfl
@[simp] theorem clearEventFlags_out (s : State) : (clearEventFlags s).out = s.out := rfl
@[simp] theorem clearEventFlags_blk (s : State) : (clearEventFlags s).blk = s.blk := rfl
@[simp] theorem clearEventFlags_draws (s : State) : (clearEventFlags s).draws = s.draws := rfl
@[simp] theorem clearEventFlags_params (s : State) : (clearEventFlags s).params = s.params := rfl
@[simp] theorem clearEventFlags_P (s : State) : (clearEventFlags s).P = s.P := rfl

@[simp] theorem clipTest_host (s : State) : (clipTest s).host = s.host := rfl
@[simp] theorem clipTest_probe (s : State) : (clipTest s).probe = s.probe := rfl
@[simp] theorem clipTest_wdata (s : State) : (clipTest s).wdata = s.wdata := rfl
@[simp] theorem clipTest_rdata (s : State) : (clipTest s).rdata = s.rdata := rfl
@[simp] theorem clipTest_algsel (s : State) : (clipTest s).algsel = s.algsel := rfl
@[simp] theorem clipTest_glide (s : State) : (clipTest s).glide = s.glide := rfl
@[simp] theorem clipTest_fscale (s : State) : (clipTest s).fscale = s.fscale := rfl
@[simp] theorem clipTest_qglobal (s : State) : (clipTest s).qglobal = s.qglobal := rfl
@[simp] theorem clipTest_hostrate (s : State) : (clipTest s).hostrate = s.hostrate := rfl
@[simp] theorem clipTest_inch (s : State) : (clipTest s).inch = s.inch := rfl
@[simp] theorem clipTest_outmode (s : State) : (clipTest s).outmode = s.outmode := rfl
@[simp] theorem clipTest_algChanged (s : State) : (clipTest s).algChanged = s.algChanged := rfl
@[simp] theorem clipTest_uscaleChanged (s : State) : (clipTest s).uscaleChanged = s.uscaleChanged := rfl
@[simp] theorem clipTest_clip (s : State) : (clipTest s).clip = clipped s.P s.blk.xin := rfl
@[simp] theorem clipTest_fired (s : State) : (clipTest s).fired = s.fired := rfl
@[simp] theorem clipTest_indrop (s : State) : (clipTest s).indrop = s.indrop := rfl
@[simp] theorem clipTest_outvalid (s : State) : (clipTest s).outvalid = s.outvalid := rfl
@[simp] theorem clipTest_chan (s : State) : (clipTest s).chan = s.chan := rfl
@[simp] theorem clipTest_env (s : State) : (clipTest s).env = s.env := rfl
@[simp] theorem clipTest_pitch (s : State) : (clipTest s).pitch = s.pitch := rfl
@[simp] theorem clipTest_chlevel (s : State) : (clipTest s).chlevel = s.chlevel := rfl
@[simp] theorem clipTest_inlane (s : State) : (clipTest s).inlane = s.inlane := rfl
@[simp] theorem clipTest_outlane (s : State) : (clipTest s).outlane = s.outlane := rfl
@[simp] theorem clipTest_ha (s : State) : (clipTest s).ha = s.ha := rfl
@[simp] theorem clipTest_hb (s : State) : (clipTest s).hb = s.hb := rfl
@[simp] theorem clipTest_prevbank (s : State) : (clipTest s).prevbank = s.prevbank := rfl
@[simp] theorem clipTest_usStage (s : State) : (clipTest s).usStage = s.usStage := rfl
@[simp] theorem clipTest_usActive (s : State) : (clipTest s).usActive = s.usActive := rfl
@[simp] theorem clipTest_inbuf (s : State) : (clipTest s).inbuf = s.inbuf := rfl
@[simp] theorem clipTest_outbuf (s : State) : (clipTest s).outbuf = s.outbuf := rfl
@[simp] theorem clipTest_insrc (s : State) : (clipTest s).insrc = s.insrc := rfl
@[simp] theorem clipTest_outsrc (s : State) : (clipTest s).outsrc = s.outsrc := rfl
@[simp] theorem clipTest_out (s : State) : (clipTest s).out = s.out := rfl
@[simp] theorem clipTest_blk (s : State) : (clipTest s).blk = s.blk := rfl
@[simp] theorem clipTest_draws (s : State) : (clipTest s).draws = s.draws := rfl
@[simp] theorem clipTest_params (s : State) : (clipTest s).params = s.params := rfl
@[simp] theorem clipTest_P (s : State) : (clipTest s).P = s.P := rfl

@[simp] theorem begin_host (s : State) (t : Txn) (rest : List Txn) : (begin s t rest).host = rest := rfl
@[simp] theorem begin_probe (s : State) (t : Txn) (rest : List Txn) : (begin s t rest).probe = s.probe := rfl
@[simp] theorem begin_wdata (s : State) (t : Txn) (rest : List Txn) : (begin s t rest).wdata = t.wdata := rfl
@[simp] theorem begin_rdata (s : State) (t : Txn) (rest : List Txn) : (begin s t rest).rdata = s.rdata := rfl
@[simp] theorem begin_algsel (s : State) (t : Txn) (rest : List Txn) : (begin s t rest).algsel = s.algsel := rfl
@[simp] theorem begin_glide (s : State) (t : Txn) (rest : List Txn) : (begin s t rest).glide = s.glide := rfl
@[simp] theorem begin_fscale (s : State) (t : Txn) (rest : List Txn) : (begin s t rest).fscale = s.fscale := rfl
@[simp] theorem begin_qglobal (s : State) (t : Txn) (rest : List Txn) : (begin s t rest).qglobal = s.qglobal := rfl
@[simp] theorem begin_hostrate (s : State) (t : Txn) (rest : List Txn) : (begin s t rest).hostrate = s.hostrate := rfl
@[simp] theorem begin_inch (s : State) (t : Txn) (rest : List Txn) : (begin s t rest).inch = s.inch := rfl
@[simp] theorem begin_outmode (s : State) (t : Txn) (rest : List Txn) : (begin s t rest).outmode = s.outmode := rfl
@[simp] theorem begin_algChanged (s : State) (t : Txn) (rest : List Txn) : (begin s t rest).algChanged = s.algChanged := rfl
@[simp] theorem begin_uscaleChanged (s : State) (t : Txn) (rest : List Txn) : (begin s t rest).uscaleChanged = s.uscaleChanged := rfl
@[simp] theorem begin_clip (s : State) (t : Txn) (rest : List Txn) : (begin s t rest).clip = s.clip := rfl
@[simp] theorem begin_fired (s : State) (t : Txn) (rest : List Txn) : (begin s t rest).fired = s.fired := rfl
@[simp] theorem begin_indrop (s : State) (t : Txn) (rest : List Txn) : (begin s t rest).indrop = s.indrop := rfl
@[simp] theorem begin_outvalid (s : State) (t : Txn) (rest : List Txn) : (begin s t rest).outvalid = s.outvalid := rfl
@[simp] theorem begin_chan (s : State) (t : Txn) (rest : List Txn) : (begin s t rest).chan = s.chan := rfl
@[simp] theorem begin_env (s : State) (t : Txn) (rest : List Txn) : (begin s t rest).env = s.env := rfl
@[simp] theorem begin_pitch (s : State) (t : Txn) (rest : List Txn) : (begin s t rest).pitch = s.pitch := rfl
@[simp] theorem begin_chlevel (s : State) (t : Txn) (rest : List Txn) : (begin s t rest).chlevel = s.chlevel := rfl
@[simp] theorem begin_inlane (s : State) (t : Txn) (rest : List Txn) : (begin s t rest).inlane = s.inlane := rfl
@[simp] theorem begin_outlane (s : State) (t : Txn) (rest : List Txn) : (begin s t rest).outlane = s.outlane := rfl
@[simp] theorem begin_ha (s : State) (t : Txn) (rest : List Txn) : (begin s t rest).ha = s.ha := rfl
@[simp] theorem begin_hb (s : State) (t : Txn) (rest : List Txn) : (begin s t rest).hb = s.hb := rfl
@[simp] theorem begin_prevbank (s : State) (t : Txn) (rest : List Txn) : (begin s t rest).prevbank = s.prevbank := rfl
@[simp] theorem begin_usStage (s : State) (t : Txn) (rest : List Txn) : (begin s t rest).usStage = s.usStage := rfl
@[simp] theorem begin_usActive (s : State) (t : Txn) (rest : List Txn) : (begin s t rest).usActive = s.usActive := rfl
@[simp] theorem begin_inbuf (s : State) (t : Txn) (rest : List Txn) : (begin s t rest).inbuf = s.inbuf := rfl
@[simp] theorem begin_outbuf (s : State) (t : Txn) (rest : List Txn) : (begin s t rest).outbuf = s.outbuf := rfl
@[simp] theorem begin_insrc (s : State) (t : Txn) (rest : List Txn) : (begin s t rest).insrc = s.insrc := rfl
@[simp] theorem begin_outsrc (s : State) (t : Txn) (rest : List Txn) : (begin s t rest).outsrc = s.outsrc := rfl
@[simp] theorem begin_out (s : State) (t : Txn) (rest : List Txn) : (begin s t rest).out = s.out := rfl
@[simp] theorem begin_blk (s : State) (t : Txn) (rest : List Txn) : (begin s t rest).blk = s.blk := rfl
@[simp] theorem begin_draws (s : State) (t : Txn) (rest : List Txn) : (begin s t rest).draws = s.draws + 1 := rfl
@[simp] theorem begin_params (s : State) (t : Txn) (rest : List Txn) : (begin s t rest).params = s.params := rfl
@[simp] theorem begin_P (s : State) (t : Txn) (rest : List Txn) : (begin s t rest).P = s.P := rfl

@[simp] theorem beginProbe_host (s : State) : (beginProbe s).host = s.host := rfl
@[simp] theorem beginProbe_probe (s : State) : (beginProbe s).probe = none := rfl
@[simp] theorem beginProbe_wdata (s : State) : (beginProbe s).wdata = 0 := rfl
@[simp] theorem beginProbe_rdata (s : State) : (beginProbe s).rdata = s.rdata := rfl
@[simp] theorem beginProbe_algsel (s : State) : (beginProbe s).algsel = s.algsel := rfl
@[simp] theorem beginProbe_glide (s : State) : (beginProbe s).glide = s.glide := rfl
@[simp] theorem beginProbe_fscale (s : State) : (beginProbe s).fscale = s.fscale := rfl
@[simp] theorem beginProbe_qglobal (s : State) : (beginProbe s).qglobal = s.qglobal := rfl
@[simp] theorem beginProbe_hostrate (s : State) : (beginProbe s).hostrate = s.hostrate := rfl
@[simp] theorem beginProbe_inch (s : State) : (beginProbe s).inch = s.inch := rfl
@[simp] theorem beginProbe_outmode (s : State) : (beginProbe s).outmode = s.outmode := rfl
@[simp] theorem beginProbe_algChanged (s : State) : (beginProbe s).algChanged = s.algChanged := rfl
@[simp] theorem beginProbe_uscaleChanged (s : State) : (beginProbe s).uscaleChanged = s.uscaleChanged := rfl
@[simp] theorem beginProbe_clip (s : State) : (beginProbe s).clip = s.clip := rfl
@[simp] theorem beginProbe_fired (s : State) : (beginProbe s).fired = s.fired := rfl
@[simp] theorem beginProbe_indrop (s : State) : (beginProbe s).indrop = s.indrop := rfl
@[simp] theorem beginProbe_outvalid (s : State) : (beginProbe s).outvalid = s.outvalid := rfl
@[simp] theorem beginProbe_chan (s : State) : (beginProbe s).chan = s.chan := rfl
@[simp] theorem beginProbe_env (s : State) : (beginProbe s).env = s.env := rfl
@[simp] theorem beginProbe_pitch (s : State) : (beginProbe s).pitch = s.pitch := rfl
@[simp] theorem beginProbe_chlevel (s : State) : (beginProbe s).chlevel = s.chlevel := rfl
@[simp] theorem beginProbe_inlane (s : State) : (beginProbe s).inlane = s.inlane := rfl
@[simp] theorem beginProbe_outlane (s : State) : (beginProbe s).outlane = s.outlane := rfl
@[simp] theorem beginProbe_ha (s : State) : (beginProbe s).ha = s.ha := rfl
@[simp] theorem beginProbe_hb (s : State) : (beginProbe s).hb = s.hb := rfl
@[simp] theorem beginProbe_prevbank (s : State) : (beginProbe s).prevbank = s.prevbank := rfl
@[simp] theorem beginProbe_usStage (s : State) : (beginProbe s).usStage = s.usStage := rfl
@[simp] theorem beginProbe_usActive (s : State) : (beginProbe s).usActive = s.usActive := rfl
@[simp] theorem beginProbe_inbuf (s : State) : (beginProbe s).inbuf = s.inbuf := rfl
@[simp] theorem beginProbe_outbuf (s : State) : (beginProbe s).outbuf = s.outbuf := rfl
@[simp] theorem beginProbe_insrc (s : State) : (beginProbe s).insrc = s.insrc := rfl
@[simp] theorem beginProbe_outsrc (s : State) : (beginProbe s).outsrc = s.outsrc := rfl
@[simp] theorem beginProbe_out (s : State) : (beginProbe s).out = s.out := rfl
@[simp] theorem beginProbe_blk (s : State) : (beginProbe s).blk = s.blk := rfl
@[simp] theorem beginProbe_draws (s : State) : (beginProbe s).draws = s.draws + 1 := rfl
@[simp] theorem beginProbe_params (s : State) : (beginProbe s).params = s.params := rfl
@[simp] theorem beginProbe_P (s : State) : (beginProbe s).P = s.P := rfl

/-- A command is placed as a transaction of the host. -/
theorem place_command (s : State) {nbits : Nat} (w : Nat) (h : 8 < nbits) :
    place s nbits w = { s with probe := none, host := ⟨BitVec.ofNat 32 w, 0⟩ :: s.host } := by
  simp [place, tableSpace, Nat.not_le.2 h]

/-- An engine operation is placed as the probe. -/
theorem place_probe (s : State) {nbits : Nat} (w : Nat) (h : nbits ≤ 8) :
    place s nbits w = { s with probe := some (.algsel, BitVec.ofNat 32 w) } := by
  simp [place, tableSpace, h]

@[simp] theorem powerOn_params (p : ParamSet) : (State.powerOn p).params = p := rfl
@[simp] theorem powerOn_P (p : ParamSet) : (State.powerOn p).P = p.params := rfl

/-! The outputs of a filter: `blk` only. -/

theorem setOutputs_eq (s : State) (ch : Fin NC) (yp : List F) (yt : Option (List F)) :
    setOutputs s ch yp yt = { s with blk := (setOutputs s ch yp yt).blk } := rfl

@[simp] theorem setOutputs_yp (s : State) (ch : Fin NC) (yp : List F) (yt : Option (List F)) :
    (setOutputs s ch yp yt).blk.yp = upd s.blk.yp ch yp := rfl
@[simp] theorem setOutputs_yt_some (s : State) (ch : Fin NC) (yp y : List F) :
    (setOutputs s ch yp (some y)).blk.yt = upd s.blk.yt ch y := rfl
@[simp] theorem setOutputs_yt_none (s : State) (ch : Fin NC) (yp : List F) :
    (setOutputs s ch yp none).blk.yt = s.blk.yt := rfl
@[simp] theorem setOutputs_rs (s : State) (ch : Fin NC) (yp : List F) (yt : Option (List F)) :
    (setOutputs s ch yp yt).blk.rs = s.blk.rs := rfl
@[simp] theorem setOutputs_xq (s : State) (ch : Fin NC) (yp : List F) (yt : Option (List F)) :
    (setOutputs s ch yp yt).blk.xq = s.blk.xq := rfl
@[simp] theorem setOutputs_xin (s : State) (ch : Fin NC) (yp : List F) (yt : Option (List F)) :
    (setOutputs s ch yp yt).blk.xin = s.blk.xin := rfl
@[simp] theorem setOutputs_fold (s : State) (ch : Fin NC) (yp : List F) (yt : Option (List F)) :
    (setOutputs s ch yp yt).blk.fold = s.blk.fold := rfl

end Sys2Proof.Machine
end

