-- ==== Sys2Proof/Laws/Vec.lean ====
section
/-! SUPPORT. The register-file operations `look`, `upd`, `perCh`. -/

namespace Sys2Proof

variable {α : Type} {n : Nat}

@[simp] theorem look_upd_same (v : Vector α n) (i : Fin n) (x : α) : look (upd v i x) i = x := by
  simp [look, upd]

theorem look_upd (v : Vector α n) (i j : Fin n) (x : α) :
    look (upd v i x) j = if i = j then x else look v j := by
  simp [look, upd, Vector.getElem_set, Fin.ext_iff]

@[simp] theorem look_upd_ne (v : Vector α n) {i j : Fin n} (h : i ≠ j) (x : α) :
    look (upd v i x) j = look v j := by
  simp [look_upd, h]

@[simp] theorem look_perCh (f : Fin NC → α) (i : Fin NC) : look (perCh f) i = f i := by
  simp [look, perCh]

@[simp] theorem look_replicate (x : α) (i : Fin n) : look (Vector.replicate n x) i = x := by
  simp [look]

/-- Two register files with the same entries are the same. -/
theorem look_ext {v w : Vector α n} (h : ∀ i, look v i = look w i) : v = w :=
  Vector.ext fun i hi => h ⟨i, hi⟩

/-- Writing an entry's own value changes nothing. -/
@[simp] theorem upd_look (v : Vector α n) (i : Fin n) : upd v i (look v i) = v :=
  look_ext fun j => by rw [look_upd]; split <;> simp_all

/-- Writes to different entries commute. -/
theorem upd_comm (v : Vector α n) {i j : Fin n} (h : i ≠ j) (x y : α) :
    upd (upd v i x) j y = upd (upd v j y) i x :=
  look_ext fun k => by
    simp only [look_upd]
    split <;> split <;> simp_all

/-- The entries of a file built entry by entry, as a file equal to another. -/
theorem perCh_eq_iff (f : Fin NC → α) (v : Vector α NC) : perCh f = v ↔ ∀ i, f i = look v i :=
  ⟨fun h i => by rw [← h, look_perCh], fun h => look_ext fun i => by rw [look_perCh, h]⟩

end Sys2Proof
end

