-- ==== Sys2Proof/Laws/Ops.lean ====
section
/-! SUPPORT. One lemma for each shared operation: what it can do, once. -/

namespace Sys2Proof.Machine

/-! ## Indices -/

/-- A clamped index is inside its range (40_control_coefstore.md R103). -/
theorem clampIdx_lt (v : Word) (n : Nat) : clampIdx v (n + 1) < n + 1 := by
  unfold clampIdx clampi
  split
  · simp
  · split <;> simp only [Int.ofNat_eq_natCast] at * <;> omega

/-- A clamped bank fits an `I32`, so `PREVBANK` holds it exactly. -/
theorem clampIdx_lt_two_pow (v : Word) (n : Nat) : clampIdx v (n + 1) < 2 ^ 31 := by
  have h : v.toInt < 2 ^ 31 := by
    have := v.toInt_lt
    simpa using this
  unfold clampIdx clampi
  split
  · simp
  · split
    · simp only [Int.ofNat_eq_natCast] at *; omega
    · omega

theorem idxOf_bounds (P : Params) (c : Chan) :
    (idxOf P c).b < P.nb ∧ (idxOf P c).sc < P.ns ∧ (idxOf P c).nt < P.nf ∧
      (idxOf P c).fsc < P.ns ∧ (idxOf P c).fnt < P.nf :=
  ⟨clampIdx_lt _ _, clampIdx_lt _ _, clampIdx_lt _ _, clampIdx_lt _ _, clampIdx_lt _ _⟩

theorem bankNow_toNat (s : State) (ch : Fin NC) :
    (bankNow s ch).toNat = clampIdx (look s.chan ch).bank s.P.nb := by
  unfold bankNow Params.nb
  have := clampIdx_lt_two_pow (look s.chan ch).bank s.P.nbPred
  rw [BitVec.toNat_ofNat, Nat.mod_eq_of_lt (by omega)]

@[simp] theorem chanOf_val (ch : Fin NC) : chanOf ch.val = some ch := by
  simp [chanOf]

theorem chanOf_of_lt {ch : Nat} (h : ch < 6) : chanOf ch = some ⟨ch, h⟩ := by
  simp [chanOf, h]

theorem chanOf_of_ge {ch : Nat} (h : 6 ≤ ch) : chanOf ch = none := by
  simp [chanOf]; omega

theorem mem_channels (ch : Fin NC) : ch ∈ channels := by
  fin_cases ch <;> decide

/-! ## History slots (20_memory.md R52) -/

theorem sliceStart_succ (P : Params) (ch : Nat) :
    sliceStart P (ch + 1) = sliceStart P ch + P.ns * P.nf * 3 := by
  simp only [sliceStart, Const.hlen]; ring

theorem sliceStart_mono (P : Params) {a b : Nat} (h : a ≤ b) : sliceStart P a ≤ sliceStart P b := by
  simp only [sliceStart]
  exact Nat.mul_le_mul_right _ (Nat.mul_le_mul_right _ (Nat.mul_le_mul_right _ h))

/-- A slot's keys, from the start of its channel's slice. -/
theorem histKey_eq (P : Params) (ch : Fin NC) (sc nt k : Nat) :
    histKey P ch sc nt k = sliceStart P ch.val + (sc * P.nf + nt) * 3 + k := by
  simp only [histKey, sliceStart, Const.hlen]; ring

theorem sliceStart_le_histKey (P : Params) (ch : Fin NC) (sc nt k : Nat) :
    sliceStart P ch.val ≤ histKey P ch sc nt k := by
  rw [histKey_eq]; omega

theorem flat_lt {sc nt ns nf : Nat} (hs : sc < ns) (hn : nt < nf) : sc * nf + nt < ns * nf := by
  calc sc * nf + nt < sc * nf + nf := by omega
    _ = (sc + 1) * nf := by ring
    _ ≤ ns * nf := Nat.mul_le_mul_right _ hs

theorem histKey_lt (P : Params) (ch : Fin NC) {sc nt k : Nat} (hs : sc < P.ns) (hn : nt < P.nf) (hk : k < 3) :
    histKey P ch sc nt k < sliceStart P (ch.val + 1) := by
  rw [histKey_eq, sliceStart_succ]
  have := flat_lt hs hn
  omega

/-- Every key of a history slot lies inside the arena. -/
theorem histKey_lt_arena (P : Params) (ch : Fin NC) {sc nt k : Nat} (hs : sc < P.ns) (hn : nt < P.nf)
    (hk : k < 3) : histKey P ch sc nt k < sliceStart P NC :=
  lt_of_lt_of_le (histKey_lt P ch hs hn hk) (sliceStart_mono P (by omega))

theorem flat_inj {sc nt sc' nt' nf : Nat} (hn : nt < nf) (hn' : nt' < nf)
    (h : sc * nf + nt = sc' * nf + nt') : sc = sc' ∧ nt = nt' := by
  have hpos : 0 < nf := by omega
  have h1 : sc = sc' := by
    have := congrArg (· / nf) h
    simpa [Nat.add_comm _ nt, Nat.add_comm _ nt', Nat.add_mul_div_right _ _ hpos,
      Nat.div_eq_of_lt hn, Nat.div_eq_of_lt hn'] using this
  subst h1
  exact ⟨rfl, by omega⟩

/-- Two slots never share an element (R52: "without cross-talk"). -/
theorem histKey_inj (P : Params) {ch ch' : Fin NC} {sc nt k sc' nt' k' : Nat}
    (hs : sc < P.ns) (hn : nt < P.nf) (hk : k < 3) (hs' : sc' < P.ns) (hn' : nt' < P.nf) (hk' : k' < 3)
    (h : histKey P ch sc nt k = histKey P ch' sc' nt' k') : ch = ch' ∧ sc = sc' ∧ nt = nt' ∧ k = k' := by
  have hch : ch = ch' := by
    by_contra hne
    rcases Nat.lt_or_gt_of_ne (fun e => hne (Fin.ext e)) with hlt | hgt
    · have a := histKey_lt P ch hs hn hk
      have b := sliceStart_mono P (Nat.succ_le_of_lt hlt)
      have c := sliceStart_le_histKey P ch' sc' nt' k'
      simp only [Nat.succ_eq_add_one] at b
      omega
    · have a := histKey_lt P ch' hs' hn' hk'
      have b := sliceStart_mono P (Nat.succ_le_of_lt hgt)
      have c := sliceStart_le_histKey P ch sc nt k
      simp only [Nat.succ_eq_add_one] at b
      omega
  subst hch
  rw [histKey_eq, histKey_eq] at h
  have hflat := flat_inj hn hn' (show sc * P.nf + nt = sc' * P.nf + nt' by omega)
  exact ⟨rfl, hflat.1, hflat.2, by omega⟩

/-- What a slot write does to a read, on a canonical memory. -/
theorem read_writeSlot (P : Params) {m : Memory} (h : m.wf = true) (ch : Fin NC) (sc nt : Nat) (v : Slot)
    (j : Nat) :
    (writeSlot P m ch sc nt v).read j =
      if j = histKey P ch sc nt 2 then v.h2
      else if j = histKey P ch sc nt 1 then v.h1
      else if j = histKey P ch sc nt 0 then v.h0
      else m.read j := by
  unfold writeSlot
  have h0 := Memory.wf_write (histKey P ch sc nt 0) v.h0 h
  have h1 := Memory.wf_write (histKey P ch sc nt 1) v.h1 h0
  split
  · next e => rw [e, Memory.read_write_same h1]
  · next e2 =>
    rw [Memory.read_write_ne h1 e2]
    split
    · next e => rw [e, Memory.read_write_same h0]
    · next e1 =>
      rw [Memory.read_write_ne h0 e1]
      split
      · next e => rw [e, Memory.read_write_same h]
      · next e0 => rw [Memory.read_write_ne h e0]

/-- What the blended-table algorithm's slot write does to a read, on a canonical memory. -/
theorem read_writeSlot01 (P : Params) {m : Memory} (h : m.wf = true) (ch : Fin NC) (sc nt : Nat) (v : Slot)
    (j : Nat) :
    (writeSlot01 P m ch sc nt v).read j =
      if j = histKey P ch sc nt 1 then v.h1
      else if j = histKey P ch sc nt 0 then v.h0
      else m.read j := by
  unfold writeSlot01
  have h0 := Memory.wf_write (histKey P ch sc nt 0) v.h0 h
  split
  · next e => rw [e, Memory.read_write_same h0]
  · next e1 =>
    rw [Memory.read_write_ne h0 e1]
    split
    · next e => rw [e, Memory.read_write_same h]
    · next e0 => rw [Memory.read_write_ne h e0]

theorem wf_writeSlot (P : Params) {m : Memory} (h : m.wf = true) (ch : Fin NC) (sc nt : Nat) (v : Slot) :
    (writeSlot P m ch sc nt v).wf = true :=
  Memory.wf_write _ _ (Memory.wf_write _ _ (Memory.wf_write _ _ h))

theorem wf_writeSlot01 (P : Params) {m : Memory} (h : m.wf = true) (ch : Fin NC) (sc nt : Nat) (v : Slot) :
    (writeSlot01 P m ch sc nt v).wf = true :=
  Memory.wf_write _ _ (Memory.wf_write _ _ h)

theorem below_writeSlot (P : Params) {m : Memory} (ch : Fin NC) {sc nt : Nat} (v : Slot) (hs : sc < P.ns)
    (hn : nt < P.nf) (h : m.below (sliceStart P NC) = true) :
    (writeSlot P m ch sc nt v).below (sliceStart P NC) = true :=
  Memory.below_write _ (histKey_lt_arena P ch hs hn (by decide))
    (Memory.below_write _ (histKey_lt_arena P ch hs hn (by decide))
      (Memory.below_write _ (histKey_lt_arena P ch hs hn (by decide)) h))

theorem below_writeSlot01 (P : Params) {m : Memory} (ch : Fin NC) {sc nt : Nat} (v : Slot) (hs : sc < P.ns)
    (hn : nt < P.nf) (h : m.below (sliceStart P NC) = true) :
    (writeSlot01 P m ch sc nt v).below (sliceStart P NC) = true :=
  Memory.below_write _ (histKey_lt_arena P ch hs hn (by decide))
    (Memory.below_write _ (histKey_lt_arena P ch hs hn (by decide)) h)

/-- A read after channel `ch`'s slice is cleared (R113). -/
theorem read_clearSlice (P : Params) {m : Memory} (h : m.wf = true) (ch : Fin NC) (j : Nat) :
    (clearSlice P m ch).read j =
      if sliceStart P ch.val ≤ j ∧ j < sliceStart P (ch.val + 1) then Memory.unlisted else m.read j :=
  Memory.read_clear h _ _ _

/-! ## Rings (46_ringbuf_resampler.md R211, R213) -/

theorem push_length_le {cap : Nat} {ring : List F} (v : F) (h : ring.length ≤ cap) :
    (push cap ring v).length ≤ cap := by
  unfold push
  split
  · simp; omega
  · exact h

theorem pushAll_length_le {cap : Nat} {ring : List F} (vs : List F) (h : ring.length ≤ cap) :
    (pushAll cap ring vs).length ≤ cap := by
  unfold pushAll
  induction vs generalizing ring with
  | nil => exact h
  | cons v vs ih => exact ih (push_length_le v h)

/-- With room for all of them every pushed value lands, in order. -/
theorem pushAll_eq {cap : Nat} {ring : List F} (vs : List F) (h : ring.length + vs.length ≤ cap) :
    pushAll cap ring vs = ring ++ vs := by
  unfold pushAll
  induction vs generalizing ring with
  | nil => simp
  | cons v vs ih =>
    simp only [List.length_cons] at h
    have hp : push cap ring v = ring ++ [v] := by
      unfold push
      rw [if_pos (by omega)]
    rw [List.foldl_cons, hp, ih (by simp; omega)]
    simp

/-! ## The recurrences over a block -/

@[simp] theorem runBlock_length {σ : Type} (D : Domain) (f : σ → F → σ × F) (st : σ) (xs : List Int) :
    (runBlock D f st xs).2.length = xs.length := by
  induction xs generalizing st with
  | nil => rfl
  | cons x xs ih => simp [runBlock, ih]

@[simp] theorem openSamples_length (s : State) (ch : Fin NC) (b : Bool) :
    (openSamples s ch b).length = (look s.blk.xin ch).length := by
  simp [openSamples]

/-- What the passes of one channel come to (41_twopass.md R140): no target pass, the open pair, or both. -/
theorem passes_cases {μ : Type} (morph same : Bool) (pass : Bool → μ → List F × μ)
    (openPair : μ → List F × List F × μ) (m : μ) :
    (morph = false ∧ passes morph same pass openPair m = ((pass false m).1, none, (pass false m).2)) ∨
    (morph = true ∧ same = true ∧
      passes morph same pass openPair m = ((openPair m).1, some (openPair m).2.1, (openPair m).2.2)) ∨
    (morph = true ∧ same = false ∧
      passes morph same pass openPair m =
        ((pass false m).1, some (pass true (pass false m).2).1, (pass true (pass false m).2).2)) := by
  cases morph <;> cases same <;> simp [passes]

/-- A property of the history kept by each pass and by the open pair is kept by the passes. -/
theorem passes_keeps {μ : Type} (p : μ → Prop) {morph same : Bool} {pass : Bool → μ → List F × μ}
    {openPair : μ → List F × List F × μ} {m : μ} (hm : p m) (hpass : ∀ b m, p m → p (pass b m).2)
    (hopen : ∀ m, p m → p (openPair m).2.2) : p (passes morph same pass openPair m).2.2 := by
  rcases passes_cases morph same pass openPair m with ⟨-, h⟩ | ⟨-, -, h⟩ | ⟨-, -, h⟩ <;> rw [h]
  · exact hpass _ _ hm
  · exact hopen _ hm
  · exact hpass _ _ (hpass _ _ hm)

/-- A blended block on the user bank (43_blended.md R165 (2)): open samples, and whatever slot writes keep of the
history is kept. -/
theorem openBlend_spec (s : State) (ch : Fin NC) (ix : Idx) (morph : Bool) :
    (openBlend s ch ix morph).1 = openSamples s ch false ∧
    (openBlend s ch ix morph).2.1 = (if morph then some (openSamples s ch true) else none) ∧
    ∀ p : Memory → Prop, p s.ha → (∀ m v, p m → p (writeSlot01 s.P m ch ix.sc ix.nt v)) →
      (∀ m v, morph = true → p m → p (writeSlot01 s.P m ch ix.fsc ix.fnt v)) → p (openBlend s ch ix morph).2.2 := by
  cases morph
  · exact ⟨rfl, rfl, fun p hm h _ => h _ _ hm⟩
  · exact ⟨rfl, rfl, fun p hm h h' => h' _ _ rfl (h _ _ hm)⟩

/-! ## The filters: what a resonator operation writes -/

/-- The fields a resonator operation writes: `HA`, `HB`, `PITCH`, and the filter outputs. -/
structure FilterFrame (ch : Fin NC) (s t : State) : Prop where
  rest : t = { s with ha := t.ha, hb := t.hb, pitch := t.pitch, blk := t.blk }
  pitch_other : ∀ c, c ≠ ch → look t.pitch c = look s.pitch c
  yp_other : ∀ c, c ≠ ch → look t.blk.yp c = look s.blk.yp c
  yt_other : ∀ c, c ≠ ch → look t.blk.yt c = look s.blk.yt c
  blk_rest : t.blk = { s.blk with yp := t.blk.yp, yt := t.blk.yt }

theorem filterFrame_of (ch : Fin NC) (s : State) (yp : List F) (yt : Option (List F)) (p : F) (ha hb : Memory) :
    FilterFrame ch s { setPitch (setOutputs s ch yp yt) ch p with ha := ha, hb := hb } where
  rest := by cases yt <;> rfl
  pitch_other c hc := look_upd_ne _ (Ne.symm hc) _
  yp_other c hc := by cases yt <;> exact look_upd_ne _ (Ne.symm hc) _
  yt_other c hc := by
    cases yt
    · rfl
    · exact look_upd_ne _ (Ne.symm hc) _
  blk_rest := by cases yt <;> rfl

theorem filt2p_frame (ch : Fin NC) (s : State) : FilterFrame ch s (filt2p ch s) := filterFrame_of ..
theorem filt1p_frame (ch : Fin NC) (s : State) : FilterFrame ch s (filt1p ch s) :=
  filterFrame_of ch s _ _ _ _ s.hb
theorem filtbl_frame (ch : Fin NC) (s : State) : FilterFrame ch s (filtbl ch s) :=
  filterFrame_of ch s _ _ _ _ s.hb

/-- Whatever the selector, step 4 for one channel writes no more than a resonator operation. -/
theorem filter_frame (ch : Fin NC) (s : State) : FilterFrame ch s (filter s ch) := by
  unfold filter
  cases algOf s.algsel
  · exact filt2p_frame ch s
  · exact filt1p_frame ch s
  · exact filtbl_frame ch s

/-! ## Block start -/

/-- The loop of `BLKSTART` writes the histories and `PREVBANK`. -/
theorem blkStartLoop_frame (l : List (Fin NC)) (s : State) :
    ∃ a b p, l.foldl blkStartChan s = { s with ha := a, hb := b, prevbank := p } := by
  induction l generalizing s with
  | nil => exact ⟨s.ha, s.hb, s.prevbank, rfl⟩
  | cons ch l ih =>
    rw [List.foldl_cons]
    unfold blkStartChan
    split
    · obtain ⟨a, b, p, h⟩ := ih { s with
        ha := clearSlice s.P s.ha ch, hb := clearSlice s.P s.hb ch,
        prevbank := upd s.prevbank ch (bankNow s ch) }
      exact ⟨a, b, p, h⟩
    · exact ih s

/-- `BLKSTART` writes the histories, `PREVBANK` and the active overlay. -/
theorem blkStart_frame (s : State) :
    ∃ a b p u, blkStart s = { s with ha := a, hb := b, prevbank := p, usActive := u } := by
  unfold blkStart activateOverlay
  split
  · obtain ⟨a, b, p, h⟩ := blkStartLoop_frame channels { s with usActive := s.usStage }
    exact ⟨a, b, p, _, h⟩
  · obtain ⟨a, b, p, h⟩ := blkStartLoop_frame channels s
    exact ⟨a, b, p, s.usActive, h⟩

/-! ## The step -/

/-- What one step can do, once: wait, run a decoded instruction, or take a reserved word for a `NOP`. -/
theorem step_cases (s : State) :
    (fetch s = none ∧ step s = .next s) ∨
    (∃ sp w b i, fetch s = some (sp, w, b) ∧ decode sp w = .ok i ∧ step s = exec i b) ∨
    (∃ sp w b e, fetch s = some (sp, w, b) ∧ decode sp w = .error e ∧ step s = .next (reserved b)) := by
  unfold step
  split
  · next h => exact .inl ⟨h, rfl⟩
  · next sp w b h =>
    right
    split
    · next i hd => exact .inl ⟨sp, w, b, i, h, hd, rfl⟩
    · next e hd => exact .inr ⟨sp, w, b, e, h, hd, rfl⟩

/-- What a step fetches, once: nothing, a command word of the host, or the probe. -/
theorem fetch_cases (s : State) :
    (s.probe = none ∧ s.host = [] ∧ fetch s = none) ∨
    (∃ t rest, s.probe = none ∧ s.host = t :: rest ∧ fetch s = some (.command, t.word, begin s t rest)) ∨
    (∃ sp w, s.probe = some (sp, w) ∧ fetch s = some (sp, w, beginProbe s)) := by
  unfold fetch
  split
  · next sp w h => exact .inr (.inr ⟨sp, w, h, rfl⟩)
  · next hp =>
    split
    · next h => exact .inl ⟨hp, h, rfl⟩
    · next t rest h => exact .inr (.inl ⟨t, rest, hp, h, rfl⟩)

end Sys2Proof.Machine
end

