-- ==== Sys2Proof/Laws/PerInstr.lean ====
section
/-! SUPPORT. Statements made instruction by instruction: family `Canonical`, the encoder leaves the fields a
command does not use, and bits 7:0, zero (spec 30_encoding.md rule R71). -/

namespace Sys2Proof

/-- The bits of a command word built from its fields (R71). -/
theorem getLsbD_cmdWord (op ch idx i : Nat) :
    (cmdWord op ch idx).getLsbD i =
      if i < 8 then false
      else if i < 20 then (BitVec.ofNat 12 idx).getLsbD (i - 8)
      else if i < 24 then (BitVec.ofNat 4 ch).getLsbD (i - 20)
      else (BitVec.ofNat 8 op).getLsbD (i - 24) := by
  show BitVec.getLsbD (BitVec.ofNat 8 op ++ BitVec.ofNat 4 ch ++ BitVec.ofNat 12 idx ++ (0 : BitVec 8)) i = _
  rw [BitVec.getLsbD_append, BitVec.getLsbD_append, BitVec.getLsbD_append]
  by_cases h8 : i < 8
  · simp [h8]
  · by_cases h20 : i < 20
    · rw [if_neg h8, if_pos (by omega), if_neg h8, if_pos h20]
    · by_cases h24 : i < 24
      · rw [if_neg h8, if_neg (by omega), if_pos (by omega), if_neg h8, if_neg h20, if_pos h24]
        congr 1
      · rw [if_neg h8, if_neg (by omega), if_neg (by omega), if_neg h8, if_neg h20, if_neg h24]
        congr 1

/-- The opcode of a command word built from its fields. -/
theorem opField_cmdWord (op ch idx : Nat) : opField (cmdWord op ch idx) = op % 256 := by
  have h : (cmdWord op ch idx).extractLsb' 24 8 = BitVec.ofNat 8 op := by
    apply BitVec.eq_of_getLsbD_eq
    intro i hi
    rw [BitVec.getLsbD_extractLsb', getLsbD_cmdWord, if_neg (by omega), if_neg (by omega), if_neg (by omega),
      Nat.add_sub_cancel_left]
    simp [hi]
  unfold opField
  rw [h, BitVec.toNat_ofNat]

/-- A mask that keeps every bit a word has keeps the word. -/
theorem and_eq_self_of {w m : Word} (h : ∀ i, w.getLsbD i = true → m.getLsbD i = true) : w &&& m = w := by
  apply BitVec.eq_of_getLsbD_eq
  intro i _
  rw [BitVec.getLsbD_and]
  cases hw : w.getLsbD i
  · rfl
  · rw [h i hw]; rfl

/-- The low byte of a command word built from its fields is zero. -/
theorem cmdWord_low (op ch idx : Nat) : cmdWord op ch idx &&& 0xFFFFFF00 = cmdWord op ch idx := by
  refine and_eq_self_of fun i h => ?_
  have hi : i < 32 := BitVec.lt_of_getLsbD h
  rw [getLsbD_cmdWord] at h
  split at h
  · cases h
  · have hm : ∀ i : Fin 32, 8 ≤ i.val → (0xFFFFFF00 : Word).getLsbD i.val = true := by decide
    exact hm ⟨i, hi⟩ (by simp only; omega)

/-- With no channel, bits 23:20 of a command word are zero too. -/
theorem cmdWord_noCh (op idx : Nat) : cmdWord op 0 idx &&& 0xFF0FFF00 = cmdWord op 0 idx := by
  refine and_eq_self_of fun i h => ?_
  have hi : i < 32 := BitVec.lt_of_getLsbD h
  rw [getLsbD_cmdWord] at h
  have hm : ∀ i : Fin 32, 8 ≤ i.val → (i.val < 20 ∨ 24 ≤ i.val) →
      (0xFF0FFF00 : Word).getLsbD i.val = true := by decide
  split at h
  · cases h
  · split at h
    · exact hm ⟨i, hi⟩ (by simp only; omega) (by simp only; omega)
    · split at h
      · simp at h
      · exact hm ⟨i, hi⟩ (by simp only; omega) (by simp only; omega)

namespace Laws.Canonical

/-- A command's encoding is the canonical word of R71. -/
def Statement (i : Instr) : Prop :=
  i.wf = true → (encode i).1 = Space.command → canonicalCmd (encode i).2 = (encode i).2

theorem nop : Statement .nop := by unfold Statement; decide
theorem reset : Statement .reset := by unfold Statement; decide
theorem tick : Statement .tick := by unfold Statement; decide
theorem usc : Statement .usc := by unfold Statement; decide
theorem bank : Statement .bank := by unfold Statement; decide

theorem wrg (reg : GReg) : Statement (.wrg reg) := by
  intro _ _
  simp only [encode, canonicalCmd, opField_cmdWord]
  exact cmdWord_noCh _ _

theorem rdg (reg : GReg) : Statement (.rdg reg) := by
  intro _ _
  simp only [encode, canonicalCmd, opField_cmdWord]
  exact cmdWord_noCh _ _

theorem wrc (ch : Nat) (reg : CReg) : Statement (.wrc ch reg) := by
  intro _ _
  simp only [encode, canonicalCmd, opField_cmdWord]
  exact cmdWord_low _ _ _

theorem rdc (ch : Nat) (reg : CReg) : Statement (.rdc ch reg) := by
  intro _ _
  simp only [encode, canonicalCmd, opField_cmdWord]
  exact cmdWord_low _ _ _

theorem wus (idx : Nat) : Statement (.wus idx) := by
  intro _ _
  simp only [encode, canonicalCmd, opField_cmdWord]
  exact cmdWord_noCh _ _

theorem win (lane : Nat) : Statement (.win lane) := by
  intro _ _
  simp only [encode, canonicalCmd, opField_cmdWord]
  exact cmdWord_noCh _ _

theorem rout (lane : Nat) : Statement (.rout lane) := by
  intro _ _
  simp only [encode, canonicalCmd, opField_cmdWord]
  exact cmdWord_noCh _ _

theorem rob (ch idx : Nat) : Statement (.rob ch idx) := by
  intro _ _
  simp only [encode, canonicalCmd, opField_cmdWord]
  exact cmdWord_low _ _ _

theorem filt2p (ch : Nat) : Statement (.filt2p ch) := by intro _ h; cases h
theorem filt1p (ch : Nat) : Statement (.filt1p ch) := by intro _ h; cases h
theorem filtbl (ch : Nat) : Statement (.filtbl ch) := by intro _ h; cases h
theorem fold1 : Statement .fold1 := by intro _ h; cases h
theorem fold2 : Statement .fold2 := by intro _ h; cases h
theorem fold6 : Statement .fold6 := by intro _ h; cases h
theorem fanin2 : Statement .fanin2 := by intro _ h; cases h
theorem fanin3 : Statement .fanin3 := by intro _ h; cases h
theorem fanin6 : Statement .fanin6 := by intro _ h; cases h

end Laws.Canonical

end Sys2Proof
end

