-- ==== Sys2Proof/Laws/Resampler.lean ====
section
/-! SUPPORT. What a run of `REF_LINEAR` produces and consumes, and that it meets the count laws of spec
46_ringbuf_resampler.md rules R215 and R216 from every state whose position is above the consumed samples. -/

namespace Sys2Proof.RefLinear

/-- A position moved down by whole samples. -/
theorem ceil_sub_natCast (t : Rat) (c : Nat) : (t - (c : Rat)).ceil = t.ceil - (c : Int) := by
  apply le_antisymm
  · rw [Rat.ceil_le_iff]
    have := Rat.ceil_le_iff.1 (le_refl t.ceil)
    push_cast
    linarith
  · have : t.ceil ≤ (t - (c : Rat)).ceil + (c : Int) := by
      rw [Rat.ceil_le_iff]
      have := Rat.ceil_le_iff.1 (le_refl (t - (c : Rat)).ceil)
      push_cast
      linarith
    omega

theorem ceil_pos {t : Rat} (h : 0 < t) : 1 ≤ t.ceil := by
  by_contra hc
  have : t ≤ ((0 : Int) : Rat) := Rat.ceil_le_iff.1 (by omega)
  simp only [Int.cast_zero] at this
  linarith

theorem ceil_mono {t u : Rat} (h : t ≤ u) : t.ceil ≤ u.ceil :=
  Rat.ceil_le_iff.2 (h.trans (Rat.ceil_le_iff.1 (le_refl u.ceil)))

theorem stepOf_pos {rin rout : Nat} (hi : 0 < rin) (ho : 0 < rout) : 0 < stepOf rin rout := by
  unfold stepOf
  rw [Rat.mkRat_eq_div]
  have h1 : (0 : Rat) < (rin : Rat) := by exact_mod_cast hi
  have h2 : (0 : Rat) < (rout : Rat) := by exact_mod_cast ho
  simpa using div_pos h1 h2

/-- What the loop of R221 does, once: `L` outputs, the position `L` steps on; the last output is at a position
inside the samples; short of the bound the next one would be outside them. -/
theorem produce_spec (D : Domain) (prev : F) (xs : List F) (step : Rat) (n : Nat) (t : Rat) :
    let r := produce D prev xs step n t
    r.1.length ≤ n ∧ r.2 = t + r.1.length * step ∧
    (0 < r.1.length → t + (r.1.length - 1) * step ≤ xs.length) ∧
    (r.1.length < n → (xs.length : Rat) < r.2) := by
  induction n generalizing t with
  | zero => simp [produce]
  | succ n ih =>
    simp only [produce]
    split
    · next h =>
      have ht : t ≤ xs.length := by
        have := Rat.ceil_le_iff.1 h
        simpa using this
      obtain ⟨h1, h2, h3, h4⟩ := ih (t + step)
      refine ⟨by simp only [List.length_cons]; omega, ?_, ?_, ?_⟩
      · simp only [List.length_cons]; rw [h2]; push_cast; ring
      · intro _
        simp only [List.length_cons]
        push_cast
        rcases Nat.eq_zero_or_pos (produce D prev xs step n (t + step)).1.length with e | e
        · rw [e]; simpa using ht
        · have := h3 e
          linarith
      · intro hl
        exact h4 (by simp only [List.length_cons] at hl; omega)
    · next h =>
      refine ⟨by simp, by simp, by simp, fun _ => ?_⟩
      by_contra hc
      exact h (Rat.ceil_le_iff.2 (by simpa using not_lt.1 hc))

/-- The samples an output at a position inside `xs` reads do not depend on what follows `xs`. -/
theorem interp_append (D : Domain) (prev : F) (xs more : List F) {t : Rat} (h0 : 0 < t)
    (h : t.ceil ≤ Int.ofNat xs.length) : interp D prev (xs ++ more) t = interp D prev xs t := by
  have hp := ceil_pos h0
  have e (j : Nat) (hj : j ≤ (t.ceil - 1).toNat + 1) : sampleAt prev (xs ++ more) j = sampleAt prev xs j := by
    unfold sampleAt
    split
    · rfl
    · next hne =>
      simp only [Int.ofNat_eq_natCast] at h
      rw [List.getD_append _ _ _ _ (by omega)]
  unfold interp
  simp only [e _ (Nat.le_refl _), e _ (Nat.le_succ _)]

/-- A run that fills its bound goes on as a longer one over more samples does (R215 (d)). -/
theorem produce_append (D : Domain) (prev : F) (xs more : List F) {step : Rat} (hs : 0 < step) (n1 n2 : Nat)
    {t : Rat} (h0 : 0 < t) (hl : (produce D prev xs step n1 t).1.length = n1) :
    produce D prev (xs ++ more) step (n1 + n2) t =
      ((produce D prev xs step n1 t).1 ++ (produce D prev (xs ++ more) step n2 (produce D prev xs step n1 t).2).1,
       (produce D prev (xs ++ more) step n2 (produce D prev xs step n1 t).2).2) := by
  induction n1 generalizing t with
  | zero => simp [produce]
  | succ n1 ih =>
    rw [Nat.succ_add]
    simp only [produce] at hl ⊢
    split at hl
    · next h =>
      have h' : t.ceil ≤ Int.ofNat (xs ++ more).length := by
        simp only [Int.ofNat_eq_natCast, List.length_append] at h ⊢; omega
      rw [if_pos h, if_pos h', ih (by linarith) (by simpa using hl), interp_append D prev xs more h0 h]
      rfl
    · simp at hl

/-- The sample at a position, from `c` samples on. -/
theorem sampleAt_drop (prev : F) (xs : List F) (c j : Nat) :
    sampleAt (sampleAt prev xs c) (xs.drop c) j = sampleAt prev xs (j + c) := by
  unfold sampleAt
  rcases Nat.eq_zero_or_pos j with e | e
  · simp [e]
  · rw [if_neg (by omega), if_neg (by omega), List.getD_eq_getElem?_getD, List.getD_eq_getElem?_getD,
      List.getElem?_drop, show c + (j - 1) = j + c - 1 by omega]

/-- Consumed samples are only those below the next position, so dropping them moves everything down. -/
theorem interp_drop (D : Domain) (prev : F) (xs : List F) {c : Nat} {t : Rat}
    (ht : (c : Int) ≤ t.ceil - 1) :
    interp D (sampleAt prev xs c) (xs.drop c) (t - (c : Rat)) = interp D prev xs t := by
  have hk : ((t - (c : Rat)).ceil - 1).toNat + c = (t.ceil - 1).toNat := by rw [ceil_sub_natCast]; omega
  have hf : t - (c : Rat) - Rat.ofInt (Int.ofNat ((t - (c : Rat)).ceil - 1).toNat) =
      t - Rat.ofInt (Int.ofNat (t.ceil - 1).toNat) := by
    rw [← hk]
    show t - (c : Rat) - ((((t - (c : Rat)).ceil - 1).toNat : Nat) : Rat) = t - ((_ + c : Nat) : Rat)
    push_cast
    ring
  unfold interp
  simp only [sampleAt_drop, hf, Nat.add_right_comm _ 1 c, hk]

theorem produce_drop (D : Domain) (prev : F) (xs : List F) {step : Rat} (hs : 0 < step) {c : Nat}
    (hc : c ≤ xs.length) (n : Nat) {t : Rat} (ht : (c : Int) ≤ t.ceil - 1) :
    produce D (sampleAt prev xs c) (xs.drop c) step n (t - (c : Rat)) =
      ((produce D prev xs step n t).1, (produce D prev xs step n t).2 - (c : Rat)) := by
  induction n generalizing t with
  | zero => rfl
  | succ n ih =>
    have hcond : (t - (c : Rat)).ceil ≤ Int.ofNat (xs.drop c).length ↔ t.ceil ≤ Int.ofNat xs.length := by
      rw [ceil_sub_natCast]
      simp only [List.length_drop, Int.ofNat_eq_natCast]
      omega
    simp only [produce, hcond]
    split
    · have hm := ceil_mono (by linarith : t ≤ t + step)
      rw [interp_drop D prev xs ht, show t - (c : Rat) + step = t + step - (c : Rat) by ring,
        ih (by omega)]
    · rfl

/-- The first `n` outputs all come exactly where the last of them is inside the samples. -/
theorem length_eq_iff (D : Domain) (prev : F) (xs : List F) {step : Rat} (hs : 0 < step) (n : Nat) (t : Rat) :
    (produce D prev xs step n t).1.length = n ↔ n = 0 ∨ t + ((n : Rat) - 1) * step ≤ xs.length := by
  obtain ⟨h1, h2, h3, h4⟩ := produce_spec D prev xs step n t
  constructor
  · intro e
    rcases Nat.eq_zero_or_pos n with h | h
    · exact .inl h
    · exact .inr (by have := h3 (by omega); rwa [e] at this)
  · rintro (h | h)
    · omega
    · by_contra hne
      have hlt : (produce D prev xs step n t).1.length < n := by omega
      have h5 := h4 hlt
      rw [h2] at h5
      have h6 : ((produce D prev xs step n t).1.length : Rat) ≤ (n : Rat) - 1 := by
        have : ((produce D prev xs step n t).1.length : Rat) + 1 ≤ (n : Rat) := by exact_mod_cast hlt
        linarith
      have := mul_le_mul_of_nonneg_right h6 hs.le
      linarith

theorem need_le_iff {st : SrcState} {rin rout n : Nat} (hn : 0 < n) (m : Nat) :
    need st rin rout n ≤ m ↔ st.t + ((n : Rat) - 1) * stepOf rin rout ≤ m := by
  have e : Rat.ofInt (Int.ofNat (n - 1)) = (n : Rat) - 1 := by
    show ((n - 1 : Nat) : Rat) = _
    rw [Nat.cast_sub hn, Nat.cast_one]
  unfold need
  rw [if_neg (by omega), e]
  have := @Rat.ceil_le_iff (st.t + ((n : Rat) - 1) * stepOf rin rout) (m : Int)
  rw [show ((m : Int) : Rat) = (m : Rat) by norm_cast] at this
  rw [← this]
  omega

/-- The states the kernel can be in: the next output is above the consumed samples (R220). -/
def Ok (st : SrcState) : Prop := 0 < st.t

/-- What a run does, once, in terms of its loop. -/
theorem run_eq (D : Domain) (st : SrcState) (rin rout : Nat) (xs : List F) (n : Nat) :
    let r := produce D (st.hist.headD Const.zero) xs (stepOf rin rout) n st.t
    let c := min (r.2.ceil - 1).toNat xs.length
    run D st rin rout xs n =
      ⟨⟨r.2 - (c : Rat), if 1 ≤ c then [xs.getD (c - 1) Const.zero] else st.hist⟩, c, r.1⟩ := rfl

theorem end_ge (D : Domain) (prev : F) (xs : List F) {step : Rat} (hs : 0 < step) (n : Nat) (t : Rat) :
    t ≤ (produce D prev xs step n t).2 := by
  have h2 := (produce_spec D prev xs step n t).2.1
  rw [h2]
  have : 0 ≤ ((produce D prev xs step n t).1.length : Rat) * step := by positivity
  linarith

/-- A run keeps the position at most any bound that is at least 1 and the step. -/
theorem run_t_le (D : Domain) {st : SrcState} {rin rout : Nat} (hi : 0 < rin) (ho : 0 < rout) (xs : List F) (n : Nat)
    {bound : Rat} (ht : st.t ≤ bound) (h1 : 1 ≤ bound) (hb : stepOf rin rout ≤ bound) :
    (run D st rin rout xs n).st.t ≤ bound := by
  have hs := stepOf_pos hi ho
  obtain ⟨-, h2, h3, -⟩ := produce_spec D (st.hist.headD Const.zero) xs (stepOf rin rout) n st.t
  rw [run_eq]
  generalize produce D (st.hist.headD Const.zero) xs (stepOf rin rout) n st.t = r at h2 h3
  show r.2 - ((min (r.2.ceil - 1).toNat xs.length : Nat) : Rat) ≤ bound
  rcases Nat.le_total (r.2.ceil - 1).toNat xs.length with h | h
  · rw [Nat.min_eq_left h]
    have hc : r.2 ≤ (r.2.ceil : Rat) := Rat.ceil_le_iff.1 (le_refl _)
    have : (r.2.ceil : Rat) - 1 ≤ ((r.2.ceil - 1).toNat : Rat) := by
      have : r.2.ceil - 1 ≤ ((r.2.ceil - 1).toNat : Int) := Int.self_le_toNat _
      exact_mod_cast this
    linarith
  · rw [Nat.min_eq_right h]
    rcases Nat.eq_zero_or_pos r.1.length with e | e
    · rw [e] at h2
      have : (0 : Rat) ≤ (xs.length : Rat) := by positivity
      simp at h2
      linarith
    · have := h3 e
      rw [h2]
      linarith

/-- `REF_LINEAR` meets the count laws, in every numeric domain. -/
theorem countLaws (D : Domain) : (kernel D).CountLaws Ok where
  init_ok := by show (0 : Rat) < 1; norm_num
  run_ok st rin rout xs n hi ho ok := by
    show 0 < (run D st rin rout xs n).st.t
    rw [run_eq]
    have hp : 0 < st.t := ok
    have he := end_ge D (st.hist.headD Const.zero) xs (stepOf_pos hi ho) n st.t
    generalize produce D (st.hist.headD Const.zero) xs (stepOf rin rout) n st.t = r at he
    have hc := ceil_pos (lt_of_lt_of_le hp he)
    show 0 < r.2 - ((min (r.2.ceil - 1).toNat xs.length : Nat) : Rat)
    by_contra hle
    have h1 : r.2.ceil ≤ ((min (r.2.ceil - 1).toNat xs.length : Nat) : Int) := by
      rw [Rat.ceil_le_iff]
      push_cast at hle ⊢
      linarith
    have h2 : (min (r.2.ceil - 1).toNat xs.length : Nat) ≤ (r.2.ceil - 1).toNat := Nat.min_le_left _ _
    omega
  bounds st rin rout xs n hi ho ok :=
    ⟨Nat.min_le_right _ _, (produce_spec D (st.hist.headD Const.zero) xs (stepOf rin rout) n st.t).1⟩
  production st rin rout xs n hi ho ok h := by
    show (produce D (st.hist.headD Const.zero) xs (stepOf rin rout) n st.t).1.length = n
    rw [length_eq_iff D _ xs (stepOf_pos hi ho)]
    rcases Nat.eq_zero_or_pos n with e | e
    · exact .inl e
    · exact .inr ((need_le_iff e _).1 h)
  consumption st rin rout xs n hi ho ok h := by
    have hs := stepOf_pos hi ho
    have hp : 0 < st.t := ok
    obtain ⟨h1, h2, h3, h4⟩ := produce_spec D (st.hist.headD Const.zero) xs (stepOf rin rout) n st.t
    change yld st rin rout xs.length ≤ n at h
    show min ((produce D (st.hist.headD Const.zero) xs (stepOf rin rout) n st.t).2.ceil - 1).toNat xs.length =
        xs.length ∧
      (produce D (st.hist.headD Const.zero) xs (stepOf rin rout) n st.t).1.length = yld st rin rout xs.length
    have he := end_ge D (st.hist.headD Const.zero) xs hs n st.t
    generalize produce D (st.hist.headD Const.zero) xs (stepOf rin rout) n st.t = r at h1 h2 h3 h4 he ⊢
    have key : (xs.length : Rat) < r.2 ∧ r.1.length = yld st rin rout xs.length := by
      unfold yld at h ⊢
      change (if (xs.length : Rat) < st.t then 0 else
        ((xs.length - st.t : Rat) / stepOf rin rout).floor.toNat + 1) ≤ n at h
      change _ ∧ r.1.length = (if (xs.length : Rat) < st.t then 0 else
        ((xs.length - st.t : Rat) / stepOf rin rout).floor.toNat + 1)
      split at h
      · next hlt =>
        rw [if_pos hlt]
        refine ⟨lt_of_lt_of_le hlt he, ?_⟩
        by_contra hne
        have h3' := h3 (by omega)
        have h5 : (1 : Rat) ≤ r.1.length := by exact_mod_cast (by omega : 1 ≤ r.1.length)
        have : 0 ≤ ((r.1.length : Rat) - 1) * stepOf rin rout := mul_nonneg (by linarith) hs.le
        linarith
      · next hge =>
        rw [if_neg hge]
        have hq : 0 ≤ (xs.length - st.t : Rat) / stepOf rin rout := div_nonneg (by linarith) hs.le
        generalize hqd : (xs.length - st.t : Rat) / stepOf rin rout = q at h hq ⊢
        have hq' : (xs.length - st.t : Rat) = q * stepOf rin rout := by
          rw [← hqd, div_mul_cancel₀ _ hs.ne']
        have hf0 : 0 ≤ q.floor := Rat.le_floor_iff.2 (by simpa using hq)
        have hfl : (q.floor : Rat) ≤ q := Rat.le_floor_iff.1 (le_refl _)
        have hfu : q < (q.floor : Rat) + 1 := by
          by_contra hc
          have := (Rat.le_floor_iff (x := q.floor + 1) (a := q)).2 (by push_cast; linarith)
          omega
        have hN : ((q.floor.toNat : Nat) : Rat) = (q.floor : Rat) := by
          exact_mod_cast Int.toNat_of_nonneg hf0
        have up : r.1.length ≤ q.floor.toNat + 1 := by
          by_contra hgt
          have h3' := h3 (by omega)
          have h5 : (q.floor : Rat) + 1 ≤ (r.1.length : Rat) - 1 := by
            have : ((q.floor.toNat + 2 : Nat) : Rat) ≤ r.1.length := by exact_mod_cast (by omega)
            push_cast at this
            rw [hN] at this
            linarith
          have h6 := mul_le_mul_of_nonneg_right h5 hs.le
          have h7 := mul_lt_mul_of_pos_right hfu hs
          linarith
        have lo : q.floor.toNat + 1 ≤ r.1.length := by
          by_contra hlt
          have h4' := h4 (by omega)
          rw [h2] at h4'
          have h5 : (r.1.length : Rat) ≤ (q.floor : Rat) := by
            rw [← hN]
            exact_mod_cast (by omega : r.1.length ≤ q.floor.toNat)
          have h6 := mul_le_mul_of_nonneg_right (h5.trans hfl) hs.le
          linarith
        have e : r.1.length = q.floor.toNat + 1 := by omega
        refine ⟨?_, e⟩
        rw [h2, e]
        push_cast
        rw [hN]
        have h7 := mul_lt_mul_of_pos_right hfu hs
        linarith
    refine ⟨?_, key.2⟩
    have : (xs.length : Int) < r.2.ceil := by
      by_contra hc
      have := Rat.ceil_le_iff.1 (not_lt.1 hc)
      push_cast at this
      linarith [key.1]
    omega
  streaming st rin rout xs more n1 n2 hi ho ok hl := by
    have hs := stepOf_pos hi ho
    have hp : 0 < st.t := ok
    change (produce D (st.hist.headD Const.zero) xs (stepOf rin rout) n1 st.t).1.length = n1 at hl
    show run D st rin rout (xs ++ more) (n1 + n2) =
      (let r1 := run D st rin rout xs n1
       let r2 := run D r1.st rin rout (xs.drop r1.consumed ++ more) n2
       ⟨r2.st, r1.consumed + r2.consumed, r1.ys ++ r2.ys⟩)
    have hall := produce_append D (st.hist.headD Const.zero) xs more hs n1 n2 hp hl
    have he := end_ge D (st.hist.headD Const.zero) xs hs n1 st.t
    simp only [run_eq, hall]
    generalize produce D (st.hist.headD Const.zero) xs (stepOf rin rout) n1 st.t = r at he
    have hc1 := ceil_pos (lt_of_lt_of_le hp he)
    generalize hc : min (r.2.ceil - 1).toNat xs.length = c
    have hcx : c ≤ xs.length := by omega
    have hct : (c : Int) ≤ r.2.ceil - 1 := by omega
    have hdrop : xs.drop c ++ more = (xs ++ more).drop c := by rw [List.drop_append_of_le_length hcx]
    have hprev : (if 1 ≤ c then [xs.getD (c - 1) Const.zero] else st.hist).headD Const.zero =
        sampleAt (st.hist.headD Const.zero) (xs ++ more) c := by
      unfold sampleAt
      rcases Nat.eq_zero_or_pos c with e | e
      · simp [e]
      · rw [if_pos (show 1 ≤ c from e), if_neg (by omega), List.getD_append _ _ _ _ (by omega)]; rfl
    have hcy : c ≤ (xs ++ more).length := by simp; omega
    have he2 := end_ge D (st.hist.headD Const.zero) (xs ++ more) hs n2 r.2
    rw [hprev, hdrop, produce_drop D _ (xs ++ more) hs hcy n2 hct]
    generalize produce D (st.hist.headD Const.zero) (xs ++ more) (stepOf rin rout) n2 r.2 = q at he2
    have hm := ceil_mono he2
    simp only [ceil_sub_natCast, List.length_drop]
    have hsum : min (q.2.ceil - 1).toNat (xs ++ more).length =
        c + min (q.2.ceil - c - 1).toNat ((xs ++ more).length - c) := by omega
    rw [hsum]
    generalize min (q.2.ceil - c - 1).toNat ((xs ++ more).length - c) = d
    have hh : (if 1 ≤ c + d then [(xs ++ more).getD (c + d - 1) Const.zero] else st.hist) =
        if 1 ≤ d then [((xs ++ more).drop c).getD (d - 1) Const.zero]
          else if 1 ≤ c then [xs.getD (c - 1) Const.zero] else st.hist := by
      rcases Nat.eq_zero_or_pos d with e | e
      · subst e
        rw [Nat.add_zero, if_neg (by omega : ¬ 1 ≤ 0)]
        split
        · rw [List.getD_append _ _ _ _ (by omega)]
        · rfl
      · rw [if_pos (by omega), if_pos (show 1 ≤ d from e), List.getD_eq_getElem?_getD, List.getD_eq_getElem?_getD,
          List.getElem?_drop, show c + (d - 1) = c + d - 1 by omega]
    rw [hh]
    congr 2
    push_cast
    ring
  need_least st rin rout n m hi ho ok h := by
    rcases Nat.eq_zero_or_pos n with e | e
    · subst e; exact Nat.zero_le m
    · have hl := h (List.replicate m Const.zero) (by simp)
      change (produce D (st.hist.headD Const.zero) (List.replicate m Const.zero) (stepOf rin rout) n st.t).1.length = n at hl
      rw [length_eq_iff D _ _ (stepOf_pos hi ho), List.length_replicate] at hl
      exact (need_le_iff e m).2 (hl.resolve_left (by omega))

/-- The last output a run of `m` samples yields lies inside them (46_ringbuf_resampler.md R221). -/
theorem yld_last_le {st : SrcState} {rin rout : Nat} (hi : 0 < rin) (ho : 0 < rout) (ok : Ok st) (m : Nat)
    (h : 0 < yld st rin rout m) : st.t + ((yld st rin rout m : Nat) - 1 : Rat) * stepOf rin rout ≤ m := by
  have l : (produce Domain.binary32 (st.hist.headD Const.zero) (List.replicate m Const.zero) (stepOf rin rout)
      (yld st rin rout m) st.t).1.length = yld st rin rout m := by
    have := ((countLaws Domain.binary32).consumption st rin rout (List.replicate m Const.zero) (yld st rin rout m)
      hi ho ok (by rw [List.length_replicate]; exact le_refl (yld st rin rout m))).2
    rwa [List.length_replicate] at this
  have p := (produce_spec Domain.binary32 (st.hist.headD Const.zero) (List.replicate m Const.zero) (stepOf rin rout)
    (yld st rin rout m) st.t).2.2.1
  rw [l, List.length_replicate] at p
  exact p h

end Sys2Proof.RefLinear
end

