-- ==== Sys2Proof/Laws/Runs.lean ====
section
/-! SUPPORT. The recurrences run over a block as the relations of Sys2Proof/Safety.lean, slots read back after a
slot write, and the bits of a composed word. -/

namespace Sys2Proof.Machine

/-- The bits of a composed word. -/
theorem getLsbD_bitsWord (f : Nat → Bool) (n i : Nat) :
    (bitsWord f n).getLsbD i = (decide (i < n) && f i) := by
  induction n generalizing i with
  | zero => simp [bitsWord]
  | succ n ih =>
    simp only [bitsWord, BitVec.getLsbD_cons, ih]
    by_cases h : i = n
    · subst h; simp
    · rw [if_neg h, show decide (i < n) = decide (i < n + 1) from decide_eq_decide.2 (by omega)]

/-- `RESON` over a block (41_twopass.md R136). -/
theorem runBlock_reson (D : Domain) (c0 c1 c2 : F) (h : Slot) (xs : List Int) :
    ResonTrace D c0 c1 c2 h (xs.map D.itof) (runBlock D (reson D c0 c1 c2) h xs).2
      (runBlock D (reson D c0 c1 c2) h xs).1 := by
  induction xs generalizing h with
  | nil => exact .nil h
  | cons x xs ih => exact .cons _ _ _ _ _ _ rfl (ih _)

/-- `BLRES` over a block (43_blended.md R163). -/
theorem runBlock_blres (D : Domain) (k : Triple) (h : Slot) (xs : List Int) :
    BlresTrace D k.c0 k.c1 k.c2 h (xs.map D.itof) (runBlock D (blres D k) h xs).2 (runBlock D (blres D k) h xs).1 := by
  induction xs generalizing h with
  | nil => exact .nil h
  | cons x xs ih => exact .cons _ _ _ _ _ _ rfl (ih _)

/-- The blended-table run leaves element 2 of its slot. -/
theorem runBlock_blres_h2 (D : Domain) (k : Triple) (h : Slot) (xs : List Int) :
    (runBlock D (blres D k) h xs).1.h2 = h.h2 := by
  induction xs generalizing h with
  | nil => rfl
  | cons x xs ih => exact ih _

/-- The cascade over a block: stage A on the samples, stage B on stage A's outputs (41_twopass.md R137). -/
theorem runBlock_cascade (D : Domain) (k : TwoPassCoefs) (h : Slot × Slot) (xs : List Int) :
    ∃ yA yB : List F,
      ResonTrace D k.c0a k.c1 k.c2a h.1 (xs.map D.itof) yA (runBlock D (cascade D k) h xs).1.1 ∧
      ResonTrace D k.c0 k.c1 k.c2 h.2 yA yB (runBlock D (cascade D k) h xs).1.2 ∧
      (runBlock D (cascade D k) h xs).2 = List.zipWith (fun a b => D.sub (D.mul k.ratioA a) b) yA yB := by
  induction xs generalizing h with
  | nil => exact ⟨[], [], .nil _, .nil _, rfl⟩
  | cons x xs ih =>
    obtain ⟨yA, yB, hA, hB, hy⟩ := ih (cascade D k h (D.itof x)).1
    exact ⟨_ :: yA, _ :: yB, .cons _ _ _ _ _ _ rfl hA, .cons _ _ _ _ _ _ rfl hB, congrArg (_ :: ·) hy⟩

/-! ## Slots read back -/

/-- A slot reads back as written. -/
theorem readSlot_writeSlot_same (P : Params) {m : Memory} (h : m.wf = true) (ch : Fin NC) (sc nt : Nat)
    (v : Slot) : readSlot P (writeSlot P m ch sc nt v) ch sc nt = v := by
  have e1 : histKey P ch sc nt 1 ≠ histKey P ch sc nt 2 := by simp only [histKey]; omega
  have e0 : histKey P ch sc nt 0 ≠ histKey P ch sc nt 2 := by simp only [histKey]; omega
  have e0' : histKey P ch sc nt 0 ≠ histKey P ch sc nt 1 := by simp only [histKey]; omega
  simp only [readSlot, read_writeSlot P h, if_neg e1, if_neg e0, if_neg e0', if_true]

/-- A slot whose keys another memory shares reads alike there. -/
theorem readSlot_congr (P : Params) {m w : Memory} (ch : Fin NC) (sc nt : Nat)
    (h : ∀ k, k < 3 → w.read (histKey P ch sc nt k) = m.read (histKey P ch sc nt k)) :
    readSlot P w ch sc nt = readSlot P m ch sc nt := by
  simp only [readSlot, h 0 (by decide), h 1 (by decide), h 2 (by decide)]

/-- A slot write leaves every key that is not one of its own. -/
theorem read_writeSlot_other (P : Params) {m : Memory} (h : m.wf = true) (ch : Fin NC) (sc nt : Nat) (v : Slot)
    {j : Nat} (hj : ¬ slotKey P ch sc nt 3 j) : (writeSlot P m ch sc nt v).read j = m.read j := by
  rw [read_writeSlot P h, if_neg fun e => hj ⟨2, by decide, e⟩, if_neg fun e => hj ⟨1, by decide, e⟩,
    if_neg fun e => hj ⟨0, by decide, e⟩]

/-- The blended-table slot write leaves every key that is not one of its first two. -/
theorem read_writeSlot01_other (P : Params) {m : Memory} (h : m.wf = true) (ch : Fin NC) (sc nt : Nat)
    (v : Slot) {j : Nat} (hj : ¬ slotKey P ch sc nt 2 j) : (writeSlot01 P m ch sc nt v).read j = m.read j := by
  rw [read_writeSlot01 P h, if_neg fun e => hj ⟨1, by decide, e⟩, if_neg fun e => hj ⟨0, by decide, e⟩]

/-- The blended-table slot write, read back: element 2 is the one that was there. -/
theorem readSlot_writeSlot01_same (P : Params) {m : Memory} (h : m.wf = true) (ch : Fin NC) (sc nt : Nat)
    (v : Slot) (h2 : v.h2 = (readSlot P m ch sc nt).h2) :
    readSlot P (writeSlot01 P m ch sc nt v) ch sc nt = v := by
  have e1 : histKey P ch sc nt 2 ≠ histKey P ch sc nt 1 := by simp only [histKey]; omega
  have e0 : histKey P ch sc nt 2 ≠ histKey P ch sc nt 0 := by simp only [histKey]; omega
  have e0' : histKey P ch sc nt 0 ≠ histKey P ch sc nt 1 := by simp only [histKey]; omega
  simp only [readSlot] at h2
  simp only [readSlot, read_writeSlot01 P h, if_neg e1, if_neg e0, if_neg e0', if_true, ← h2]

/-- A key of one slot is no key of another slot of the same channel. -/
theorem not_slotKey_of_ne (P : Params) (ch : Fin NC) {sc nt sc' nt' k : Nat} (n : Nat) (hs : sc < P.ns)
    (hn : nt < P.nf) (hs' : sc' < P.ns) (hn' : nt' < P.nf) (hk : k < 3) (h3 : n ≤ 3)
    (hne : (sc, nt) ≠ (sc', nt')) : ¬ slotKey P ch sc' nt' n (histKey P ch sc nt k) := by
  rintro ⟨j, hj, e⟩
  obtain ⟨-, h1, h2, -⟩ := histKey_inj P hs hn hk hs' hn' (by omega : j < 3) e
  exact hne (by rw [h1, h2])

/-! ## Lanes -/

/-- An input lane below eighteen is its register. -/
theorem lane_of_lt (s : State) {k : Nat} (h : k < 18) : lane s k = look s.inlane ⟨k, h⟩ := dif_pos h

/-- A property of all six channels, as `List.all` over them. -/
theorem all_channels (p : Fin NC → Bool) : channels.all p = true ↔ ∀ ch, p ch = true := by
  rw [List.all_eq_true]
  exact ⟨fun h ch => h ch (mem_channels ch), fun h ch _ => h ch⟩

/-- A property of some channel, as `List.any` over them. -/
theorem any_channels (p : Fin NC → Bool) : channels.any p = true ↔ ∃ ch, p ch = true := by
  rw [List.any_eq_true]
  exact ⟨fun ⟨ch, _, h⟩ => ⟨ch, h⟩, fun ⟨ch, h⟩ => ⟨ch, mem_channels ch, h⟩⟩

end Sys2Proof.Machine
end

