-- ==== Sys2Proof/Tests/Slice0.lean ====
section
/-! SUPPORT. The model's own tests. Expected results are the spec's: 95_test_vectors.md, the worked trace of the
source (section 2.1 there), and words written out from 30_encoding.md. Real numbers are given as the binary32
words the spec prints, or as exact rationals. -/

namespace Sys2Proof.Machine.Test

set_option Elab.async false

/-! ## Helpers -/

/-- The power-on state with the test configuration (95_test_vectors.md section 1). -/
def s0 : State := State.powerOn .tcfg

/-- A state with a data word at the interface. -/
def withData (s : State) (w : Word) : State := { s with wdata := w }

/-- The state after an instruction. -/
def after (i : Instr) (s : State) : State :=
  match exec i s with
  | .next t    => t
  | .fault _   => s
  | .refused _ => s

/-- Channel 0 with other registers. -/
def chan0 (f : Chan → Chan) : State := s0.setChan 0 (f (look s0.chan 0))

/-- A state whose channel 0 has an engine input. -/
def fed (s : State) (xs : List Int) : State := s.setBlk { s.blk with xin := upd s.blk.xin 0 xs }

/-- The rationals a list of finite values stands for. -/
def vals (xs : List F) : List Rat := xs.map F.val

/-- The rationals of a slot. -/
def slotVals (h : Slot) : List Rat := vals [h.h0, h.h1, h.h2]

/-- The result word after an instruction. -/
def rd (i : Instr) (s : State) : Word := (after i s).rdata

/-! ## Well-formedness: an ill-formed term for each check is refused -/

theorem test_wf_greg_defined_number : (Instr.wrg (.undefined 8)).wf = false := by decide
theorem test_wf_greg_too_wide : (Instr.rdg (.undefined 4096)).wf = false := by decide
theorem test_wf_creg_defined_number : (Instr.rdc 0 (.undefined 15)).wf = false := by decide
theorem test_wf_creg_too_wide : (Instr.wrc 0 (.undefined 4096)).wf = false := by decide
theorem test_wf_ch_too_wide : (Instr.wrc 16 .q).wf = false ∧ (Instr.rdc 16 .q).wf = false := by decide
theorem test_wf_rob_ch_too_wide : (Instr.rob 16 0).wf = false := by decide
theorem test_wf_rob_idx_too_wide : (Instr.rob 0 4096).wf = false := by decide
theorem test_wf_idx_too_wide :
    (Instr.wus 4096).wf = false ∧ (Instr.win 4096).wf = false ∧ (Instr.rout 4096).wf = false := by decide
theorem test_wf_engine_channel :
    (Instr.filt2p 6).wf = false ∧ (Instr.filt1p 6).wf = false ∧ (Instr.filtbl 6).wf = false := by decide

/-! ## Decoding: every constructor from a word written out from its encoding (R71, R72, R76 to R78) -/

theorem test_decode_nop : decode .command 0x00000000 = .ok .nop := by decide
theorem test_decode_reset : decode .command 0x01000000 = .ok .reset := by decide
/-- 3.1: `ch`, `idx` and `zero` ignored. -/
theorem test_decode_tick : decode .command 0x02ABCDEF = .ok .tick := by decide
theorem test_decode_usc : decode .command 0x03000000 = .ok .usc := by decide
theorem test_decode_bank : decode .command 0x04000000 = .ok .bank := by decide
/-- 3.1: the `ch` field ignored. -/
theorem test_decode_wrg : decode .command 0x10F00200 = .ok (.wrg .glide) := by decide
theorem test_decode_rdg : decode .command 0x11000800 = .ok (.rdg .status) := by decide
/-- 3.1: the `zero` field ignored. -/
theorem test_decode_wrc : decode .command 0x122005AB = .ok (.wrc 2 .q) := by decide
theorem test_decode_rdc : decode .command 0x13500F00 = .ok (.rdc 5 .prevbank) := by decide
theorem test_decode_wus : decode .command 0x14000400 = .ok (.wus 4) := by decide
theorem test_decode_win : decode .command 0x20001100 = .ok (.win 17) := by decide
theorem test_decode_rout : decode .command 0x21000500 = .ok (.rout 5) := by decide
theorem test_decode_rob : decode .command 0x22100300 = .ok (.rob 1 3) := by decide
theorem test_decode_filt2p : decode .algsel 0b01 = .ok (.filt2p 0) ∧ decode .algsel 0b11 = .ok (.filt2p 0) := by
  decide
theorem test_decode_filt1p : decode .algsel 0b00 = .ok (.filt1p 0) ∧ decode .algsel 0x500 = .ok (.filt1p 5) := by
  decide
theorem test_decode_filtbl : decode .algsel 0b10 = .ok (.filtbl 0) := by decide
theorem test_decode_fold1 : decode .outmode 0b00 = .ok .fold1 := by decide
theorem test_decode_fold2 : decode .outmode 0b01 = .ok .fold2 := by decide
theorem test_decode_fold6 : decode .outmode 0b10 = .ok .fold6 ∧ decode .outmode 0b11 = .ok .fold6 := by decide
theorem test_decode_fanin2 : decode .inch 0 = .ok .fanin2 ∧ decode .inch 1 = .ok .fanin2 := by decide
theorem test_decode_fanin3 : decode .inch 3 = .ok .fanin3 := by decide
theorem test_decode_fanin6 : decode .inch 2 = .ok .fanin6 ∧ decode .inch 0xFFFFFFFF = .ok .fanin6 := by decide
theorem test_decode_reserved : decode .command 0xFFFFFFFF = .error (.reservedOpcode 0xFF) := by decide
theorem test_encode_wrc : encode (.wrc 2 .q) = (.command, 0x12200500) := by decide
theorem test_listing_wrc : (Instr.wrc 2 .q).listing 0x45000000 = "WRC 2, Q, 0x45000000" := by decide
/-- R82: `USW 1, 1, 0.5` with `NF = 3` is `WUS 4, 0.5`. -/
theorem test_expand_usw :
    Pseudo.expand 3 (.usw 1 1 0x3F000000) = [⟨0x14000400, 0x3F000000⟩] := by decide
/-- R82: a `FRAME`. -/
theorem test_expand_frame : Pseudo.expand 3 (.frame [1, 2]) =
    [⟨0x20000000, 1⟩, ⟨0x20000100, 2⟩, ⟨0x02000000, 0⟩] := by decide

/-! ## The numeric domain -/

/-- R7, 3.4: `C1_MAX` is exactly 10980653/8388608. -/
theorem test_c1max : F.val Const.c1Max = mkRat 10980653 8388608 := by decide +kernel
/-- R7: the constants of the two-pass algorithm. -/
theorem test_constants : vals [Const.zero, Const.one, Const.qaMul, Const.qaCap, Const.qbBase, Const.qbKnee,
    Const.qbSlope] = [0, 1, 2, 4095, 1000, 3900, 15] := by decide +kernel
/-- R10: 16777216 + 1 is a tie and goes to the even 16777216. -/
theorem test_add_tie_to_even : Domain.binary32.add 0x4B800000 0x3F800000 = 0x4B800000 := by decide +kernel
/-- R10: 1/3 rounds to 0x3EAAAAAB. -/
theorem test_div_rounds : Domain.binary32.div 0x3F800000 0x40400000 = 0x3EAAAAAB := by decide +kernel

/-! ## One step of each command (95_test_vectors.md 3.1 unless said) -/

theorem test_nop_step : step (s0.withFetchWord 32 0x00000000) = .next { s0 with draws := 1 } := by rfl
/-- 3.1, the first line: a reserved opcode. -/
theorem test_reserved_step : step { s0 with host := [⟨0x05000000, 0x12345678⟩], rdata := 7 } =
    .next { s0 with wdata := 0x12345678, draws := 1 } := by rfl
theorem test_wrg_algsel_sets_flag : (after (.wrg .algsel) (withData s0 1)).algChanged = true := by decide +kernel
theorem test_wrg_algsel_same_alg : (after (.wrg .algsel) { s0 with algsel := 1, wdata := 3 }).algChanged = false := by
  decide +kernel
theorem test_rdg_hostrate : rd (.rdg .hostrate) s0 = 0x00017700 := by decide +kernel
theorem test_rdg_status_bits :
    rd (.rdg .status) { s0 with fired := true, outvalid := upd s0.outvalid 0 true } = 0x00010002 := by
  decide +kernel
theorem test_wrc_lock_keeps_bit0 :
    (look (after (.wrc 2 .lock) (withData s0 0xFFFFFFFE)).chan 2).lock = false := by decide +kernel
theorem test_wrc_bank_unclamped :
    (look (after (.wrc 2 .bank) (withData s0 0xFFFFFFFF)).chan 2).bank = 0xFFFFFFFF := by decide +kernel
theorem test_rdc_level : rd (.rdc 4 .level) s0 = 0x3F800000 := by decide +kernel
theorem test_rdc_channel6 : rd (.rdc 6 .level) s0 = 0 := by decide +kernel
/-- R111's example. -/
theorem test_bank_locked : (look (after .bank { (s0.setChan 1 { Chan.default with lock := true }) with
    wdata := 1 }).chan 1).bank = 0 := by decide +kernel
theorem test_bank_unlocked : (look (after .bank (withData s0 1)).chan 3).bank = 1 := by decide +kernel
/-- R251's example. -/
theorem test_reset_q : (look (after .reset (s0.setChan 2 { Chan.default with q := 0x45000000 })).chan 2).q = 0 := by
  decide +kernel
theorem test_reset_keeps_flags : (after .reset { s0 with algChanged := true }).algChanged = true := by decide +kernel
/-- R109's example. -/
theorem test_usc : rd (.rdg .flags) (after .usc s0) = 2 := by decide +kernel
/-- R108's example, `US_STAGE[1][1] = 0.5`. -/
theorem test_wus : (after (.wus 4) (withData s0 0x3F000000)).usStage.read (overlayKey tcfg 1 1) = 0x3F000000 := by
  decide +kernel
theorem test_wus_out_of_range : (after (.wus 6) (withData s0 0x3F800000)).usStage = [] := by decide +kernel
/-- R184's example. -/
theorem test_win : look (after (.win 0) (withData s0 0x3E800000)).inlane 0 = 0x3E800000 := by decide +kernel
theorem test_rout_out_of_range : rd (.rout 6) s0 = 0 := by decide +kernel
theorem test_rout : rd (.rout 0) { s0 with outlane := upd s0.outlane 0 0xC0700000 } = 0xC0700000 := by decide +kernel
theorem test_rob : rd (.rob 0 3) { s0 with out := upd s0.out 0 [0, 0, 0, 0xC2020000] } = 0xC2020000 := by
  decide +kernel
theorem test_rob_out_of_block : rd (.rob 0 4) s0 = 0 := by decide +kernel
/-- R180's example: the first tick after power-on returns 0. -/
theorem test_tick_first : rd .tick s0 = 0 := by decide +kernel
/-- R180's example: the fourth returns 0x00010002. -/
theorem test_tick_fourth : rd .tick { s0 with inbuf := upd (upd s0.inbuf 0 [0, 0, 0]) 1 [0, 0, 0] } = 0x00010002 := by
  decide +kernel

/-! ## The resonators, compositor, quantizer, fan-in, fold and resampler -/

/-- 2.1, the source's worked trace: `c0 = 0.5`, `c1 = 0`, `c2 = 1`, input 1, 0, 0, 0. -/
theorem test_worked_trace :
    vals (runBlock Domain.binary32 (reson Domain.binary32 0x3F000000 0x00000000 0x3F800000) ⟨0, 0, 0⟩ [1, 0, 0, 0]).2 =
      [-1, mkRat (-1) 2, mkRat (-1) 4, mkRat (-1) 8] := by decide +kernel
/-- 3.5, second row. -/
theorem test_filt1p : vals (look (after (.filt1p 0) (fed (chan0 fun c =>
      { c with q := 0x45000000, scale := 1 }) [64, 0, 0, 0])).blk.yp 0) = [-108, 0, 27, 27] := by decide +kernel
/-- 3.5, morph and glide: `PITCH = 7/16`. -/
theorem test_filt1p_glide : F.val (look (after (.filt1p 0) { (fed (chan0 fun c => { c with
      q := 0x45000000, scale := 1, morph := 0x3E800000, fadeNote := 1 }) [64, 0, 0, 0]) with
      glide := true }).pitch 0) = mkRat 7 16 := by decide +kernel
/-- 3.3, the row `q = 2560`: the output. -/
theorem test_filt2p : vals (look (after (.filt2p 0) (fed (chan0 fun c =>
      { c with q := 0x45200000, note := 1 }) [64, -32, 0, 16])).blk.yp 0) =
    [mkRat (-375) 8, mkRat 315 32, mkRat 13245 2048, mkRat (-14235) 2048] := by decide +kernel
/-- 3.3, the row `q = 2560`: stage B's slot. -/
theorem test_filt2p_hb : slotVals (readSlot tcfg (after (.filt2p 0) (fed (chan0 fun c =>
      { c with q := 0x45200000, note := 1 }) [64, -32, 0, 16])).hb 0 0 1) =
    [mkRat (-24435) 8192, mkRat 135 64, mkRat 135 64] := by decide +kernel
/-- 3.6, the block. -/
theorem test_filtbl : vals (look (after (.filtbl 0) (fed (chan0 fun c =>
      { c with q := 0x45000000, nudge := 0x3F000000 }) [64, 0, 0, 0])).blk.yp 0) =
    [24, -9, mkRat (-57) 8, mkRat (-153) 64] := by decide +kernel
/-- 3.6: the slot after the block, element 2 not written. -/
theorem test_filtbl_slot : slotVals (readSlot tcfg (after (.filtbl 0) (fed (chan0 fun c =>
      { c with q := 0x45000000, nudge := 0x3F000000 }) [64, 0, 0, 0])).ha 0 0 0) =
    [mkRat 135 8, mkRat (-729) 64, 0] := by decide +kernel
/-- 3.7, first row. -/
theorem test_compose : vals (look (compose ((chan0 fun c => { c with morph := 0x3E800000, level := 0x3F000000 }).setBlk
      { Block.empty with yp := upd Block.empty.yp 0 [F.ofInt (-108), F.ofInt 0],
                         yt := upd Block.empty.yt 0 [F.ofInt (-96), F.ofInt (-18)] })).out 0) =
    [mkRat (-105) 2, mkRat (-9) 4] := by decide +kernel
/-- 3.8, rows 1/512, -3/512, 4095/512, 8, -4095/512, -100. -/
theorem test_quantizer : ([mkRat 1 512, mkRat (-3) 512, mkRat 4095 512, 8, mkRat (-4095) 512, -100].map fun q =>
    quant tcfg (F.ofRat q)) = [0, -1, 2047, 2047, -2047, -2048] := by decide +kernel
/-- R188's map, a reading numbered by its stream. -/
def numbered : State := s0.setBlk { s0.blk with xq := perCh fun i => [Int.ofNat i.val] }
theorem test_fanin2 : (after .fanin2 numbered).blk.xin = perCh (fun ch => [Int.ofNat (ch.val % 2)]) := by decide +kernel
theorem test_fanin3 : (after .fanin3 numbered).blk.xin = #v[[0], [0], [1], [1], [2], [2]] := by decide +kernel
theorem test_fanin6 : (after .fanin6 numbered).blk.xin = #v[[0], [1], [2], [3], [4], [5]] := by decide +kernel
/-- 3.10's block output. -/
def folded : State :=
  let o0 := [12, mkRat (-9) 2, mkRat (-15) 8, mkRat (-699) 128].map F.ofRat
  let o1 := [20, -25, mkRat 5 4, mkRat 175 16].map F.ofRat
  { s0 with out := #v[o0, o1, [0, 0, 0, 0], [0, 0, 0, 0], [0, 0, 0, 0], [0, 0, 0, 0]] }
theorem test_fold1 : vals (look (after .fold1 folded).blk.fold 0) = [32, mkRat (-59) 2, mkRat (-5) 8, mkRat 701 128] := by
  decide +kernel
theorem test_fold2_even : vals (look (after .fold2 folded).blk.fold 0) = [32, 0, mkRat (-5) 8, 0] := by decide +kernel
theorem test_fold2_odd : vals (look (after .fold2 folded).blk.fold 1) = [0, mkRat (-59) 2, 0, mkRat 701 128] := by
  decide +kernel
theorem test_fold6 : (after .fold6 folded).blk.fold = folded.out := by decide +kernel
/-- 3.4: the clamp, and no lower clamp. -/
theorem test_clamp : freqCoef s0 0 1 1 2 = 0x3FA78D2D := by decide +kernel
theorem test_no_lower_clamp : F.val (freqCoef (chan0 fun c => { c with nudge := F.ofInt (-8) }) 0 0 0 1) = -2 := by
  decide +kernel
/-- 3.11: 96000 to 64000. -/
theorem test_ref_linear : RefLinear.run Domain.binary32 (RefLinear.kernel Domain.binary32).init 96000 64000 ([4, 8, -4, 0].map F.ofInt) 3 =
    ⟨⟨mkRat 3 2, [0]⟩, 4, [4, 2, 0].map F.ofInt⟩ := by decide +kernel
/-- 3.11: `need(4)` and `yield(4)` there. -/
theorem test_ref_linear_counts : (RefLinear.need (RefLinear.kernel Domain.binary32).init 96000 64000 4,
    RefLinear.yld (RefLinear.kernel Domain.binary32).init 96000 64000 4) = (6, 3) := by decide +kernel
/-- 3.15: a bank of 9 clamps to 2. -/
theorem test_blkstart_clamped_bank : look (blkStart (chan0 fun c => { c with bank := 9 })).prevbank 0 = 2 := by
  decide +kernel

/-! ## Witnesses: a state and operands that meet the hypotheses of each statement that has some -/

theorem witness_StepRunsDecodedTransaction :
    s0.probe = none ∧ s0.host = [] ∧
    (∃ t rest, ({ s0 with host := [⟨0x02000000, 0⟩] } : State).host = t :: rest ∧ decodeCmd t.word = .ok .tick) ∧
    (∃ t rest, ({ s0 with host := [⟨0x05000000, 0⟩] } : State).host = t :: rest ∧
      decodeCmd t.word = .error (.reservedOpcode 5)) ∧
    (∃ space w, (s0.withFetchWord 2 1).probe = some (space, w) ∧ decode space w = .ok (.filt2p 0)) ∧
    decodeTableWord 32 0x02000000 = some .tick ∧ decodeTableWord 2 1 = some (.filt2p 0) :=
  ⟨rfl, rfl, ⟨_, _, rfl, by decide⟩, ⟨_, _, rfl, by decide⟩, ⟨_, _, rfl, by decide⟩, by decide, by decide⟩

/-- A host that issues a command other than `TICK`. -/
theorem witness_HostReachesCommandsOnly :
    ∃ t, step { s0 with host := [⟨0x01000000, 0⟩] } = .next t ∧ opField 0x01000000 ≠ 0x02 := ⟨_, rfl, by decide⟩

theorem witness_NopAndReservedEncodingsDoNothing :
    opField 0x00ABCDEF = 0 ∧
    opField 0x05000000 ∉ [0x01, 0x02, 0x03, 0x04, 0x10, 0x11, 0x12, 0x13, 0x14, 0x20, 0x21, 0x22] ∧
    opField 0xFF000000 ∉ [0x01, 0x02, 0x03, 0x04, 0x10, 0x11, 0x12, 0x13, 0x14, 0x20, 0x21, 0x22] ∧
    s0.probe = none ∧ ({ s0 with host := [⟨0x05000000, 1⟩] } : State).host = ⟨0x05000000, 1⟩ :: [] ∧
    s0.P.ns * s0.P.nf = 6 ∧ s0.P.block = 4 := by decide

theorem witness_DecodeOfEncodeIsIdentity :
    (Instr.wrc 15 (.undefined 4095)).wf = true ∧ (Instr.rob 15 4095).wf = true ∧ (Instr.filtbl 5).wf = true := by
  decide

theorem witness_UnusedFieldsAreIgnored :
    opField 0x02ABCDEF = opField 0x02000000 ∧ opField 0x02ABCDEF ∉ [0x10, 0x11, 0x14, 0x20, 0x21, 0x12, 0x13, 0x22] ∧
    opField 0x10F00200 = opField 0x10000200 ∧ idxField 0x10F00200 = idxField 0x10000200 ∧
    opField 0x122005AB = opField 0x12200500 ∧ idxField 0x122005AB = idxField 0x12200500 ∧
    chField 0x122005AB = chField 0x12200500 ∧
    (Instr.wus 4095).wf = true ∧ (encode (.wus 4095)).1 = .command := by decide

theorem witness_OpcodeMap : [0x00000000, 0x01000000, 0x02000000, 0x03000000, 0x04000000, 0x10000000, 0x11000000,
    0x12000000, 0x13000000, 0x14000000, 0x20000000, 0x21000000, 0x22000000].map opField =
    [0x00, 0x01, 0x02, 0x03, 0x04, 0x10, 0x11, 0x12, 0x13, 0x14, 0x20, 0x21, 0x22] := by decide

theorem witness_RegisterReadsHaveNoSideEffect : ∃ ch n, Instr.rob 5 3 = .rob ch n := ⟨_, _, rfl⟩

theorem witness_WusWritesOneStagingEntry :
    s0.usStage.wf = true ∧ 5 < s0.P.ns * s0.P.nf ∧ ¬ 6 < s0.P.ns * s0.P.nf ∧ 1 * s0.P.nf + 1 ≠ 5 := by decide

theorem witness_LaneAndBlockOutputCommands : 3 < s0.P.block ∧ (look s0.out 5)[3]? = some 0 ∧ s0.P.block ≤ 4 := by
  decide

theorem witness_LookupsAndMorphGate :
    0 + 1 < s0.P.nb ∧ 1 + 1 < s0.P.nb ∧ F.finite (F.ofInt 4095) = true ∧ F.finite s0.fscale = true ∧
    F.finite Chan.default.morph = true := by decide +kernel

/-- A changed bank, a pending event, neither. -/
theorem witness_BlockStartClearsHistory :
    s0.ha.wf = true ∧ s0.hb.wf = true ∧
    mustClear (chan0 fun c => { c with bank := 1 }) 0 = true ∧ mustClear (chan0 fun c => { c with bank := 1 }) 1 = false ∧
    mustClear { s0 with algChanged := true } 1 = true ∧ mustClear { s0 with uscaleChanged := true } 5 = true ∧
    mustClear (chan0 fun c => { c with bank := 0xFFFFFFFF }) 0 = false := by decide +kernel

theorem witness_SwitchedChannelStartsFromZeroState :
    (idxOf tcfg (look (chan0 fun c => { c with bank := 1 }).chan 0)).b ≠ (look s0.prevbank 0).toNat ∧
    algOf s0.algsel ≠ .blended ∧
    ({ s0 with algChanged := true } : State).algChanged = true := by decide +kernel

/-- A set flag that another command meets (also `OverlayHandoff`). -/
theorem witness_EventFlagsPendUntilABlock :
    Instr.reset ≠ .tick ∧ ({ s0 with algChanged := true, uscaleChanged := true } : State).algChanged = true ∧
    ∃ t, exec .reset { s0 with algChanged := true, uscaleChanged := true } = .next t :=
  ⟨by decide, rfl, _, rfl⟩

/-- The ticks of R180's example: the first three do not fire, the fourth does. -/
def fourth : State := { s0 with inbuf := upd (upd s0.inbuf 0 [0, 0, 0]) 1 [0, 0, 0] }
theorem witness_TickWithoutBlock : fireTest (accumulate s0) = false := by decide +kernel
theorem witness_UscSetsUscaleChanged :
    ∃ t, exec .usc s0 = .next t ∧ fireTest (accumulate t) = false := ⟨_, rfl, by decide +kernel⟩
/-- The reference kernel from its initial state, in a tick that fires. -/
theorem witness_FiredBlockMeetsKernelContract :
    fourth.P.src.CountLaws RefLinear.Ok ∧ (∀ i, RefLinear.Ok (look fourth.insrc i) ∧ RefLinear.Ok (look fourth.outsrc i)) ∧
    fireTest (accumulate fourth) = true := by
  refine ⟨RefLinear.countLaws Domain.binary32, fun i => ?_, by decide +kernel⟩
  have hin : look fourth.insrc i = (RefLinear.kernel Domain.binary32).init := by simp [look, fourth, s0, State.powerOn]; rfl
  have hout : look fourth.outsrc i = (RefLinear.kernel Domain.binary32).init := by simp [look, fourth, s0, State.powerOn]; rfl
  rw [hin, hout]
  exact ⟨(RefLinear.countLaws Domain.binary32).init_ok, (RefLinear.countLaws Domain.binary32).init_ok⟩
/-- The test configuration at the internal rate, from power-on: equal rates keep every position at most 1. -/
theorem supports_internal_rate : tcfg.Supports (· = 96000) := by
  have arises {may : SrcState → Nat → Nat → List F → Nat → Prop}
      (h : ∀ st rin rout xs n, may st rin rout xs n → rin = 96000 ∧ rout = 96000) {st : SrcState}
      (a : (RefLinear.kernel Domain.binary32).Arises may st) : 0 < st.t ∧ st.t ≤ 1 := by
    induction a with
    | init => exact ⟨by show (0 : Rat) < 1; norm_num, le_refl _⟩
    | run st rin rout xs n _ hm ih =>
      obtain ⟨rfl, rfl⟩ := h _ _ _ _ _ hm
      exact ⟨(RefLinear.countLaws _).run_ok st _ _ xs n (by decide) (by decide) ih.1,
        RefLinear.run_t_le _ (by decide) (by decide) xs n ih.2 (le_refl _) (by decide +kernel)⟩
  have step : RefLinear.stepOf 96000 96000 = 1 := by decide +kernel
  constructor
  · rintro _ st rfl a
    have b := arises (fun st rin rout xs n h => ⟨h.1, h.2.1⟩) a
    refine (RefLinear.need_le_iff (n := 4) (by decide) 8).2 ?_
    rw [show tcfg.fsInt = 96000 from rfl, step]
    norm_num
    linarith [b.2]
  · rintro _ st rfl a
    have b := arises (fun st rin rout xs n h => ⟨h.1, h.2.1⟩) a
    show RefLinear.yld st 96000 96000 4 ≤ 8
    rcases Nat.eq_zero_or_pos (RefLinear.yld st 96000 96000 4) with e | e
    · omega
    · have q := RefLinear.yld_last_le (rin := 96000) (rout := 96000) (by decide) (by decide) b.1 4 e
      rw [step] at q
      by_contra hc
      have : (9 : Rat) ≤ (RefLinear.yld st 96000 96000 4 : Nat) := by
        exact_mod_cast (by omega : 9 ≤ RefLinear.yld st 96000 96000 4)
      norm_num at q
      linarith [b.1]
/-- A supported rate, from power-on; and a ring that is too small. -/
theorem witness_FiredBlockMeetsKernelContract_rates :
    s0.P.Supports (· = 96000) ∧ s0.hostrate.toNat = 96000 ∧ s0.hostrate ≠ 0 ∧
    (∀ i : Fin NC, s0.P.InArises (· = 96000) (look s0.insrc i) ∧ s0.P.OutArises (· = 96000) (look s0.outsrc i)) ∧
    0 < ninOf s0.inch ∧ s0.P.inCap < s0.P.src.need (look s0.insrc 0) 384000 s0.P.fsInt s0.P.block := by
  refine ⟨supports_internal_rate, by decide +kernel, by decide +kernel, fun i => ?_, by decide +kernel⟩
  have hin : look s0.insrc i = s0.P.src.init := by simp [look, s0, State.powerOn]; rfl
  have hout : look s0.outsrc i = s0.P.src.init := by simp [look, s0, State.powerOn]; rfl
  rw [hin, hout]
  exact ⟨.init, .init⟩
/-- The initial state arises at every ratio. -/
theorem witness_RefLinearMeetsContract : (RefLinear.kernel Domain.binary32).Arises
    (fun _ rin rout _ _ => rin = 48000 ∧ rout = 96000) (RefLinear.kernel Domain.binary32).init := .init
theorem witness_TickWithBlock : fireTest (accumulate fourth) = true := by decide +kernel
/-- The clauses of a tick: a ring with room, a full ring, an inactive stream, a frame to deliver, none. -/
theorem witness_tick_clauses :
    0 < ninOf s0.inch ∧ (look s0.inbuf 0).length < s0.P.inCap ∧
    s0.P.inCap ≤ (List.replicate 8 (0 : F)).length ∧ ninOf s0.inch ≤ (2 : Fin NC).val ∧
    0 < noutOf s0.outmode ∧ look (upd s0.outbuf 0 [7]) 0 = 7 :: [] ∧
    noutOf s0.outmode ≤ (1 : Fin NC).val ∧ look s0.outbuf 0 = [] := by decide +kernel

/-- A product that is clamped (1.5), one that is not (1.25), one equal to the bound; finite factors whose product
overflows; an infinite factor. -/
def overlaid (coef fscale : F) : State := { s0 with usActive := [(0, coef)], fscale := fscale }
theorem witness_FrequencyCoefficientIsClamped :
    s0.P.dom = Domain.binary32 ∧ F.finite (coefChar s0 1 1 2) = true ∧ F.finite s0.fscale = true ∧
    F.finite (F.mulFin (F.mulFin (F.mulFin (coefChar s0 1 1 2) 0x3F800000) 0x3F800000) s0.fscale) = true ∧
    F.val 0x3FA78D2D < F.val (F.mulFin (F.mulFin (F.mulFin (coefChar s0 1 1 2) 0x3F800000) 0x3F800000) s0.fscale) ∧
    F.val (F.mulFin (F.mulFin (F.mulFin (coefChar s0 1 1 0) 0x3F800000) 0x3F800000) s0.fscale) ≤ F.val 0x3FA78D2D ∧
    F.mulFin 0x3FA78D2D 0x3F800000 = 0x3FA78D2D ∧
    (let s := overlaid 0x60000000 0x7F000000
     let x := coefChar s 2 0 0
     let c := look s.chan 0
     F.finite x = true ∧ F.finite s.fscale = true ∧ F.finite (F.mulFin x c.nudge) = true ∧
     F.finite (F.mulFin (F.mulFin x c.nudge) c.shift) = true ∧
     F.mulFin (F.mulFin (F.mulFin x c.nudge) c.shift) s.fscale = 0x7F800000) ∧
    (let s := overlaid 0x7F800000 0x3F800000
     let D := s.P.dom
     D.mulExt (D.mulExt (D.mulExt (coefChar s 2 0 0) (look s.chan 0).nudge) (look s.chan 0).shift) s.fscale =
       0x7F800000) ∧
    coefChar s0 2 0 0 = coefChar s0 2 1 1 ∧ (look s0.chan 1).nudge = (look s0.chan 4).nudge ∧
    (look s0.chan 1).shift = (look s0.chan 4).shift := by
  refine ⟨rfl, ?_⟩
  decide +kernel
/-- R133, R241: a product of `+infinity`, by overflow and by an infinite factor, is `C1_MAX`. -/
theorem test_freqCoef_infinite : freqCoef (overlaid 0x60000000 0x7F000000) 0 2 0 0 = 0x3FA78D2D ∧
    freqCoef (overlaid 0x7F800000 0x3F800000) 0 2 0 0 = 0x3FA78D2D := by decide +kernel

/-- The three cases of the morph position: zero, distinct pairs, the same pair (also after clamping). -/
theorem witness_resonators :
    s0.ha.wf = true ∧ s0.hb.wf = true ∧ morphOn Chan.default = false ∧
    morphOn { Chan.default with morph := 0x3E800000, fadeNote := 1 } = true ∧
    ((idxOf tcfg { Chan.default with fadeNote := 1 }).fsc, (idxOf tcfg { Chan.default with fadeNote := 1 }).fnt) ≠
      ((idxOf tcfg { Chan.default with fadeNote := 1 }).sc, (idxOf tcfg { Chan.default with fadeNote := 1 }).nt) ∧
    samePair (idxOf tcfg { Chan.default with note := 2, fadeNote := 7 }) = true ∧
    samePair (idxOf tcfg Chan.default) = true ∧
    (idxOf tcfg { Chan.default with bank := 1 }).b + 1 < tcfg.nb ∧
    (idxOf tcfg { Chan.default with bank := 7 }).b = tcfg.nb - 1 := by decide +kernel

/-- `q` of 2047, below `CF_MIN`, and of 4095, above `CF_MAX`, on finite tables, from zero history. -/
def loQ : State := fed (chan0 fun c => { c with q := F.ofInt 2047 }) [64, -32]
def hiQ : State := fed (chan0 fun c => { c with q := 0x457FF000 }) [64, -32]
def loK : TwoPassCoefs := twoPassCoefs loQ 0 0 0 0
theorem witness_CrossfadeBoundary :
    loQ.ha.wf = true ∧ loQ.hb.wf = true ∧ F.finite (look loQ.chan 0).q = true ∧ F.finite tcfg.cfMin = true ∧
    F.finite tcfg.cfMax = true ∧ F.val tcfg.cfMin < F.val tcfg.cfMax ∧ morphOn (look loQ.chan 0) = false ∧
    F.val (look loQ.chan 0).q < F.val tcfg.cfMin ∧
    F.finite (F.apply1 .twoPassCal tcfg.twoPassCal (qbOf tcfg.dom (F.ofInt 2047))) = true ∧
    F.finite (c2Of tcfg loK.c1 loK.c0) = true ∧ F.finite (ratioB tcfg (F.ofInt 2047)) = true ∧
    F.val (ratioB tcfg (F.ofInt 2047)) = 0 ∧ F.val loK.c2 = 0 ∧ F.finite loK.c0 = true ∧ F.finite loK.c1 = true ∧
    F.finite loK.c2 = true ∧ slotVals (readSlot tcfg loQ.hb 0 0 0) = [0, 0, 0] ∧
    ((runBlock tcfg.dom (reson tcfg.dom loK.c0a loK.c1 loK.c2a) ⟨0, 0, 0⟩ [64, -32]).2.all F.finite) = true := by
  decide +kernel
theorem witness_CrossfadeBoundary_stageB :
    F.finite (look hiQ.chan 0).q = true ∧ morphOn (look hiQ.chan 0) = false ∧
    F.val tcfg.cfMax < F.val (look hiQ.chan 0).q ∧
    ((look (after (.filt2p 0) hiQ).blk.yp 0).all F.finite) = true := by decide +kernel

theorem witness_ChannelOrderIsUnobservable : s0.ha.wf = true ∧ s0.hb.wf = true ∧ algOf s0.algsel ≠ .blended ∧
    ([5, 4, 3, 2, 1, 0] : List (Fin NC)).Perm [0, 1, 2, 3, 4, 5] := by decide

/-- Two states that look alike to channel 1 and differ in channel 0. -/
theorem witness_ChannelsDoNotInteract : s0.alike (chan0 fun c => { c with q := 0x45000000, bank := 1 }) 1 where
  global := ⟨rfl, rfl, rfl, rfl, rfl, rfl, rfl, rfl, rfl⟩
  chan := rfl
  prevbank := rfl
  history := fun _ _ _ => ⟨rfl, rfl⟩
  input := rfl
  outputs := ⟨rfl, rfl, rfl⟩

theorem witness_ComposeBlendsAndScales :
    (look (upd Block.empty.yp 0 [1]) 0)[0]? = some (1 : F) ∧ (look (upd Block.empty.yt 0 [2]) 0)[0]? = some (2 : F) := by
  decide

theorem witness_HostCommandsKeepEngineState : hostCommand (.wrg .algsel) = true ∧ hostCommand .reset = true := by decide

/-- A step that answers a next state. -/
theorem witness_TickKeepsHostWrittenState : ∃ t, step s0 = .next t := ⟨_, rfl⟩

/-- Each value of `INCH` R183 tells apart, with a lane for it. -/
theorem witness_AccumulatePushesOneSample :
    (17 : Fin 18).val = 16 + (1 : Fin NC).val ∧ (1 : Fin 18).val = tcfg.dup 2 3 ∧ (0 : Fin 18).val = tcfg.dup 5 5 ∧
    (5 : Fin 18).val = (5 : Fin NC).val ∧ ninOf 3 = 3 ∧ ninOf 6 = 6 ∧ ninOf 0xFFFFFFFF = 6 := by decide +kernel

/-- A run whose outputs fit the ring. -/
theorem witness_ResamplingPhases :
    0 < noutOf s0.outmode ∧ (look s0.outbuf 0).length +
      (outRun { s0 with blk := { s0.blk with fold := upd s0.blk.fold 0 [1, 2, 3, 4] } } 0).ys.length ≤ s0.P.outCap := by
  decide +kernel

/-- Inside the range, at each bound, beyond it; a positive and a negative scale. -/
theorem witness_QuantizerRule :
    F.finite (F.ofInt tcfg.qmax) = true ∧ F.finite (F.ofInt tcfg.qmin) = true ∧
    F.finite tcfg.inScale = true ∧ F.finite (F.ofRat (mkRat 2047 256)) = true ∧
    F.finite (F.mulFin (F.ofRat (mkRat 2047 256)) tcfg.inScale) = true ∧
    F.val (F.ofInt tcfg.qmax) = F.val (F.mulFin (F.ofRat (mkRat 2047 256)) tcfg.inScale) ∧
    F.val (F.mulFin (F.ofInt (-8)) tcfg.inScale) = F.val (F.ofInt tcfg.qmin) ∧
    F.val (F.mulFin (F.ofRat (mkRat (-1) 512)) tcfg.inScale) = mkRat (-1) 2 ∧
    0 < F.val tcfg.inScale ∧ F.val ({ tcfg with inScale := F.ofInt (-256) } : Params).inScale < 0 := by decide +kernel

theorem witness_QuantizePhase :
    0 < ninOf s0.inch ∧ 3 < s0.P.block ∧ (look (upd Block.empty.rs 0 [0, 1, 2, 3]) 0)[3]? = some (3 : F) := by decide

theorem witness_QuantizedSamplesStayInRange :
    tcfg.qmin ≤ tcfg.qmax ∧ |tcfg.qmin| < 2 ^ 24 ∧ |tcfg.qmax| < 2 ^ 24 := by decide

theorem witness_FanInOperations : (2 : Fin NC).val = (s0.P.fanin3 5).val := by decide

theorem witness_FoldOperations : ∀ (ch : Fin NC) (i : Nat), i < s0.P.block → (look s0.out ch)[i]? = some 0 := by
  intro ch i hi
  have h : i < 4 := hi
  have h4 : ∀ (ch : Fin NC) (j : Fin 4), (look s0.out ch)[j.val]? = some 0 := by decide
  exact h4 ch ⟨i, h⟩

theorem witness_ModeTwoStreamsAreDisjoint :
    (∃ t, exec .fold1 folded = .next t) ∧ (∃ u, exec .fold2 folded = .next u) ∧ 3 < folded.P.block ∧
    F.finite (sumAt folded 3) = true := ⟨⟨_, rfl⟩, ⟨_, rfl⟩, by decide, by decide +kernel⟩

theorem witness_FanOutKeepsDuplicatesEqual :
    look s0.inbuf 0 = look s0.inbuf 1 ∧ look s0.insrc 0 = look s0.insrc 1 ∧ s0.P.fanin3 2 = s0.P.fanin3 3 := by
  decide +kernel

/-- Tie and non-tie roundings with a finite result. -/
theorem witness_RoundingIsToNearestEven :
    F.finite (F.ofRat (mkRat 1 3)) = true ∧ F.finite (F.ofRat (mkRat 16777217 1)) = true ∧ F.finite 0x4B800001 = true ∧
    |F.val (F.ofRat (mkRat 16777217 1)) - mkRat 16777217 1| = |F.val 0x4B800001 - mkRat 16777217 1| ∧
    F.val 0x4B800001 ≠ F.val (F.ofRat (mkRat 16777217 1)) := by decide +kernel

theorem witness_OperationsRoundExactResultOnce :
    F.finite 0x3F800000 = true ∧ F.finite 0x40400000 = true ∧ F.val 0x40400000 ≠ 0 ∧
    F.finite (F.ofRat (F.val 0x3F800000 + F.val 0x40400000)) = true ∧
    F.finite (F.ofRat (F.val 0x3F800000 - F.val 0x40400000)) = true ∧
    F.finite (F.ofRat (F.val 0x3F800000 * F.val 0x40400000)) = true ∧
    F.finite (F.ofRat (F.val 0x3F800000 / F.val 0x40400000)) = true := by decide +kernel

theorem witness_EveryStepKeepsInvariant : s0.Inv ∧ ∃ t, step (s0.withFetchWord 32 0x02000000) = .next t :=
  ⟨⟨by decide, by decide, by decide, by decide, by decide, by decide, by decide, by decide, by decide, by decide,
    by decide, by decide⟩, _, rfl⟩

end Sys2Proof.Machine.Test
end

section
/-! SUPPORT. The finite values of binary32 as a grid of magnitudes, indexed by the bits below the sign, and the
rounding of `Machine/Float.lean` as the choice between the two grid points on either side of a rational
(00_scope.md R10). -/

namespace Sys2Proof.F

/-! ## The parts of a word -/

/-- The bits below the sign, as a number. -/
def low (a : F) : Nat := (a.extractLsb' 0 31).toNat

@[simp] theorem low_append (s : Bool) (m : BitVec 31) : low (BitVec.ofBool s ++ m) = m.toNat := by
  rw [low, BitVec.extractLsb'_append_eq_right]

@[simp] theorem neg_append (s : Bool) (m : BitVec 31) : neg (BitVec.ofBool s ++ m) = s := by
  cases s <;> exact BitVec.msb_append

theorem low_eq_mod (a : F) : low a = a.toNat % 2 ^ 31 := by simp [low]

theorem expo_eq (a : F) : expo a = low a / 2 ^ 23 := by
  simp only [expo, low_eq_mod, BitVec.extractLsb'_toNat, Nat.shiftRight_eq_div_pow]
  omega

theorem frac_eq (a : F) : frac a = low a % 2 ^ 23 := by
  simp only [frac, low_eq_mod, BitVec.extractLsb'_toNat, Nat.shiftRight_eq_div_pow]
  omega

/-- The finite words are those below the pattern of the infinities. -/
theorem finite_iff (a : F) : finite a = true ↔ low a < 0x7F800000 := by
  have : low a < 2 ^ 31 := (a.extractLsb' 0 31).isLt
  simp only [finite, expo_eq, bne_iff_ne]
  omega

/-! ## The grid of magnitudes -/

/-- The magnitude the bits `p` below the sign stand for, in units of `2^-149`, the last place of the least ones. -/
def ulps (p : Nat) : Nat := (if p / 2 ^ 23 = 0 then p else p % 2 ^ 23 + 2 ^ 23) * 2 ^ (p / 2 ^ 23 - 1)

/-- The magnitude the bits `p` below the sign stand for. -/
def grid (p : Nat) : Rat := ulps p / 2 ^ 149

theorem mag_eq_grid (a : F) : mag a = grid (low a) := by
  have hm : a.mant * 2 ^ max a.expo 1 = 2 * ulps (low a) := by
    simp only [mant, ulps, ← expo_eq, frac_eq]
    have h2 : max a.expo 1 = a.expo - 1 + 1 := by omega
    split
    · next h =>
      have : low a % 2 ^ 23 = low a := by rw [expo_eq] at h; omega
      rw [h2, this, pow_succ]; ring
    · rw [h2, pow_succ]; ring
  rw [mag, hm, Rat.mkRat_eq_div, grid, Int.ofNat_eq_natCast]
  push_cast
  ring

/-- A significand of 24 bits, or a smaller one in the least place: the grid point is significand times place. A carry
out of the significand is the next exponent. -/
theorem ulps_add {s k : Nat} (hk : k ≤ 2 ^ 24) (hs : s = 0 ∨ 2 ^ 23 ≤ k) : ulps (s * 2 ^ 23 + k) = k * 2 ^ s := by
  unfold ulps
  rcases Nat.lt_or_ge k (2 ^ 23) with h | h
  · obtain rfl : s = 0 := by omega
    rw [if_pos (by omega), show (0 * 2 ^ 23 + k) / 2 ^ 23 - 1 = 0 by omega, Nat.zero_mul, Nat.zero_add]
  · rw [if_neg (by omega)]
    rcases Nat.lt_or_ge k (2 ^ 24) with h' | h'
    · rw [show (s * 2 ^ 23 + k) / 2 ^ 23 - 1 = s by omega, show (s * 2 ^ 23 + k) % 2 ^ 23 + 2 ^ 23 = k by omega]
    · obtain rfl : k = 2 ^ 24 := by omega
      rw [show (s * 2 ^ 23 + 2 ^ 24) / 2 ^ 23 - 1 = s + 1 by omega,
        show (s * 2 ^ 23 + 2 ^ 24) % 2 ^ 23 + 2 ^ 23 = 2 ^ 23 by omega, pow_succ]
      ring

/-- Every pattern is a significand of fewer than 24 bits in some place. -/
theorem exists_significand (p : Nat) : ∃ s k, p = s * 2 ^ 23 + k ∧ k < 2 ^ 24 ∧ (s = 0 ∨ 2 ^ 23 ≤ k) :=
  ⟨p / 2 ^ 23 - 1, p - (p / 2 ^ 23 - 1) * 2 ^ 23, by omega, by omega, by omega⟩

theorem ulps_strictMono : StrictMono ulps := by
  refine strictMono_nat_of_lt_succ fun p => ?_
  obtain ⟨s, k, rfl, hk, hs⟩ := exists_significand p
  rw [Nat.add_assoc, ulps_add hk.le hs, ulps_add hk (by omega)]
  exact Nat.mul_lt_mul_of_pos_right (Nat.lt_succ_self k) (Nat.two_pow_pos s)

theorem grid_strictMono : StrictMono grid := fun p r h => by
  have : (ulps p : Rat) < ulps r := by exact_mod_cast ulps_strictMono h
  unfold grid
  gcongr

theorem grid_zero : grid 0 = 0 := by simp [grid, ulps]

theorem grid_nonneg (p : Nat) : 0 ≤ grid p := by unfold grid; positivity

theorem mag_nonneg (a : F) : 0 ≤ mag a := mag_eq_grid a ▸ grid_nonneg _

theorem abs_val (a : F) : |val a| = mag a := by
  have := mag_nonneg a
  unfold val
  split
  · rw [abs_neg, abs_of_nonneg this]
  · exact abs_of_nonneg this

theorem val_eq_zero_iff (a : F) : val a = 0 ↔ mag a = 0 := by rw [← abs_val, abs_eq_zero]

/-! ## Rounding a magnitude -/

/-- Rounding a quotient: one of the two integers on either side, the nearer one, the even one at a tie. -/
theorem rne_cases (n d : Nat) :
    (rne n d = n / d ∧ 2 * (n % d) ≤ d ∧ (2 * (n % d) = d → n / d % 2 = 0)) ∨
    (rne n d = n / d + 1 ∧ d ≤ 2 * (n % d) ∧ (2 * (n % d) = d → (n / d + 1) % 2 = 0)) := by
  simp only [rne]
  split_ifs <;> omega

/-- The bits below the sign of a rational rounded, with no upper end to the range. -/
def rounded (q : Rat) : Nat := roundBits q.num.natAbs q.den

theorem rounded_abs (q : Rat) : rounded |q| = rounded q := by
  simp [rounded, Rat.num_abs_eq_abs_num, Rat.den_abs_eq_den, Int.natAbs_abs]

/-- What a rounding is: `p` and `p + 1` are the grid points on either side of the magnitude, and the bits are those
of the nearer, the even ones at a tie. -/
structure Rounds (x : Rat) (b p : Nat) : Prop where
  lower : grid p ≤ x
  upper : x < grid (p + 1)
  nearer : (b = p ∧ 2 * x ≤ grid p + grid (p + 1)) ∨ (b = p + 1 ∧ grid p + grid (p + 1) ≤ 2 * x)
  even : 2 * x = grid p + grid (p + 1) → b % 2 = 0

/-- The significand in the last place `roundBits` picks has 24 bits, or fewer in the least place. -/
theorem significand_bounds (y : Nat) :
    y / 2 ^ (y.log2 - 23) < 2 ^ 24 ∧ (y.log2 - 23 = 0 ∨ 2 ^ 23 ≤ y / 2 ^ (y.log2 - 23)) := by
  constructor
  · rw [Nat.div_lt_iff_lt_mul (Nat.two_pow_pos _), ← pow_add]
    exact Nat.lt_log2_self.trans_le (Nat.pow_le_pow_right (by omega) (by omega))
  · rcases Nat.eq_zero_or_pos (y.log2 - 23) with h | h
    · exact .inl h
    · refine .inr ?_
      rw [Nat.le_div_iff_mul_le (Nat.two_pow_pos _), ← pow_add, show 23 + (y.log2 - 23) = y.log2 by omega]
      exact Nat.log2_self_le (by rintro rfl; simp at h)

/-- `roundBits` in units of the last place: `n * 2^149 / d` lies between two neighbours of the grid. -/
theorem roundBits_cases {n d x : Nat} (hd : 0 < d) (hn : n * 2 ^ 149 = x) : ∃ p,
    ulps p * d ≤ x ∧ x < ulps (p + 1) * d ∧
    ((roundBits n d = p ∧ 2 * x ≤ (ulps p + ulps (p + 1)) * d) ∨
      (roundBits n d = p + 1 ∧ (ulps p + ulps (p + 1)) * d ≤ 2 * x)) ∧
    (2 * x = (ulps p + ulps (p + 1)) * d → roundBits n d % 2 = 0) := by
  simp only [roundBits, hn]
  obtain ⟨hk, hs⟩ := significand_bounds (x / d)
  generalize Nat.log2 (x / d) - 23 = s at hk hs ⊢
  rw [Nat.div_div_eq_div_mul] at hk hs
  have hD : 0 < d * 2 ^ s := Nat.mul_pos hd (Nat.two_pow_pos s)
  have hx := Nat.div_add_mod x (d * 2 ^ s)
  have hr := Nat.mod_lt x hD
  have hrne := rne_cases x (d * 2 ^ s)
  have e0 := ulps_add hk.le hs
  have e1 := ulps_add (s := s) (k := x / (d * 2 ^ s) + 1) hk (by omega)
  generalize x / (d * 2 ^ s) = k at hk hs hx hrne e0 e1
  generalize x % (d * 2 ^ s) = r at hx hr hrne
  have m0 : k * 2 ^ s * d = d * 2 ^ s * k := by ring
  have m1 : (k + 1) * 2 ^ s * d = d * 2 ^ s * k + d * 2 ^ s := by ring
  refine ⟨s * 2 ^ 23 + k, ?_⟩
  rw [Nat.add_assoc, Nat.add_mul, e0, e1, m0, m1]
  generalize d * 2 ^ s = D at hx hr hrne ⊢
  generalize D * k = K at hx ⊢
  omega

theorem rounded_rounds (q : Rat) : ∃ p, Rounds |q| (rounded q) p := by
  have hc : (0 : Rat) < q.den * 2 ^ 149 := by have := q.den_pos; positivity
  obtain ⟨p, hlo, hhi, hnear, htie⟩ := roundBits_cases (n := q.num.natAbs) q.den_pos rfl
  have le {u v : Rat} {m k : Nat} (hu : u * (q.den * 2 ^ 149) = m) (hv : v * (q.den * 2 ^ 149) = k) :
      u ≤ v ↔ m ≤ k := by rw [← mul_le_mul_iff_left₀ hc, hu, hv, Nat.cast_le]
  have hq : |q| * (q.den * 2 ^ 149) = (q.num.natAbs * 2 ^ 149 : Nat) := by
    have : |q| * q.den = |(q.num : Rat)| := by rw [← Rat.mul_den_eq_num q, abs_mul, Nat.abs_cast]
    rw [← mul_assoc, this, Nat.cast_mul, Nat.cast_natAbs, Int.cast_abs]
    norm_cast
  have hg (r : Nat) : grid r * (q.den * 2 ^ 149) = (ulps r * q.den : Nat) := by
    unfold grid
    push_cast
    field_simp
  have hq2 : 2 * |q| * (q.den * 2 ^ 149) = (2 * (q.num.natAbs * 2 ^ 149) : Nat) := by
    rw [mul_assoc, hq, Nat.cast_mul 2, Nat.cast_ofNat]
  have hmid : (grid p + grid (p + 1)) * (q.den * 2 ^ 149) = ((ulps p + ulps (p + 1)) * q.den : Nat) := by
    rw [add_mul, hg, hg, Nat.add_mul, Nat.cast_add]
  exact ⟨p, (le (hg p) hq).2 hlo, lt_of_not_ge (mt (le (hg (p + 1)) hq).1 hhi.not_ge),
    hnear.imp (And.imp_right (le hq2 hmid).2) (And.imp_right (le hmid hq2).2),
    fun h => htie (le_antisymm ((le hq2 hmid).1 h.le) ((le hmid hq2).1 h.ge))⟩

/-- No value outside the two neighbours is nearer than the one taken, and one as near means a tie. -/
theorem Rounds.nearest {x y : Rat} {b p : Nat} (h : Rounds x b p) (hy : y ≤ grid p ∨ grid (p + 1) ≤ y) :
    |grid b - x| ≤ |y - x| ∧ (|grid b - x| = |y - x| → y ≠ grid b → b % 2 = 0) := by
  obtain ⟨hlo, hhi, hnear, heven⟩ := h
  have dist : (y ≤ grid p ∧ |y - x| = x - y) ∨ (grid (p + 1) ≤ y ∧ |y - x| = y - x) :=
    hy.imp (fun hy => ⟨hy, by rw [abs_of_nonpos (by linarith)]; ring⟩) (fun hy => ⟨hy, abs_of_nonneg (by linarith)⟩)
  obtain ⟨rfl, hn⟩ | ⟨rfl, hn⟩ := hnear
  · rw [abs_of_nonpos (by linarith : grid b - x ≤ 0)]
    obtain ⟨hy, e⟩ | ⟨hy, e⟩ := dist <;> rw [e]
    · exact ⟨by linarith, fun he hne => absurd (by linarith) hne⟩
    · exact ⟨by linarith, fun he _ => heven (by linarith)⟩
  · rw [abs_of_nonneg (by linarith : 0 ≤ grid (p + 1) - x)]
    obtain ⟨hy, e⟩ | ⟨hy, e⟩ := dist <;> rw [e]
    · exact ⟨by linarith, fun he _ => heven (by linarith)⟩
    · exact ⟨by linarith, fun he hne => absurd (by linarith) hne⟩

/-- Every value of a grid magnitude, of either sign, is outside any two neighbours. -/
theorem grid_outside {y : Rat} {r : Nat} (hy : |y| = grid r) (p : Nat) : y ≤ grid p ∨ grid (p + 1) ≤ y := by
  rcases le_total 0 y with h | h
  · rw [abs_of_nonneg h] at hy
    rw [hy, grid_strictMono.le_iff_le, grid_strictMono.le_iff_le]
    omega
  · exact .inl (h.trans (grid_nonneg p))

/-- The rounding of a magnitude is a nearest one among the values of grid magnitude, and even at a tie. -/
theorem rounded_nearest {q x y : Rat} {r : Nat} (hx : |q| = x) (hy : |y| = grid r) :
    |grid (rounded q) - x| ≤ |y - x| ∧
      (|grid (rounded q) - x| = |y - x| → y ≠ grid (rounded q) → rounded q % 2 = 0) := by
  obtain ⟨p, h⟩ := rounded_rounds q
  exact (hx ▸ h).nearest (grid_outside hy p)

/-- A magnitude not above a grid point is not rounded above it. -/
theorem rounded_le {q : Rat} {r : Nat} (h : |q| ≤ grid r) : rounded q ≤ r := by
  have hn := (rounded_nearest (q := q) rfl (abs_of_nonneg (grid_nonneg r))).1
  rw [abs_of_nonneg (sub_nonneg.2 h)] at hn
  exact grid_strictMono.le_iff_le.1 ((sub_le_sub_iff_right _).1 ((le_abs_self _).trans hn))

/-- A magnitude on the grid is rounded to itself. -/
theorem rounded_of_grid {q : Rat} {r : Nat} (h : |q| = grid r) : rounded q = r := by
  have hn := (rounded_nearest h (abs_of_nonneg (grid_nonneg r))).1
  rw [sub_self, abs_zero, abs_nonpos_iff, sub_eq_zero] at hn
  exact grid_strictMono.injective hn

/-- The integers below `2^24` are on the grid. -/
theorem exists_grid_natCast {n : Nat} (h : n < 2 ^ 24) : ∃ r, grid r = n := by
  rcases Nat.eq_zero_or_pos n with rfl | h0
  · exact ⟨0, grid_zero⟩
  · have hlog : n.log2 < 24 := (Nat.log2_lt h0.ne').2 h
    have hlt : n * 2 ^ (23 - n.log2) < 2 ^ 24 := by
      calc n * 2 ^ (23 - n.log2) < 2 ^ (n.log2 + 1) * 2 ^ (23 - n.log2) :=
            Nat.mul_lt_mul_of_pos_right Nat.lt_log2_self (Nat.two_pow_pos _)
        _ = 2 ^ 24 := by rw [← pow_add]; congr 1; omega
    have hge : 2 ^ 23 ≤ n * 2 ^ (23 - n.log2) := by
      calc 2 ^ 23 = 2 ^ n.log2 * 2 ^ (23 - n.log2) := by rw [← pow_add]; congr 1; omega
        _ ≤ n * 2 ^ (23 - n.log2) := Nat.mul_le_mul_right _ (Nat.log2_self_le h0.ne')
    refine ⟨(126 + n.log2) * 2 ^ 23 + n * 2 ^ (23 - n.log2), ?_⟩
    rw [grid, ulps_add hlt.le (.inr hge), mul_assoc, ← pow_add, show 23 - n.log2 + (126 + n.log2) = 149 by omega]
    push_cast
    exact mul_div_cancel_right₀ _ (by positivity)

/-! ## Rounding to a word -/

theorem low_roundMag (s : Bool) (q : Rat) :
    low (roundMag s q) = if rounded q < 0x7F800000 then rounded q else 0x7F800000 := by
  rw [roundMag, low_append, BitVec.toNat_ofNat]
  change Nat.min (rounded q) 0x7F800000 % 2 ^ 31 = _
  split
  · next h => rw [show Nat.min (rounded q) 0x7F800000 = rounded q from Nat.min_eq_left h.le]; omega
  · next h => rw [show Nat.min (rounded q) 0x7F800000 = 0x7F800000 from Nat.min_eq_right (not_lt.1 h)]

@[simp] theorem neg_roundMag (s : Bool) (q : Rat) : neg (roundMag s q) = s := neg_append ..

theorem finite_roundMag (s : Bool) (q : Rat) : finite (roundMag s q) = true ↔ rounded q < 0x7F800000 := by
  rw [finite_iff, low_roundMag]
  split <;> omega

theorem low_roundMag_of_finite {s : Bool} {q : Rat} (h : finite (roundMag s q) = true) :
    low (roundMag s q) = rounded q := by
  rw [low_roundMag, if_pos ((finite_roundMag s q).1 h)]

/-- A finite rounding has the value of its grid point, with the sign asked for. -/
theorem val_roundMag {s : Bool} {q : Rat} (h : finite (roundMag s q) = true) :
    val (roundMag s q) = if s then -grid (rounded q) else grid (rounded q) := by
  rw [val, neg_roundMag, mag_eq_grid, low_roundMag_of_finite h]

theorem getLsbD_zero_eq (a : F) : a.getLsbD 0 = decide (low a % 2 = 1) := by
  rw [low_eq_mod, BitVec.getLsbD, Nat.testBit_zero, Nat.mod_mod_of_dvd _ (by decide : 2 ∣ 2 ^ 31)]

/-- The rounding of a rational is a nearest finite value, and at a tie the one whose last bit is 0. -/
theorem ofRat_nearest {q : Rat} (h : finite (ofRat q) = true) (c : F) :
    |val (ofRat q) - q| ≤ |val c - q| ∧
      (|val (ofRat q) - q| = |val c - q| → val c ≠ val (ofRat q) → (ofRat q).getLsbD 0 = false) := by
  have hlast : (ofRat q).getLsbD 0 = decide (rounded q % 2 = 1) := by
    rw [getLsbD_zero_eq, ofRat, low_roundMag_of_finite h]
  have hv := val_roundMag h
  have hc : |val c| = grid (low c) := by rw [abs_val, mag_eq_grid]
  rw [hlast, ofRat, hv]
  rcases lt_or_ge q 0 with hq | hq
  · have flip (v : Rat) : |v - q| = |-v - -q| := by rw [neg_sub_neg, abs_sub_comm]
    rw [if_pos (decide_eq_true hq), flip, flip (val c), neg_neg]
    obtain ⟨near, tie⟩ := rounded_nearest (abs_of_neg hq) ((abs_neg _).trans hc)
    exact ⟨near, fun he hne => by simp [tie he fun e => hne (by rw [← e, neg_neg])]⟩
  · rw [if_neg (by simp [hq])]
    obtain ⟨near, tie⟩ := rounded_nearest (abs_of_nonneg hq) hc
    exact ⟨near, fun he hne => by simp [tie he hne]⟩

/-- Settles O54: the rounding lies on the grid of magnitudes and takes the nearer of the two neighbours. -/
theorem roundingIsToNearestEven : Obligations.RoundingIsToNearestEven := by
  unfold Obligations.RoundingIsToNearestEven
  exact fun _ c h _ => ofRat_nearest h c

end Sys2Proof.F
end

section
/-! SUPPORT. The reference domain's operations on finite words: each has the value and the finiteness of the exact
result's one rounding (00_scope.md R10, R11). -/

namespace Sys2Proof.F

/-- A rational whose magnitude is at most a finite word's has a finite rounding. -/
theorem finite_ofRat_of_abs_le {q : Rat} {c : F} (hc : finite c = true) (h : |q| ≤ mag c) :
    finite (ofRat q) = true := by
  rw [mag_eq_grid] at h
  exact (finite_roundMag _ q).2 ((rounded_le h).trans_lt ((finite_iff c).1 hc))

/-- Rounding keeps a rational that is a finite word's value. -/
theorem ofRat_val {a : F} (ha : finite a = true) : finite (ofRat (val a)) = true ∧ val (ofRat (val a)) = val a := by
  have h : finite (ofRat (val a)) = true := finite_ofRat_of_abs_le ha (abs_val a).le
  have near := (ofRat_nearest h a).1
  rw [sub_self, abs_zero, abs_nonpos_iff, sub_eq_zero] at near
  exact ⟨h, near⟩

/-- Rounding does not pass a finite value. -/
theorem val_ofRat_le {q : Rat} {c : F} (hq : finite (ofRat q) = true) (h : q ≤ val c) : val (ofRat q) ≤ val c := by
  have near := (ofRat_nearest hq c).1
  rw [abs_of_nonneg (sub_nonneg.2 h)] at near
  exact (sub_le_sub_iff_right q).1 ((le_abs_self _).trans near)

theorem le_val_ofRat {q : Rat} {c : F} (hq : finite (ofRat q) = true) (h : val c ≤ q) : val c ≤ val (ofRat q) := by
  have near := (ofRat_nearest hq c).1
  rw [abs_of_nonpos (sub_nonpos.2 h)] at near
  exact neg_le_neg_iff.1 (by linarith [neg_le_abs (val (ofRat q) - q)])

/-- A value at least as near as a lesser one has the rational above their middle. -/
theorem add_le_of_nearer {u v q : Rat} (huv : v < u) (h : |u - q| ≤ |v - q|) : u + v ≤ 2 * q := by
  nlinarith [sq_le_sq.2 h]

/-- Rounding is monotonic. -/
theorem val_ofRat_mono {q r : Rat} (hq : finite (ofRat q) = true) (hr : finite (ofRat r) = true) (h : q ≤ r) :
    val (ofRat q) ≤ val (ofRat r) := by
  by_contra hlt
  have hq' := add_le_of_nearer (not_le.1 hlt) (ofRat_nearest hq (ofRat r)).1
  have hr' := add_le_of_nearer (u := -val (ofRat r)) (v := -val (ofRat q)) (q := -r) (by linarith)
    (by rw [neg_sub_neg, neg_sub_neg, abs_sub_comm, abs_sub_comm r]; exact (ofRat_nearest hr (ofRat q)).1)
  obtain rfl : q = r := by linarith
  exact hlt le_rfl

/-- A rational of grid magnitude is rounded to itself, inside the range. -/
theorem val_ofRat_of_grid {q : Rat} {r : Nat} (h : |q| = grid r) (hf : finite (ofRat q) = true) :
    val (ofRat q) = q := by
  have hv := val_roundMag hf
  rw [rounded_of_grid h, ← h] at hv
  rw [ofRat, hv]
  rcases lt_or_ge q 0 with hq | hq
  · rw [if_pos (decide_eq_true hq), abs_of_neg hq, neg_neg]
  · rw [if_neg (by simp [hq]), abs_of_nonneg hq]

/-! ## Words that are a rational rounded once -/

/-- The word `w` is `q` rounded once: it may differ from `ofRat q` in the sign of a zero only. -/
structure IsRounded (w : F) (q : Rat) : Prop where
  finite_eq : finite w = finite (ofRat q)
  val_eq : val w = val (ofRat q)

variable {a b w : F} {q : Rat}

/-- An exact result that is a finite word's value is given. -/
theorem IsRounded.exact (h : IsRounded w q) (ha : finite a = true) (e : q = val a) :
    finite w = true ∧ val w = val a := by
  rw [h.finite_eq, h.val_eq, e]
  exact ofRat_val ha

/-- Both zeros are 0 rounded. -/
theorem isRounded_zero (h : low w = 0) : IsRounded w 0 := by
  have hv : val w = 0 := by rw [val_eq_zero_iff, mag_eq_grid, h, grid_zero]
  have hf : finite w = true := (finite_iff w).2 (by omega)
  have h0 := ofRat_val hf
  rw [hv] at h0
  exact ⟨hf.trans h0.1.symm, hv.trans h0.2.symm⟩

/-- Rounding a magnitude under the rational's own sign, which at 0 may be either. -/
theorem isRounded_roundMag {s : Bool} (h : q ≠ 0 → s = decide (q < 0)) : IsRounded (roundMag s |q|) q := by
  have e : roundMag s |q| = roundMag s q := congrArg
    (fun b => BitVec.ofBool s ++ BitVec.ofNat 31 (Nat.min b 0x7F800000)) (rounded_abs q)
  rw [e]
  by_cases hq : q = 0
  · subst hq
    have h0 : rounded 0 = 0 := rounded_of_grid (by rw [abs_zero, grid_zero])
    exact isRounded_zero (by rw [low_roundMag, h0, if_pos (by decide)])
  · rw [h hq]
    exact ⟨rfl, rfl⟩

theorem sumFin_isRounded (a b : F) : IsRounded (sumFin a b) (val a + val b) := by
  unfold sumFin
  split
  · next h => rw [h]; exact isRounded_zero (low_append ..)
  · exact ⟨rfl, rfl⟩

@[simp] theorem low_opp (a : F) : low (opp a) = low a := low_append ..
@[simp] theorem neg_opp (a : F) : neg (opp a) = !neg a := neg_append ..

theorem val_opp (a : F) : val (opp a) = -val a := by
  simp only [val, neg_opp, mag_eq_grid, low_opp]
  cases neg a <;> simp

/-- The sign bit of a word of value not 0. -/
theorem neg_eq (h : val a ≠ 0) : neg a = decide (val a < 0) := by
  have hm : 0 < mag a := lt_of_le_of_ne (mag_nonneg a) fun e => h ((val_eq_zero_iff a).2 e.symm)
  cases hn : neg a <;> simp [val, hn, hm, hm.le]

/-- The sign of a product of rationals not 0. -/
theorem decide_mul_neg {x y : Rat} (hx : x ≠ 0) (hy : y ≠ 0) :
    (decide (x < 0) != decide (y < 0)) = decide (x * y < 0) := by
  rcases lt_or_gt_of_ne hx with hx | hx <;> rcases lt_or_gt_of_ne hy with hy | hy <;>
    simp [mul_neg_iff, hx, hy, hx.not_gt, hy.not_gt]

theorem mulFin_isRounded (a b : F) : IsRounded (mulFin a b) (val a * val b) := by
  rw [mulFin, ← abs_val, ← abs_val, ← abs_mul]
  refine isRounded_roundMag fun h => ?_
  have ha := left_ne_zero_of_mul h
  have hb := right_ne_zero_of_mul h
  rw [neg_eq ha, neg_eq hb, decide_mul_neg ha hb]

theorem divFin_isRounded (a : F) (hb : val b ≠ 0) : IsRounded (divFin a b) (val a / val b) := by
  rw [divFin, if_neg (mt (val_eq_zero_iff b).2 hb), ← abs_val, ← abs_val, ← abs_div]
  refine isRounded_roundMag fun h => ?_
  have ha : val a ≠ 0 := fun e => h (by rw [e, zero_div])
  rw [neg_eq ha, neg_eq hb, div_eq_mul_inv, ← decide_mul_neg ha (inv_ne_zero hb)]
  simp only [inv_lt_zero]

/-! ## The operations of every domain -/

/-- A rounded result that is finite is the operation's. -/
theorem val_closed {op : FOp} (ha : finite a = true) (hb : finite b = true) (h : IsRounded w q)
    (hq : finite (ofRat q) = true) : val (closed op a b w) = val (ofRat q) := by
  have hw : finite w = true := h.finite_eq.trans hq
  rw [closed, ha, hb, hw]
  exact h.val_eq

theorem min_eq (ha : finite a = true) (hb : finite b = true) : F.min a b = if val b < val a then b else a := by
  simp only [F.min, lt_iff hb ha]

theorem val_abs (ha : finite a = true) : val (F.abs a) = |val a| := by
  have e : F.abs a = BitVec.ofBool false ++ a.extractLsb' 0 31 := by
    have hf : finite (BitVec.ofBool false ++ a.extractLsb' 0 31) = true := by
      rw [finite_iff] at ha ⊢; rwa [low_append]
    rw [F.abs, closed, ha]
    exact if_pos hf
  rw [e, abs_val, mag_eq_grid, val, neg_append, mag_eq_grid, low_append]
  rfl

/-- `itof` is exact below `2^24`. -/
theorem itof_exact (D : Domain) {n : Int} (h : |n| < 2 ^ 24) :
    finite (D.itof n) = true ∧ val (D.itof n) = n := by
  have hn : n.natAbs < 2 ^ 24 := by rw [Int.abs_eq_natAbs] at h; omega
  obtain ⟨r, hr⟩ := exists_grid_natCast hn
  have habs : |(n : Rat)| = grid r := by rw [hr, Nat.cast_natAbs, Int.cast_abs]
  have hf : finite (ofRat n) = true := by
    refine finite_ofRat_of_abs_le (c := 0x4B800000) (by decide) ?_
    rw [show mag 0x4B800000 = 2 ^ 24 by decide +kernel]
    exact_mod_cast h.le
  rw [D.itof_of_small hn]
  exact ⟨hf, val_ofRat_of_grid habs hf⟩

/-- `trunc` goes toward zero. -/
theorem trunc_eq (a : F) : trunc a = if 0 ≤ val a then (val a).floor else (val a).ceil := by
  unfold trunc
  split
  · next h =>
    rw [Rat.floor_def]
    exact Int.tdiv_eq_ediv_of_nonneg (Rat.num_nonneg.2 h)
  · next h =>
    have hn : 0 ≤ -(val a).num := by have := Rat.num_neg.2 (not_le.1 h); omega
    rw [Rat.ceil_eq_neg_floor_neg, Rat.floor_def, Rat.neg_num, Rat.neg_den, ← Int.tdiv_eq_ediv_of_nonneg hn,
      Int.neg_tdiv, neg_neg]
    rfl

/-- Settles O55: each operation is the exact result rounded once, and the comparisons are those of values. -/
theorem operationsRoundExactResultOnce : Obligations.OperationsRoundExactResultOnce := by
  unfold Obligations.OperationsRoundExactResultOnce
  refine ⟨fun a b ha hb => ⟨?_, ?_, ?_, ?_, lt_iff ha hb, eq_iff ha hb, ge_iff ha hb, min_eq ha hb⟩,
    fun a ha => ⟨(ofRat_val ha).2, val_abs ha⟩, fun D _ h => itof_exact D h, fun a _ => trunc_eq a⟩
  · exact val_closed ha hb (sumFin_isRounded a b)
  · rw [sub_eq_add_neg, ← val_opp]
    exact val_closed ha hb (sumFin_isRounded a (opp b))
  · exact val_closed ha hb (mulFin_isRounded a b)
  · exact fun h0 => val_closed ha hb (divFin_isRounded a h0)

end Sys2Proof.F
end

section
/-! SUPPORT. `REF_LINEAR` meets the equal-rate law, and what bounds its position while the rates change
(46_ringbuf_resampler.md R217, R218; 70_reset_and_hazards.md R262). -/

namespace Sys2Proof.RefLinear

theorem stepOf_eq_div (rin rout : Nat) : stepOf rin rout = (rin : Rat) / rout := Rat.mkRat_eq_div ..

theorem stepOf_self {r : Nat} (hr : 0 < r) : stepOf r r = 1 := by
  rw [stepOf_eq_div]
  exact div_self (by exact_mod_cast hr.ne')

theorem ceil_natCast_add_one (j : Nat) : ((j : Rat) + 1).ceil = j + 1 := by
  rw [show (j : Rat) + 1 = ((j + 1 : Int) : Rat) by push_cast; ring, Rat.ceil_intCast]

/-- The output at a whole position is the sample there. -/
theorem interp_natCast (D : Domain) (prev : F) (xs : List F) (j : Nat) :
    interp D prev xs ((j : Rat) + 1) = sampleAt prev xs (j + 1) := by
  have hk : (((j : Rat) + 1).ceil - 1).toNat = j := by rw [ceil_natCast_add_one]; omega
  unfold interp
  rw [hk]
  exact if_pos (add_sub_cancel_left (j : Rat) 1)

/-- The loop at step 1 from a whole position gives the samples from there on, as they are. -/
theorem produce_one (D : Domain) (prev : F) (xs : List F) (n : Nat) {j : Nat} (hj : j ≤ xs.length) :
    produce D prev xs 1 n ((j : Rat) + 1) =
      ((xs.drop j).take n, ((j + min (xs.length - j) n : Nat) : Rat) + 1) := by
  induction n generalizing j with
  | zero => simp [produce]
  | succ n ih =>
    rw [produce, ceil_natCast_add_one, Int.ofNat_eq_natCast]
    split
    · next hle =>
      have h : j < xs.length := by omega
      have ih' := ih (j := j + 1) h
      rw [Nat.cast_succ] at ih'
      rw [ih', interp_natCast, List.drop_eq_getElem_cons h, List.take_succ_cons]
      refine Prod.ext ?_ ?_
      · simp [sampleAt, h]
      · rw [show j + 1 + min (xs.length - (j + 1)) n = j + min (xs.length - j) (n + 1) by omega]
    · next h =>
      obtain rfl : j = xs.length := by omega
      simp

/-- A run at equal rates from position 1 is the identity, and leaves the position there. -/
theorem run_equal_rates (D : Domain) {st : SrcState} (ht : st.t = 1) {r : Nat} (hr : 0 < r) (xs : List F) (n : Nat) :
    (run D st r r xs n).st.t = 1 ∧ (run D st r r xs n).consumed = min xs.length n ∧
      (run D st r r xs n).ys = xs.take (min xs.length n) := by
  have hp := produce_one D (st.hist.headD Const.zero) xs n (Nat.zero_le xs.length)
  rw [Nat.cast_zero, zero_add, List.drop_zero, Nat.zero_add, Nat.sub_zero] at hp
  have hceil (c : Nat) : (((c : Rat) + 1).ceil - 1).toNat = c := by rw [ceil_natCast_add_one]; omega
  have hc : min (min xs.length n) xs.length = min xs.length n := by omega
  rw [run_eq, ht, stepOf_self hr, hp, hceil, hc]
  refine ⟨by ring, rfl, ?_⟩
  rw [List.take_eq_take_iff]
  omega

/-- At equal rates the kernel is the identity, in every numeric domain (R217). -/
theorem equalRateLaw (D : Domain) : (kernel D).EqualRateLaw := by
  intro st r harises hr
  have ht : st.t = 1 := by
    induction harises with
    | init => rfl
    | run st rin rout xs n _ hmay ih =>
      obtain ⟨rfl, hpos⟩ := hmay
      exact (run_equal_rates D ih hpos xs n).1
  refine ⟨fun n => ?_, fun m => ?_, fun xs n => (run_equal_rates D ht hr xs n).2⟩
  · rcases Nat.eq_zero_or_pos n with rfl | hn
    · rfl
    · refine eq_of_forall_ge_iff fun c => ?_
      show need st r r n ≤ c ↔ n ≤ c
      rw [need_le_iff hn, ht, stepOf_self hr, mul_one, add_sub_cancel, Nat.cast_le]
  · have hok : Ok st := by rw [Ok, ht]; exact one_pos
    obtain ⟨hc, hl⟩ := (countLaws D).consumption st r r (List.replicate m Const.zero) _ hr hr hok le_rfl
    obtain ⟨-, hc', hl'⟩ := run_equal_rates D ht hr (List.replicate m Const.zero)
      ((kernel D).yld st r r (List.replicate m Const.zero).length)
    have hconsumed := hc'.symm.trans hc
    have hys := (congrArg List.length hl').symm.trans hl
    rw [List.length_take] at hys
    rw [List.length_replicate] at hconsumed hys
    omega

theorem contract (D : Domain) : (kernel D).Contract := ⟨⟨Ok, countLaws D⟩, equalRateLaw D⟩

/-- The states that arise at positive rates have a position above the consumed samples. -/
theorem arises_ok {D : Domain} {may : SrcState → Nat → Nat → List F → Nat → Prop}
    (hmay : ∀ st rin rout xs n, may st rin rout xs n → 0 < rin ∧ 0 < rout) {st : SrcState}
    (h : (kernel D).Arises may st) : Ok st := by
  induction h with
  | init => exact (countLaws D).init_ok
  | run st rin rout xs n _ hm ih =>
    obtain ⟨hi, ho⟩ := hmay _ _ _ _ _ hm
    exact (countLaws D).run_ok st rin rout xs n hi ho ih

/-- The position of a state that arises stays under every bound that is at least 1 and the steps it arises by. -/
theorem arises_t_le {D : Domain} {may : SrcState → Nat → Nat → List F → Nat → Prop} {bound : Rat} (h1 : 1 ≤ bound)
    (hmay : ∀ st rin rout xs n, may st rin rout xs n → 0 < rin ∧ 0 < rout ∧ stepOf rin rout ≤ bound) {st : SrcState}
    (h : (kernel D).Arises may st) : st.t ≤ bound := by
  induction h with
  | init => exact h1
  | run st rin rout xs n _ hm ih =>
    obtain ⟨hi, ho, hs⟩ := hmay _ _ _ _ _ hm
    exact run_t_le D hi ho xs n ih h1 hs

end Sys2Proof.RefLinear

/-! SUPPORT. The reference domain and the test configuration meet the constraints on the parameters. -/

namespace Sys2Proof

open F in
/-- The reference domain gives an exact result that is a binary32 value. -/
theorem Domain.binary32_exact : Domain.binary32.Exact where
  plus a b _ _ _ hr e := (sumFin_isRounded a b).exact hr e
  minus a b _ _ _ hr e := (sumFin_isRounded a (opp b)).exact hr (by rw [val_opp, ← sub_eq_add_neg, e])
  times a b _ _ _ hr e := (mulFin_isRounded a b).exact hr e
  quot a b _ _ _ hr h0 e := (divFin_isRounded a h0).exact hr e
  itofq _ hr := ofRat_val hr

/-- TCFG's rings hold what a block needs and yields at host rates up to twice the internal one (R262). -/
theorem tcfg_supports : tcfg.Supports fun hr => 0 < hr ∧ hr ≤ 192000 where
  in_room hr st hrate harises := by
    have step_le {h : Nat} (hh : h ≤ 192000) : RefLinear.stepOf h 96000 ≤ 2 := by
      have h1 : (h : Rat) ≤ 192000 := by exact_mod_cast hh
      rw [RefLinear.stepOf_eq_div]
      push_cast
      linarith
    have ht : st.t ≤ 2 := RefLinear.arises_t_le (by norm_num) (fun _ rin rout _ _ hm => by
      obtain ⟨⟨h0, h1⟩, rfl, _, _⟩ := hm
      exact ⟨h0, by decide, step_le h1⟩) harises
    show RefLinear.need st hr 96000 4 ≤ 8
    rw [RefLinear.need_le_iff (by decide)]
    push_cast
    linarith [step_le hrate.2]
  out_room hr st hrate harises := by
    have hok : RefLinear.Ok st := RefLinear.arises_ok (fun _ rin rout _ _ hm => by
      obtain ⟨rfl, ⟨h0, -⟩, -⟩ := hm
      exact ⟨by decide, h0⟩) harises
    have ht : 0 < st.t := hok
    have hs : (1 : Rat) / 2 ≤ RefLinear.stepOf 96000 hr := by
      have h0 : (0 : Rat) < hr := by exact_mod_cast hrate.1
      have h1 : (hr : Rat) ≤ 192000 := by exact_mod_cast hrate.2
      rw [RefLinear.stepOf_eq_div, le_div_iff₀ h0]
      push_cast
      linarith
    show RefLinear.yld st 96000 hr 4 ≤ 8
    by_contra hgt
    have hlast := RefLinear.yld_last_le (rin := 96000) (by decide) hrate.1 hok 4 (by omega)
    have hy : (8 : Rat) ≤ (RefLinear.yld st 96000 hr 4 : Rat) - 1 := by
      have : ((9 : Nat) : Rat) ≤ RefLinear.yld st 96000 hr 4 := by exact_mod_cast not_le.1 hgt
      push_cast at this
      linarith
    have := mul_le_mul hy hs (by norm_num) (by linarith)
    push_cast at hlast
    linarith

/-- The words of TCFG that are computed by rounding a constant are finite. -/
theorem tcfg_tables_finite : ∀ b sc : Fin 2, ∀ nt : Fin 3,
    F.finite (tcfg.tChar b sc nt) ∧
    F.finite (tcfg.tLo b sc nt).c0 ∧ F.finite (tcfg.tLo b sc nt).c1 ∧ F.finite (tcfg.tLo b sc nt).c2 ∧
    F.finite (tcfg.tHi b sc nt).c0 ∧ F.finite (tcfg.tHi b sc nt).c1 ∧ F.finite (tcfg.tHi b sc nt).c2 := by
  decide +kernel

theorem clampQ_bounds (q : Rat) : 0 ≤ clampQ q ∧ clampQ q ≤ 4095 := by
  unfold clampQ
  split_ifs <;> constructor <;> linarith

theorem clampQ_mono {q r : Rat} (h : q ≤ r) : clampQ q ≤ clampQ r := by
  unfold clampQ
  split_ifs <;> linarith

/-- A rational between two finite words' values, the lower not below 0, is rounded to a finite word between them. -/
theorem F.ofRat_mem {q : Rat} {lo hi : F} (hhi : F.finite hi = true) (h0 : 0 ≤ F.val lo) (h1 : F.val lo ≤ q)
    (h2 : q ≤ F.val hi) :
    F.finite (F.ofRat q) = true ∧ F.val lo ≤ F.val (F.ofRat q) ∧ F.val (F.ofRat q) ≤ F.val hi := by
  have hf : F.finite (F.ofRat q) = true := F.finite_ofRat_of_abs_le hhi (by
    rw [abs_of_nonneg (h0.trans h1), ← F.abs_val, abs_of_nonneg (h0.trans (h1.trans h2))]; exact h2)
  exact ⟨hf, F.le_val_ofRat hf h1, F.val_ofRat_le hf h2⟩

/-- TCFG's pole radius, before it is rounded: a number of eighths. -/
def poleEighths (x : Rat) : Rat := Rat.ofInt (clampQ x / 1024).floor / 8

theorem poleEighths_bounds (x : Rat) : 0 ≤ poleEighths x ∧ poleEighths x ≤ 3 / 8 := by
  obtain ⟨h0, h1⟩ := clampQ_bounds x
  have hlo : 0 ≤ (clampQ x / 1024).floor := Rat.le_floor_iff.2 (by push_cast; linarith)
  have hhi : (clampQ x / 1024).floor ≤ 3 := by
    by_contra hgt
    have := Rat.le_floor_iff.1 (not_le.1 hgt : 3 + 1 ≤ (clampQ x / 1024).floor)
    push_cast at this
    linarith
  have hlo' : (0 : Rat) ≤ (clampQ x / 1024).floor := by exact_mod_cast hlo
  have hhi' : ((clampQ x / 1024).floor : Rat) ≤ 3 := by exact_mod_cast hhi
  show 0 ≤ ((clampQ x / 1024).floor : Rat) / 8 ∧ ((clampQ x / 1024).floor : Rat) / 8 ≤ 3 / 8
  constructor <;> linarith

theorem poleEighths_mono {x y : Rat} (h : x ≤ y) : poleEighths x ≤ poleEighths y := by
  have hc := clampQ_mono h
  have : (clampQ x / 1024).floor ≤ (clampQ y / 1024).floor :=
    Rat.le_floor_iff.2 ((Rat.floor_le _).trans (by linarith))
  have : ((clampQ x / 1024).floor : Rat) ≤ (clampQ y / 1024).floor := by exact_mod_cast this
  show ((clampQ x / 1024).floor : Rat) / 8 ≤ ((clampQ y / 1024).floor : Rat) / 8
  linarith

/-- `0x3EC00000` is 3/8, the greatest radius. -/
theorem tcfg_poleRadius (qw fs : F) : F.finite (tcfg.poleRadius qw fs) = true ∧
    0 ≤ F.val (tcfg.poleRadius qw fs) ∧ F.val (tcfg.poleRadius qw fs) < 1 := by
  obtain ⟨h0, h1⟩ := poleEighths_bounds (F.val qw)
  have e0 : F.val Const.zero = 0 := by decide +kernel
  have e1 : F.val 0x3EC00000 = 3 / 8 := by decide +kernel
  obtain ⟨hf, hlo, hhi⟩ := F.ofRat_mem (q := poleEighths (F.val qw)) (lo := Const.zero) (hi := 0x3EC00000)
    (by decide) e0.ge (e0.trans_le h0) (h1.trans_eq e1.symm)
  exact ⟨hf, e0.symm.trans_le hlo, hhi.trans_lt (by rw [e1]; norm_num)⟩

theorem tcfg_logQ (q : F) : F.finite (tcfg.logQ q) = true ∧ 0 ≤ F.val (tcfg.logQ q) ∧ F.val (tcfg.logQ q) ≤ 1 := by
  obtain ⟨h0, h1⟩ := clampQ_bounds (F.val q)
  have e0 : F.val Const.zero = 0 := by decide +kernel
  have e1 : F.val Const.one = 1 := by decide +kernel
  have := F.ofRat_mem (q := clampQ (F.val q) / 4096) (lo := Const.zero) (hi := Const.one) (by decide) e0.ge
    (by rw [e0]; linarith) (by rw [e1]; linarith)
  rwa [e0, e1] at this

/-- `0x7F7FFFFF` is the greatest finite word. -/
theorem F.mag_le_max {a : F} (ha : F.finite a = true) : F.mag a ≤ F.mag 0x7F7FFFFF := by
  rw [F.mag_eq_grid, F.mag_eq_grid, F.grid_strictMono.le_iff_le, show F.low 0x7F7FFFFF = 0x7F7FFFFF by decide]
  have := (F.finite_iff a).1 ha
  omega

theorem tcfg_onePassGain {q : F} (hq : F.finite q = true) : F.finite (tcfg.onePassGain q) = true := by
  have hmax := (F.abs_val q).trans_le (F.mag_le_max hq)
  have e : (8192 : Rat) ≤ F.mag 0x7F7FFFFF := by decide +kernel
  refine F.finite_ofRat_of_abs_le (c := 0x7F7FFFFF) (by decide) ?_
  rw [abs_le] at hmax ⊢
  constructor <;> linarith [hmax.1, hmax.2]

/-- Settles O53: the capacities, the numeric domain and the kernel by their lemmas, the lookups by their ranges, and
the constants by evaluation. -/
theorem testConfigurationIsValid : Obligations.TestConfigurationIsValid := by
  unfold Obligations.TestConfigurationIsValid
  exact {
    capacity := tcfg_supports
    fsInt_u32 := by decide
    dom_exact := Domain.binary32_exact
    cf_order := by decide +kernel
    tables_finite := fun b sc nt hb hsc hnt => tcfg_tables_finite ⟨b, Nat.lt_of_succ_lt_succ hb⟩ ⟨sc, hsc⟩ ⟨nt, hnt⟩
    pole_range := tcfg_poleRadius
    pole_mono := fun qa qb fs _ _ h => F.val_ofRat_mono (tcfg_poleRadius qa fs).1 (tcfg_poleRadius qb fs).1
      (poleEighths_mono h)
    cal_finite := fun _ => (by decide +kernel : F.finite (F.ofRat (mkRat 1 2)) = true)
    consts_finite := by decide +kernel
    gain_finite := fun _ hq => tcfg_onePassGain hq
    logQ_range := tcfg_logQ
    nudge_order := by decide +kernel
    clipLevel_nonzero := by decide +kernel
    scales_nonzero := by decide +kernel
    q_order := by decide
    q_width := by decide
    dup_range := fun n s hn _ => Nat.mod_lt s (by omega)
    src_contract := RefLinear.contract Domain.binary32 }

end Sys2Proof
end

section
/-! SUPPORT. The state chapter (10_state.md): the bits of `STATUS`, and registers read back. -/

namespace Sys2Proof.Machine

/-! ## `STATUS` (R39) -/

theorem getLsbD_statusWord (s : State) {i : Nat} (hi : i < 32) : (statusWord s).getLsbD i = statusBit s i := by
  rw [statusWord, getLsbD_bitsWord, decide_eq_true hi, Bool.true_and]

theorem statusBit_indrop (s : State) (k : Fin NC) : statusBit s (8 + k.val) = look s.indrop k := by
  rw [statusBit, if_neg (by omega), if_neg (by omega), dif_pos ⟨by omega, by omega⟩]
  simp only [Nat.add_sub_cancel_left]

theorem statusBit_outvalid (s : State) (k : Fin NC) : statusBit s (16 + k.val) = look s.outvalid k := by
  have := NC_eq
  rw [statusBit, if_neg (by omega), if_neg (by omega), dif_neg (by omega), dif_pos (by omega)]
  simp only [Nat.add_sub_cancel_left]

theorem statusBit_unused (s : State) {i : Nat} (h2 : 2 ≤ i) (h8 : i < 8 ∨ 14 ≤ i) (h16 : i < 16 ∨ 22 ≤ i) :
    statusBit s i = false := by
  have := NC_eq
  rw [statusBit, if_neg (by omega), if_neg (by omega), dif_neg (by omega), dif_neg (by omega)]

/-- `STATUS` does not depend on the result word. -/
@[simp] theorem statusWord_ret (s : State) (r : Word) : statusWord (s.ret r) = statusWord s := rfl

/-- The result word of a tick is the `STATUS` of the state it leaves (R180). -/
theorem tick_rdata (s : State) : (tick s).rdata = statusWord (tick s) := (statusWord_ret ..).symm

/-- Settles O10: the bits of the composed word, one kind at a time, and that a tick's result is its `STATUS`. -/
theorem statusBits : Obligations.StatusBits := by
  unfold Obligations.StatusBits
  refine ⟨fun s => ⟨statusWord s, rfl, ?clip, ?fired, fun k => ⟨?indrop, ?outvalid⟩, fun i h2 h8 h16 => ?unused⟩,
    fun s => ⟨tick s, rfl, ?tick⟩⟩
  case clip => exact getLsbD_statusWord s (by decide)
  case fired => exact getLsbD_statusWord s (by decide)
  case indrop =>
    have := NC_eq
    rw [getLsbD_statusWord s (by omega), statusBit_indrop]
  case outvalid =>
    have := NC_eq
    rw [getLsbD_statusWord s (by omega), statusBit_outvalid]
  case unused =>
    rcases Nat.lt_or_ge i 32 with hi | hi
    · rw [getLsbD_statusWord s hi, statusBit_unused s h2 h8 h16]
    · exact BitVec.getLsbD_of_ge _ _ hi
  case tick => exact congrArg (fun r => Host.Outcome.next ((tick s).ret r)) (tick_rdata s).symm

/-! ## A register read back (R36, R73) -/

/-- A field of `w` bits keeps the low `w` of a word. -/
theorem setWidth_setWidth_eq_and (v : Word) {w : Nat} (hw : w ≤ 32) :
    (v.setWidth w).setWidth 32 = v &&& BitVec.ofNat 32 (2 ^ w - 1) := by
  have hpow : 2 ^ w ≤ 2 ^ 32 := Nat.pow_le_pow_right (by decide) hw
  have hpos := Nat.two_pow_pos w
  have hmod := Nat.mod_lt v.toNat hpos
  apply BitVec.eq_of_toNat_eq
  rw [BitVec.toNat_and, BitVec.toNat_ofNat, Nat.mod_eq_of_lt (by omega), Nat.and_two_pow_sub_one_eq_mod,
    BitVec.toNat_setWidth, BitVec.toNat_setWidth, Nat.mod_eq_of_lt (by omega)]

theorem bitWord_getLsbD_zero (v : Word) : bitWord (v.getLsbD 0) = v &&& 1 := by
  rw [bitWord, ← BitVec.setWidth_one]
  exact setWidth_setWidth_eq_and v (by decide)

theorem getLsbD_flagsWord (s : State) :
    (flagsWord s).getLsbD 0 = s.algChanged ∧ (flagsWord s).getLsbD 1 = s.uscaleChanged := by
  rw [flagsWord]
  cases s.uscaleChanged <;> cases s.algChanged <;> exact ⟨rfl, rfl⟩

/-- Words that agree in bits 0 and 1 agree under the mask of the two. -/
theorem and_three_congr {v w : Word} (h0 : v.getLsbD 0 = w.getLsbD 0) (h1 : v.getLsbD 1 = w.getLsbD 1) :
    v &&& 3 = w &&& 3 := by
  have low : v.setWidth 2 = w.setWidth 2 := by
    apply BitVec.eq_of_getLsbD_eq
    intro i hi
    rw [BitVec.getLsbD_setWidth, BitVec.getLsbD_setWidth]
    obtain rfl | rfl : i = 0 ∨ i = 1 := by omega
    · rw [h0]
    · rw [h1]
  calc v &&& 3 = (v.setWidth 2).setWidth 32 := (setWidth_setWidth_eq_and v (w := 2) (by decide)).symm
    _ = w &&& 3 := by rw [low]; exact setWidth_setWidth_eq_and w (by decide)

/-- `WRC` and then `RDC` of the same register of channel `ch`. -/
theorem rdc_of_wrc {s : State} {ch : Fin NC} {reg : CReg} {v : Word}
    (h : readC (s.setChan ch (writeC (look s.chan ch) s.wdata reg)) ch reg = v) :
    ∃ t u, exec (.wrc ch.val reg) s = .next t ∧ exec (.rdc ch.val reg) t = .next u ∧ u.rdata = v := by
  let t := (s.setChan ch (writeC (look s.chan ch) s.wdata reg)).ret 0
  refine ⟨t, t.ret (readC t ch reg), ?_, ?_, ?_⟩
  · simp only [exec, execWrc, chanOf_val, t]
  · simp only [exec, execRdc, chanOf_val]
  · rw [← h]
    cases reg <;> rfl

/-- `WRG` and then `RDG` of the same register. -/
theorem rdg_of_wrg {s : State} {reg : GReg} {v : Word} (h : readG (writeG s s.wdata reg) reg = v) :
    ∃ t u, exec (.wrg reg) s = .next t ∧ exec (.rdg reg) t = .next u ∧ u.rdata = v := by
  refine ⟨(writeG s s.wdata reg).ret 0, _, rfl, rfl, ?_⟩
  rw [← h]
  cases reg <;> rfl

/-- Settles O13: a write and a read of one register return its field of the data word, register by register. -/
theorem writtenRegisterReadsBack : Obligations.WrittenRegisterReadsBack := by
  unfold Obligations.WrittenRegisterReadsBack
  intro s ch
  refine ⟨fun reg hreg => ?word, fun reg hreg => ?bit, fun reg hreg => ?gword, fun reg hreg => ?gfield, ?glide, ?flags⟩
  case word =>
    refine rdc_of_wrc ?_
    fin_cases hreg <;> simp [readC, writeC]
  case bit =>
    refine rdc_of_wrc ?_
    rw [← bitWord_getLsbD_zero]
    fin_cases hreg <;> simp [readC, writeC]
  case gword =>
    refine rdg_of_wrg ?_
    fin_cases hreg <;> rfl
  case gfield =>
    refine rdg_of_wrg ?_
    fin_cases hreg <;> exact setWidth_setWidth_eq_and s.wdata (by decide)
  case glide => exact rdg_of_wrg (bitWord_getLsbD_zero s.wdata)
  case flags =>
    obtain ⟨t, u, ht, hu, hr⟩ := rdg_of_wrg (s := s) (reg := .flags) rfl
    obtain ⟨h0, h1⟩ := getLsbD_flagsWord (writeFlags s s.wdata)
    refine ⟨t, u, ht, hu, and_three_congr ?_ ?_⟩
    · rw [hr, BitVec.getLsbD_and, readG, writeG, h0, writeFlags]
      cases s.wdata.getLsbD 0 <;> simp
    · rw [hr, BitVec.getLsbD_and, readG, writeG, h1, writeFlags]
      cases s.wdata.getLsbD 1 <;> simp

end Sys2Proof.Machine
end

section
/-! SUPPORT. The frames of the tick and of the host-side commands: who writes which part of the state (10_state.md
R34, R35). -/

namespace Sys2Proof.Machine

/-! ## What a tick leaves alone (R34, R35) -/

/-- The parts of a state the host writes and a tick only reads, as one value. -/
def State.controlPart (s : State) :=
  (s.algsel, s.glide, s.fscale, s.qglobal, s.hostrate, s.inch, s.outmode, s.chan, s.inlane, s.usStage, s.host, s.probe,
    s.wdata, s.draws, s.params)

theorem sameControl_iff (s t : State) : s.sameControl t ↔ t.controlPart = s.controlPart := by
  simp only [State.sameControl, State.controlPart, Prod.mk.injEq]

theorem params_eq_of_controlPart {s t : State} (h : t.controlPart = s.controlPart) : t.params = s.params := by
  simp only [State.controlPart, Prod.mk.injEq] at h
  simp only [h]

@[simp] theorem ret_controlPart (s : State) (r : Word) : (s.ret r).controlPart = s.controlPart := rfl
@[simp] theorem setBlk_controlPart (s : State) (b : Block) : (s.setBlk b).controlPart = s.controlPart := rfl
@[simp] theorem accumulate_controlPart (s : State) : (accumulate s).controlPart = s.controlPart := rfl
@[simp] theorem resampleIn_controlPart (s : State) : (resampleIn s).controlPart = s.controlPart := rfl
@[simp] theorem quantize_controlPart (s : State) : (quantize s).controlPart = s.controlPart := rfl
@[simp] theorem clipTest_controlPart (s : State) : (clipTest s).controlPart = s.controlPart := rfl
@[simp] theorem compose_controlPart (s : State) : (compose s).controlPart = s.controlPart := rfl
@[simp] theorem resampleOut_controlPart (s : State) : (resampleOut s).controlPart = s.controlPart := rfl
@[simp] theorem drain_controlPart (s : State) : (drain s).controlPart = s.controlPart := rfl

@[simp] theorem fanIn_controlPart (s : State) : (fanIn s).controlPart = s.controlPart := by
  unfold fanIn
  cases fanInOf s.inch <;> rfl

@[simp] theorem foldOut_controlPart (s : State) : (foldOut s).controlPart = s.controlPart := by
  unfold foldOut
  cases outModeOf s.outmode <;> rfl

@[simp] theorem blkStart_controlPart (s : State) : (blkStart s).controlPart = s.controlPart := by
  obtain ⟨a, b, p, u, h⟩ := blkStart_frame s
  rw [h]
  rfl

/-- A resonator operation writes nothing the host writes. -/
theorem FilterFrame.controlPart_eq {ch : Fin NC} {s t : State} (h : FilterFrame ch s t) :
    t.controlPart = s.controlPart := (congrArg State.controlPart h.rest).trans rfl

@[simp] theorem filt2p_controlPart (ch : Fin NC) (s : State) : (filt2p ch s).controlPart = s.controlPart :=
  (filt2p_frame ch s).controlPart_eq
@[simp] theorem filt1p_controlPart (ch : Fin NC) (s : State) : (filt1p ch s).controlPart = s.controlPart :=
  (filt1p_frame ch s).controlPart_eq
@[simp] theorem filtbl_controlPart (ch : Fin NC) (s : State) : (filtbl ch s).controlPart = s.controlPart :=
  (filtbl_frame ch s).controlPart_eq
@[simp] theorem filter_controlPart (s : State) (ch : Fin NC) : (filter s ch).controlPart = s.controlPart :=
  (filter_frame ch s).controlPart_eq

@[simp] theorem filters_controlPart (s : State) (l : List (Fin NC)) :
    (l.foldl filter s).controlPart = s.controlPart := by
  induction l generalizing s with
  | nil => rfl
  | cons ch l ih => rw [List.foldl_cons, ih, filter_controlPart]

@[simp] theorem engine_controlPart (s : State) : (engine s).controlPart = s.controlPart := by simp [engine]

@[simp] theorem firedBlock_controlPart (s : State) : (firedBlock s).controlPart = s.controlPart := by simp [firedBlock]

@[simp] theorem process_controlPart (s : State) : (process s).controlPart = s.controlPart := by
  simp only [process]
  split
  · exact (firedBlock_controlPart _).trans (accumulate_controlPart s)
  · exact accumulate_controlPart s

@[simp] theorem tick_controlPart (s : State) : (tick s).controlPart = s.controlPart := by simp [tick]

/-! ## What an instruction writes -/

/-- What a host-side command writes at most: the global and channel registers, the event flags, the input lanes, the
staging overlay and the result word (R35). -/
def State.hostFrame (s t : State) : Prop :=
  t = { s with
    algsel := t.algsel, glide := t.glide, fscale := t.fscale, qglobal := t.qglobal, hostrate := t.hostrate
    inch := t.inch, outmode := t.outmode, algChanged := t.algChanged, uscaleChanged := t.uscaleChanged
    chan := t.chan, inlane := t.inlane, usStage := t.usStage, rdata := t.rdata }

theorem writeG_hostFrame (s : State) (v : Word) (reg : GReg) : s.hostFrame ((writeG s v reg).ret 0) := by
  cases reg <;> rfl

/-- Every command but `TICK` completes, and writes no more than the host may. -/
theorem exec_hostCommand (i : Instr) (s : State) (hi : hostCommand i = true) :
    ∃ t, exec i s = .next t ∧ s.hostFrame t := by
  cases i with
  | nop | reset | usc | bank | rdg | wus => exact ⟨_, rfl, rfl⟩
  | wrg reg => exact ⟨_, rfl, writeG_hostFrame s s.wdata reg⟩
  | wrc ch | rdc ch | rob ch =>
    simp only [exec, execWrc, execRdc, execRob]
    cases chanOf ch <;> exact ⟨_, rfl, rfl⟩
  | win | rout =>
    simp only [exec, execWin, execRout]
    split <;> exact ⟨_, rfl, rfl⟩
  | tick | filt2p | filt1p | filtbl | fold1 | fold2 | fold6 | fanin2 | fanin3 | fanin6 => cases hi

/-- `TICK` and the engine operations complete, and write nothing the host writes. -/
theorem exec_engineOperation (i : Instr) (s : State) (hi : hostCommand i = false) :
    ∃ t, exec i s = .next t ∧ t.controlPart = s.controlPart := by
  cases i with
  | tick => exact ⟨_, rfl, tick_controlPart s⟩
  | filt2p ch | filt1p ch | filtbl ch =>
    simp only [exec, execFilt2p, execFilt1p, execFiltbl]
    cases chanOf ch with
    | none => exact ⟨s, rfl, rfl⟩
    | some c => exact ⟨_, rfl, by simp⟩
  | fold1 | fold2 | fold6 | fanin2 | fanin3 | fanin6 => exact ⟨_, rfl, setBlk_controlPart s _⟩
  | nop | reset | usc | bank | wrg | rdg | wrc | rdc | wus | win | rout | rob => cases hi

/-- No instruction changes the parameters (R34). -/
theorem exec_params {i : Instr} {s t : State} (h : exec i s = .next t) : t.params = s.params := by
  cases hi : hostCommand i
  · obtain ⟨u, hu, hpart⟩ := exec_engineOperation i s hi
    obtain rfl := Host.Outcome.next.inj (hu.symm.trans h)
    exact params_eq_of_controlPart hpart
  · obtain ⟨u, hu, hframe⟩ := exec_hostCommand i s hi
    obtain rfl := Host.Outcome.next.inj (hu.symm.trans h)
    exact (congrArg State.params hframe).trans rfl

/-- What a step fetches runs in a state with the same parameters. -/
theorem fetch_params {s b : State} {sp : Space} {w : Word} (h : fetch s = some (sp, w, b)) : b.params = s.params := by
  rcases fetch_cases s with ⟨-, -, e⟩ | ⟨t, rest, -, -, e⟩ | ⟨sp', w', -, e⟩
  · cases e.symm.trans h
  · cases e.symm.trans h; rfl
  · cases e.symm.trans h; rfl

/-- No step changes the parameters (R34). -/
theorem step_params {s t : State} (h : step s = .next t) : t.params = s.params := by
  rcases step_cases s with ⟨-, e⟩ | ⟨sp, w, b, i, hf, -, e⟩ | ⟨sp, w, b, _, hf, -, e⟩
  · cases e.symm.trans h; rfl
  · exact (exec_params (e.symm.trans h)).trans (fetch_params hf)
  · cases e.symm.trans h; exact (ret_params b 0).trans (fetch_params hf)

/-- Settles O38: phase by phase for the tick, by the frame of a resonator operation for the filters, and instruction by
instruction for the parameters. -/
theorem tickKeepsHostWrittenState : Obligations.TickKeepsHostWrittenState := by
  unfold Obligations.TickKeepsHostWrittenState
  exact ⟨fun s => ⟨tick s, rfl, (sameControl_iff ..).2 (tick_controlPart s)⟩,
    fun s ch => (sameControl_iff ..).2 (filter_controlPart s ch), fun _ _ => step_params⟩

/-- What only the engine writes (R35) is none of the fields a host-side command writes. -/
theorem State.hostFrame.sameEngine {s t : State} (h : s.hostFrame t) : s.sameEngine t := by
  rw [State.hostFrame] at h
  rw [h]
  simp [State.sameEngine]

/-- Settles O39: by the frame of the host-side commands. -/
theorem hostCommandsKeepEngineState : Obligations.HostCommandsKeepEngineState := by
  unfold Obligations.HostCommandsKeepEngineState
  intro i s hi
  obtain ⟨t, ht, hframe⟩ := exec_hostCommand i s hi
  exact ⟨t, ht, hframe.sameEngine⟩

end Sys2Proof.Machine
end

section
/-! SUPPORT. The memory chapter (20_memory.md): reads without side effect (R58), and the hand-off of the staged overlay
(R60). -/

namespace Sys2Proof.Machine

/-! ## Reads (R58) -/

/-- No register's value depends on the result word. -/
@[simp] theorem readG_ret (s : State) (r : Word) (reg : GReg) : readG (s.ret r) reg = readG s reg := by
  cases reg <;> rfl

@[simp] theorem readC_ret (s : State) (r : Word) (ch : Fin NC) (reg : CReg) :
    readC (s.ret r) ch reg = readC s ch reg := by
  cases reg <;> rfl

/-- Settles O14: each of the four reads answers a value that does not depend on the result word. -/
theorem registerReadsHaveNoSideEffect : Obligations.RegisterReadsHaveNoSideEffect := by
  unfold Obligations.RegisterReadsHaveNoSideEffect
  rintro s i (⟨g, rfl⟩ | ⟨ch, c, rfl⟩ | ⟨l, rfl⟩ | ⟨ch, n, rfl⟩)
  · exact ⟨_, rfl, fun r' => by rw [← readG_ret s r' g]; rfl⟩
  · simp only [exec, execRdc]
    cases chanOf ch with
    | none => exact ⟨0, rfl, fun _ => rfl⟩
    | some d => exact ⟨_, rfl, fun r' => by rw [← readC_ret s r' d c]; rfl⟩
  · simp only [exec, execRout]
    split <;> exact ⟨_, rfl, fun _ => rfl⟩
  · simp only [exec, execRob]
    cases chanOf ch <;> exact ⟨_, rfl, fun _ => rfl⟩

/-! ## The active overlay (R60, R110) -/

/-- The fan-in a tick selects writes block-local buffers only. -/
theorem fanIn_eq_setBlk (s : State) : ∃ b, fanIn s = s.setBlk b := by
  unfold fanIn
  cases fanInOf s.inch <;> exact ⟨_, rfl⟩

/-- The fold a tick selects writes block-local buffers only. -/
theorem foldOut_eq_setBlk (s : State) : ∃ b, foldOut s = s.setBlk b := by
  unfold foldOut
  cases outModeOf s.outmode <;> exact ⟨_, rfl⟩

theorem FilterFrame.usActive_eq {ch : Fin NC} {s t : State} (h : FilterFrame ch s t) : t.usActive = s.usActive :=
  (congrArg State.usActive h.rest).trans rfl

@[simp] theorem filt2p_usActive (ch : Fin NC) (s : State) : (filt2p ch s).usActive = s.usActive :=
  (filt2p_frame ch s).usActive_eq
@[simp] theorem filt1p_usActive (ch : Fin NC) (s : State) : (filt1p ch s).usActive = s.usActive :=
  (filt1p_frame ch s).usActive_eq
@[simp] theorem filtbl_usActive (ch : Fin NC) (s : State) : (filtbl ch s).usActive = s.usActive :=
  (filtbl_frame ch s).usActive_eq
@[simp] theorem filter_usActive (s : State) (ch : Fin NC) : (filter s ch).usActive = s.usActive :=
  (filter_frame ch s).usActive_eq

@[simp] theorem filters_usActive (s : State) (l : List (Fin NC)) : (l.foldl filter s).usActive = s.usActive := by
  induction l generalizing s with
  | nil => rfl
  | cons ch l ih => rw [List.foldl_cons, ih, filter_usActive]

/-- The overlay the next block uses (R110). -/
theorem activateOverlay_usActive (s : State) :
    (activateOverlay s).usActive = if s.uscaleChanged = true then s.usStage else s.usActive := by
  unfold activateOverlay
  split <;> rfl

theorem blkStart_usActive (s : State) : (blkStart s).usActive = (activateOverlay s).usActive := by
  obtain ⟨a, b, p, h⟩ := blkStartLoop_frame channels (activateOverlay s)
  rw [blkStart, h]

@[simp] theorem compose_usActive (s : State) : (compose s).usActive = s.usActive := rfl

/-- After block start nothing in the engine writes the active overlay. -/
theorem engine_usActive (s : State) : (engine s).usActive = (activateOverlay s).usActive := by
  rw [engine, compose_usActive, filters_usActive, clipTest_usActive, blkStart_usActive]

/-- The compositor ends a block by consuming the event flags (R174). -/
theorem engine_uscaleChanged (s : State) : (engine s).uscaleChanged = false := rfl

/-- A block activates the overlay that was staged when it began: the phases before the engine write neither the overlay
buffers nor the flag, and those after it not the active overlay. -/
theorem firedBlock_usActive (s : State) :
    (firedBlock s).usActive = if s.uscaleChanged = true then s.usStage else s.usActive := by
  obtain ⟨b, hin⟩ := fanIn_eq_setBlk (quantize (resampleIn s))
  obtain ⟨c, hout⟩ := foldOut_eq_setBlk (engine ((quantize (resampleIn s)).setBlk b))
  calc (firedBlock s).usActive = (engine ((quantize (resampleIn s)).setBlk b)).usActive := by
        rw [firedBlock, hin, hout]; rfl
    _ = _ := (engine_usActive _).trans (activateOverlay_usActive _)

theorem firedBlock_uscaleChanged (s : State) : (firedBlock s).uscaleChanged = false := by
  obtain ⟨c, hout⟩ := foldOut_eq_setBlk (engine (fanIn (quantize (resampleIn s))))
  rw [firedBlock, hout]
  rfl

/-- Up to the drain, a tick that fires is its block run on the accumulated state. -/
theorem process_of_fire {s : State} (h : fireTest (accumulate s) = true) :
    process s = { firedBlock (accumulate s) with fired := true } := if_pos h

/-- Up to the drain, a tick that does not fire only accumulates. -/
theorem process_of_not_fire {s : State} (h : fireTest (accumulate s) = false) :
    process s = { accumulate s with fired := false } := if_neg (by simp [h])

@[simp] theorem tick_usActive (s : State) : (tick s).usActive = (process s).usActive := rfl
@[simp] theorem tick_uscaleChanged (s : State) : (tick s).uscaleChanged = (process s).uscaleChanged := rfl

theorem tick_usStage (s : State) : (tick s).usStage = s.usStage := by
  have h := (sameControl_iff s (tick s)).2 (tick_controlPart s)
  simp only [State.sameControl] at h
  simp only [h]

/-- An engine operation run alone does not write the active overlay. -/
theorem exec_engineOperation_usActive {i : Instr} (s : State) (hi : hostCommand i = false) (ht : i ≠ .tick) :
    ∃ t, exec i s = .next t ∧ t.usActive = s.usActive := by
  cases i with
  | filt2p ch | filt1p ch | filtbl ch =>
    simp only [exec, execFilt2p, execFilt1p, execFiltbl]
    cases chanOf ch with
    | none => exact ⟨s, rfl, rfl⟩
    | some c => exact ⟨_, rfl, by simp⟩
  | fold1 | fold2 | fold6 | fanin2 | fanin3 | fanin6 => exact ⟨_, rfl, rfl⟩
  | tick => exact absurd rfl ht
  | nop | reset | usc | bank | wrg | rdg | wrc | rdc | wus | win | rout | rob => cases hi

/-- No instruction but `TICK` changes the active overlay. -/
theorem exec_usActive {i : Instr} {s t : State} (ht : i ≠ .tick) (h : exec i s = .next t) : t.usActive = s.usActive := by
  cases hi : hostCommand i
  · obtain ⟨u, hu, hactive⟩ := exec_engineOperation_usActive s hi ht
    exact Host.Outcome.next.inj (hu.symm.trans h) ▸ hactive
  · obtain ⟨u, hu, hframe⟩ := exec_hostCommand i s hi
    obtain rfl := Host.Outcome.next.inj (hu.symm.trans h)
    exact (congrArg State.usActive hframe).trans rfl

/-- Settles O24: a fired tick leaves what its block activates, a tick that does not fire only accumulates and drains,
and every other instruction is framed. -/
theorem overlayHandoff : Obligations.OverlayHandoff := by
  unfold Obligations.OverlayHandoff
  refine ⟨fun i s t => exec_usActive, fun s => ⟨tick s, rfl, tick_usStage s, fun hfire => ?fires, fun hfire => ?idle⟩,
    filter_usActive⟩
  case fires =>
    rw [tick_usActive, tick_uscaleChanged, process_of_fire hfire]
    exact ⟨firedBlock_usActive (accumulate s), firedBlock_uscaleChanged (accumulate s)⟩
  case idle =>
    rw [tick_usActive, tick_uscaleChanged, process_of_not_fire hfire]
    exact ⟨rfl, rfl⟩

end Sys2Proof.Machine
end

section
/-! SUPPORT. The encoding chapter (30_encoding.md): the fields of a command word, the register maps and the round trip
through the encoder (R71 to R78). -/

namespace Sys2Proof

/-! ## The fields of a command word (R71) -/

theorem opField_eq (w : Word) : opField w = w.toNat / 2 ^ 24 := by
  rw [opField, BitVec.extractLsb'_toNat, Nat.shiftRight_eq_div_pow]
  exact Nat.mod_eq_of_lt (by have := w.isLt; omega)

theorem chField_eq (w : Word) : chField w = w.toNat / 2 ^ 20 % 16 := by
  rw [chField, BitVec.extractLsb'_toNat, Nat.shiftRight_eq_div_pow]

theorem idxField_eq (w : Word) : idxField w = w.toNat / 2 ^ 8 % 4096 := by
  rw [idxField, BitVec.extractLsb'_toNat, Nat.shiftRight_eq_div_pow]

theorem toNat_append_ofNat {m : Nat} (x : BitVec m) (n k : Nat) :
    (x ++ BitVec.ofNat n k).toNat = x.toNat * 2 ^ n + k % 2 ^ n := by
  rw [BitVec.toNat_append, BitVec.toNat_ofNat, ← Nat.shiftLeft_add_eq_or_of_lt (Nat.mod_lt _ (Nat.two_pow_pos n)),
    Nat.shiftLeft_eq]

/-- The three fields of a command word and its zero byte, as one number. -/
theorem toNat_cmdWord (op ch idx : Nat) :
    (cmdWord op ch idx).toNat = ((op % 2 ^ 8 * 2 ^ 4 + ch % 2 ^ 4) * 2 ^ 12 + idx % 2 ^ 12) * 2 ^ 8 := by
  calc (cmdWord op ch idx).toNat
      = (BitVec.ofNat 8 op ++ BitVec.ofNat 4 ch ++ BitVec.ofNat 12 idx).toNat * 2 ^ 8 + 0 % 2 ^ 8 :=
        toNat_append_ofNat ..
    _ = _ := by simp only [toNat_append_ofNat, BitVec.toNat_ofNat, Nat.zero_mod, Nat.add_zero]

@[simp] theorem chField_cmdWord (op ch idx : Nat) : chField (cmdWord op ch idx) = ch % 16 := by
  rw [chField_eq, toNat_cmdWord]; omega

@[simp] theorem idxField_cmdWord (op ch idx : Nat) : idxField (cmdWord op ch idx) = idx % 4096 := by
  rw [idxField_eq, toNat_cmdWord]; omega

theorem toNat_cmdWord_mod (op ch idx : Nat) : (cmdWord op ch idx).toNat % 256 = 0 := by
  rw [toNat_cmdWord]; omega

/-! ## The register maps (R74, R75) -/

theorem gregOfNum_of_ge {n : Nat} (h : 9 ≤ n) : gregOfNum n = .undefined n := by
  obtain ⟨m, rfl⟩ := Nat.exists_eq_add_of_le' h
  rfl

theorem cregOfNum_of_ge {n : Nat} (h : 16 ≤ n) : cregOfNum n = .undefined n := by
  obtain ⟨m, rfl⟩ := Nat.exists_eq_add_of_le' h
  rfl

/-- Twelve bits of a register's number name the register. -/
theorem gregOfNum_num_mod {reg : GReg} (h : reg.wf = true) : gregOfNum (reg.num % 4096) = reg := by
  cases reg with
  | undefined n =>
    obtain ⟨hlo, hhi⟩ : 9 ≤ n ∧ n < 4096 := by simpa [GReg.wf] using h
    exact (congrArg gregOfNum (Nat.mod_eq_of_lt hhi)).trans (gregOfNum_of_ge hlo)
  | _ => rfl

theorem cregOfNum_num_mod {reg : CReg} (h : reg.wf = true) : cregOfNum (reg.num % 4096) = reg := by
  cases reg with
  | undefined n =>
    obtain ⟨hlo, hhi⟩ : 16 ≤ n ∧ n < 4096 := by simpa [CReg.wf] using h
    exact (congrArg cregOfNum (Nat.mod_eq_of_lt hhi)).trans (cregOfNum_of_ge hlo)
  | _ => rfl

/-! ## The selector words of the resonator operations (R76) -/

theorem toNat_selWord (sel ch : Nat) : (selWord sel ch).toNat = ch % 2 ^ 4 * 2 ^ 8 + sel % 2 ^ 8 := by
  calc (selWord sel ch).toNat = ((0 : BitVec 20) ++ BitVec.ofNat 4 ch).toNat * 2 ^ 8 + sel % 2 ^ 8 :=
        toNat_append_ofNat ..
    _ = _ := by rw [toNat_append_ofNat]; simp

/-- A resonator operation's word decodes to the operation its selector bits choose, on its channel. -/
theorem decode_selWord (sel : Nat) {ch : Nat} (h : ch < NC) :
    decode .algsel (selWord sel ch) = .ok (decodeAlgsel (BitVec.ofNat 2 sel) ch) := by
  have hch : ((selWord sel ch).extractLsb' 8 4).toNat = ch := by
    rw [BitVec.extractLsb'_toNat, Nat.shiftRight_eq_div_pow, toNat_selWord]
    have := NC_eq
    omega
  have hsel : (selWord sel ch).setWidth 2 = BitVec.ofNat 2 sel := by
    apply BitVec.eq_of_toNat_eq
    rw [BitVec.toNat_setWidth, BitVec.toNat_ofNat, toNat_selWord]; omega
  rw [decode, hch, hsel, if_pos h]

/-! ## The round trip -/

/-- Settles O4, format by format: the fields of a built word are the operands it was built from. -/
theorem decodeOfEncodeIsIdentity : Obligations.DecodeOfEncodeIsIdentity := by
  unfold Obligations.DecodeOfEncodeIsIdentity
  intro i hi
  cases i with
  | nop | reset | tick | usc | bank | fold1 | fold2 | fold6 | fanin2 | fanin3 | fanin6 => rfl
  | wrg reg | rdg reg => simp [encode, decode, decodeCmd, opField_cmdWord, gregOfNum_num_mod hi]
  | wrc ch reg | rdc ch reg =>
    obtain ⟨hch, hreg⟩ : ch < 16 ∧ reg.wf = true := by simpa [Instr.wf] using hi
    simp [encode, decode, decodeCmd, opField_cmdWord, Nat.mod_eq_of_lt hch, cregOfNum_num_mod hreg]
  | wus idx | win idx | rout idx =>
    have hidx : idx < 4096 := by simpa [Instr.wf] using hi
    simp [encode, decode, decodeCmd, opField_cmdWord, Nat.mod_eq_of_lt hidx]
  | rob ch idx =>
    obtain ⟨hch, hidx⟩ : ch < 16 ∧ idx < 4096 := by simpa [Instr.wf] using hi
    simp [encode, decode, decodeCmd, opField_cmdWord, Nat.mod_eq_of_lt hch, Nat.mod_eq_of_lt hidx]
  | filt2p ch | filt1p ch | filtbl ch =>
    have hch : ch < NC := by simpa [Instr.wf] using hi
    exact decode_selWord _ hch

/-! ## The decoder on command words (R71, R72, R79) -/

/-- An opcode outside the map of R72 is rejected by name. -/
theorem decodeCmd_reserved {w : Word}
    (h : opField w ∉ [0x00, 0x01, 0x02, 0x03, 0x04, 0x10, 0x11, 0x12, 0x13, 0x14, 0x20, 0x21, 0x22]) :
    decodeCmd w = .error (.reservedOpcode (opField w)) := by
  unfold decodeCmd
  split <;> simp_all

theorem decodeCmd_nop {w : Word} (h : opField w = 0x00) : decodeCmd w = .ok .nop := by
  simp only [decodeCmd, h]

/-- Settles O6: the decoder's equation at each opcode, and the two maps and the example words evaluated. -/
theorem opcodeMapAndExampleWords : Obligations.OpcodeMapAndExampleWords := by
  unfold Obligations.OpcodeMapAndExampleWords
  refine ⟨fun w => ?_, rfl, rfl, rfl, rfl, rfl, rfl, rfl, rfl, rfl, rfl, rfl⟩
  and_intros <;> intro h <;> simp only [decodeCmd, h]

/-- Words alike in the fields their opcode's format uses decode alike. -/
theorem decodeCmd_congr {w v : Word} (hop : opField w = opField v)
    (hidx : opField w ∈ [0x10, 0x11, 0x14, 0x20, 0x21, 0x12, 0x13, 0x22] → idxField w = idxField v)
    (hch : opField w ∈ [0x12, 0x13, 0x22] → chField w = chField v) : decodeCmd w = decodeCmd v := by
  unfold decodeCmd
  rw [← hop]
  split <;> simp_all

/-- The encoder writes a command from an opcode and the operands of its format: a command whose format has no `ch`
or no `idx` gets zero there. -/
theorem encode_command {i : Instr} (h : (encode i).1 = .command) : ∃ op ch idx, (encode i).2 = cmdWord op ch idx ∧
    (opField (cmdWord op ch idx) ∉ [0x12, 0x13, 0x22] → ch = 0) ∧
    (opField (cmdWord op ch idx) ∉ [0x10, 0x11, 0x14, 0x20, 0x21, 0x12, 0x13, 0x22] → idx = 0) := by
  cases i with
  | nop | reset | tick | usc | bank => exact ⟨_, 0, 0, rfl, fun _ => rfl, fun _ => rfl⟩
  | wrg | rdg | wus | win | rout => exact ⟨_, 0, _, rfl, fun _ => rfl, by simp [opField_cmdWord]⟩
  | wrc | rdc | rob => exact ⟨_, _, _, rfl, by simp [opField_cmdWord], by simp [opField_cmdWord]⟩
  | filt2p | filt1p | filtbl | fold1 | fold2 | fold6 | fanin2 | fanin3 | fanin6 => cases h

/-- Settles O5: the decoder by its cases, the encoder by its formats. -/
theorem unusedFieldsAreIgnored : Obligations.UnusedFieldsAreIgnored := by
  unfold Obligations.UnusedFieldsAreIgnored
  refine ⟨fun w => ⟨opField_eq w, chField_eq w, idxField_eq w⟩, fun w v => decodeCmd_congr, fun i _ hcmd => ?_⟩
  obtain ⟨op, ch, idx, e, hch, hidx⟩ := encode_command hcmd
  rw [e]
  exact ⟨toNat_cmdWord_mod .., fun hno => by rw [chField_cmdWord, hch hno],
    fun hno => by rw [idxField_cmdWord, hidx hno]⟩

end Sys2Proof
end

section
/-! SUPPORT. What a step makes of an encoding (30_encoding.md): the transaction it runs (R70), the operation a selector
chooses (R76 to R78), and encodings that do nothing (R79, R100). -/

namespace Sys2Proof.Machine

/-! ## A step runs what its word decodes to (R70) -/

theorem fetch_of_host {s : State} {t : Txn} {rest : List Txn} (hp : s.probe = none) (hh : s.host = t :: rest) :
    fetch s = some (.command, t.word, begin s t rest) := by
  simp only [fetch, hp, hh]

theorem fetch_of_idle {s : State} (hp : s.probe = none) (hh : s.host = []) : fetch s = none := by
  simp only [fetch, hp, hh]

theorem fetch_of_probe {s : State} {sp : Space} {w : Word} (hp : s.probe = some (sp, w)) :
    fetch s = some (sp, w, beginProbe s) := by
  simp only [fetch, hp]

/-- A table row's word placed to run next is what is fetched next, whichever way it was placed. -/
theorem fetch_withFetchWord (s : State) (nbits w : Nat) :
    fetch (s.withFetchWord nbits w) = some (tableSpace nbits, BitVec.ofNat 32 w, beginProbe s) := by
  unfold State.withFetchWord place tableSpace
  by_cases h : nbits ≤ 8
  · simp only [if_pos h]; rfl
  · simp only [if_neg h]; rfl

theorem step_of_fetch {s b : State} {sp : Space} {w : Word} {i : Instr} (hf : fetch s = some (sp, w, b))
    (hd : decode sp w = .ok i) : step s = exec i b := by
  simp only [step, hf, hd]

theorem step_of_fetch_error {s b : State} {sp : Space} {w : Word} {e : DecodeError} (hf : fetch s = some (sp, w, b))
    (hd : decode sp w = .error e) : step s = .next (reserved b) := by
  simp only [step, hf, hd]

theorem step_of_idle {s : State} (hf : fetch s = none) : step s = .next s := by
  simp only [step, hf]

theorem decode_of_decodeTableWord {nbits w : Nat} {i : Instr} (h : decodeTableWord nbits w = some i) :
    decode (tableSpace nbits) (BitVec.ofNat 32 w) = .ok i := by
  unfold decodeTableWord at h
  split at h
  · next hd => rw [hd, Option.some.inj h]
  · cases h

/-- Settles O1: what is fetched in each case, and that a step runs it. -/
theorem stepRunsDecodedTransaction : Obligations.StepRunsDecodedTransaction := by
  unfold Obligations.StepRunsDecodedTransaction
  exact ⟨fun _ _ _ hp hh => ⟨fun _ => step_of_fetch (fetch_of_host hp hh),
      fun _ => step_of_fetch_error (fetch_of_host hp hh)⟩,
    fun _ hp hh => step_of_idle (fetch_of_idle hp hh),
    fun _ _ _ _ hp => step_of_fetch (fetch_of_probe hp),
    fun s nbits w _ h => step_of_fetch (fetch_withFetchWord s nbits w) (decode_of_decodeTableWord h)⟩

/-! ## Selectors (R76 to R78, R181) -/

theorem exec_decodeAlgsel (s : State) (ch : Fin NC) : exec (decodeAlgsel s.algsel ch.val) s = .next (filter s ch) := by
  unfold decodeAlgsel filter
  cases algOf s.algsel <;> simp [exec, execFilt2p, execFilt1p, execFiltbl]

theorem exec_decodeOutmode (s : State) : exec (decodeOutmode s.outmode) s = .next (foldOut s) := by
  unfold decodeOutmode foldOut
  cases outModeOf s.outmode <;> rfl

theorem exec_decodeInch (s : State) : exec (decodeInch s.inch) s = .next (fanIn s) := by
  unfold decodeInch fanIn
  cases fanInOf s.inch <;> rfl

/-- The rows of R78 tried in the order of R83: every value but 0, 1 and 3 is the last row's. -/
theorem fanInOf_six {n : Word} (h0 : n ≠ 0) (h1 : n ≠ 1) (h3 : n ≠ 3) : fanInOf n = .six := by
  have hlow : ¬ n.toNat ≤ 1 := by bv_omega
  have hthree : ¬ n.toNat = 3 := by bv_omega
  rw [fanInOf, if_neg hlow, if_neg hthree]

/-- Settles O7: the selector tables value by value, and that a block's choice and the decoder's are one. -/
theorem selectorsChooseOperations : Obligations.SelectorsChooseOperations := by
  unfold Obligations.SelectorsChooseOperations
  refine ⟨fun _ => ⟨rfl, rfl, rfl, rfl⟩, ⟨rfl, rfl⟩, ⟨rfl, rfl⟩, ⟨rfl, rfl⟩, ⟨rfl, rfl⟩,
    fun n => ⟨?two, ?three, ?six⟩,
    fun s ch => ⟨exec_decodeAlgsel s ch, exec_decodeOutmode s, exec_decodeInch s⟩⟩
  case two => rintro (rfl | rfl) <;> exact ⟨rfl, rfl⟩
  case three => rintro rfl; exact ⟨rfl, rfl⟩
  case six =>
    intro h0 h1 h3
    simp only [decodeInch, ninOf, fanInOf_six h0 h1 h3, and_self]

/-! ## Encodings that do nothing (R79, R100) -/

@[simp] theorem setChan_look (s : State) (ch : Fin NC) : s.setChan ch (look s.chan ch) = s := by
  rw [State.setChan, upd_look]

/-- `STATUS` and the undefined numbers are not written. -/
theorem writeG_gregOfNum (s : State) (v : Word) {n : Nat} (h : 8 ≤ n) : writeG s v (gregOfNum n) = s := by
  obtain rfl | h9 := h.eq_or_lt
  · rfl
  · rw [gregOfNum_of_ge h9]; rfl

/-- The four read-only registers and the undefined numbers are not written. -/
theorem writeC_cregOfNum (c : Chan) (v : Word) {n : Nat} (h : 12 ≤ n) : writeC c v (cregOfNum n) = c := by
  obtain hlt | hge := Nat.lt_or_ge n 16
  · interval_cases n <;> rfl
  · rw [cregOfNum_of_ge hge]; rfl

theorem exec_of_noChannel (s : State) {ch : Nat} (reg : CReg) (i : Nat) (h : 6 ≤ ch) :
    exec (.wrc ch reg) s = .next (s.ret 0) ∧ exec (.rdc ch reg) s = .next (s.ret 0) ∧
    exec (.rob ch i) s = .next (s.ret 0) := by
  simp only [exec, execWrc, execRdc, execRob, chanOf_of_ge h, and_self]

theorem exec_wrg_undefined (s : State) {n : Nat} (h : 8 ≤ n) : exec (.wrg (gregOfNum n)) s = .next (s.ret 0) := by
  rw [exec, execWrg, writeG_gregOfNum _ _ h]

theorem exec_wrc_undefined (s : State) (ch : Nat) {n : Nat} (h : 12 ≤ n) :
    exec (.wrc ch (cregOfNum n)) s = .next (s.ret 0) := by
  rw [exec, execWrc]
  cases chanOf ch with
  | none => rfl
  | some c => simp only [writeC_cregOfNum _ _ h, setChan_look]

theorem exec_rdg_undefined (s : State) {n : Nat} (h : 9 ≤ n) : exec (.rdg (gregOfNum n)) s = .next (s.ret 0) := by
  rw [gregOfNum_of_ge h]; rfl

theorem exec_rdc_undefined (s : State) (ch : Nat) {n : Nat} (h : 16 ≤ n) :
    exec (.rdc ch (cregOfNum n)) s = .next (s.ret 0) := by
  rw [cregOfNum_of_ge h, exec, execRdc]
  cases chanOf ch <;> rfl

theorem exec_wus_outside (s : State) {n : Nat} (h : s.P.ns * s.P.nf ≤ n) : exec (.wus n) s = .next (s.ret 0) := by
  rw [exec, execWus, writeStage, if_neg (Nat.not_lt.2 h)]

theorem exec_win_outside (s : State) {n : Nat} (h : 18 ≤ n) : exec (.win n) s = .next (s.ret 0) :=
  dif_neg (Nat.not_lt.2 h)

theorem exec_rout_outside (s : State) {n : Nat} (h : 6 ≤ n) : exec (.rout n) s = .next (s.ret 0) :=
  dif_neg (Nat.not_lt.2 h)

theorem exec_rob_outside (s : State) (ch : Nat) {n : Nat} (h : s.P.block ≤ n) :
    exec (.rob ch n) s = .next (s.ret 0) := by
  rw [exec, execRob]
  cases chanOf ch with
  | none => rfl
  | some c => simp only [if_neg (Nat.not_lt.2 h)]

/-- Settles O3: `NOP` and the reserved opcodes by the step, and each operand outside its range by its command. -/
theorem nopAndReservedEncodingsDoNothing : Obligations.NopAndReservedEncodingsDoNothing := by
  unfold Obligations.NopAndReservedEncodingsDoNothing
  refine ⟨fun _ => rfl, fun _ => decodeCmd_nop, fun s w d rest hop hp hh => ?reserved,
    fun s ch i reg h => exec_of_noChannel s reg i h,
    fun s ch n => ⟨exec_wrg_undefined s, exec_wrc_undefined s ch, exec_rdg_undefined s, exec_rdc_undefined s ch⟩,
    fun s ch n => ⟨exec_wus_outside s, exec_win_outside s, exec_rout_outside s, exec_rob_outside s ch⟩⟩
  case reserved =>
    by_cases hnop : opField w = 0x00
    · exact step_of_fetch (fetch_of_host hp hh) (decodeCmd_nop hnop)
    · exact step_of_fetch_error (fetch_of_host hp hh)
        (decodeCmd_reserved (List.not_mem_cons_of_ne_of_not_mem hnop hop))

end Sys2Proof.Machine
end

section
/-! SUPPORT. The control commands (40_control_coefstore.md R101 to R111), register by register. -/

namespace Sys2Proof.Machine

/-- An overlay index is the flat index of its scale and note (R53, R108). -/
theorem overlayKey_div_mod (P : Params) (idx : Nat) : overlayKey P (idx / P.nf) (idx % P.nf) = idx :=
  Nat.div_add_mod' idx P.nf

theorem wf_writeStage {s : State} (idx : Nat) (h : s.usStage.wf = true) : (writeStage s idx).wf = true := by
  unfold writeStage
  split
  · exact Memory.wf_write _ _ h
  · exact h

theorem read_writeStage_same {s : State} {idx : Nat} (h : s.usStage.wf = true) (hidx : idx < s.P.ns * s.P.nf) :
    (writeStage s idx).read idx = s.wdata := by
  rw [writeStage, if_pos hidx, Memory.read_write_same h]

theorem read_writeStage_other {s : State} {idx k : Nat} (h : s.usStage.wf = true)
    (hk : k ≠ idx ∨ s.P.ns * s.P.nf ≤ idx) : (writeStage s idx).read k = s.usStage.read k := by
  unfold writeStage
  split
  · next hidx => exact Memory.read_write_ne h (hk.resolve_right (Nat.not_le.2 hidx)) _
  · rfl

/-- Settles O17: what the staging buffer reads after the write, at the written index and at the others. -/
theorem wusWritesOneStagingEntry : Obligations.WusWritesOneStagingEntry := by
  unfold Obligations.WusWritesOneStagingEntry
  refine ⟨fun s idx hwf => ⟨{ s with usStage := writeStage s idx, rdata := 0 }, rfl, rfl, wf_writeStage idx hwf,
    fun hidx => ⟨?written, fun sc nt _ _ hne => ?entry⟩, fun k => read_writeStage_other hwf⟩,
    fun w h => by simp only [decodeCmd, h]⟩
  case written =>
    rw [overlayKey_div_mod]
    exact read_writeStage_same hwf hidx
  case entry => exact read_writeStage_other hwf (.inl hne)

/-- Settles O8: each register's home; a field of two bits is the low two of the data word. -/
theorem wrgWritesGlobalRegister : Obligations.WrgWritesGlobalRegister := by
  unfold Obligations.WrgWritesGlobalRegister
  intro s
  have hfield : s.wdata.setWidth 2 = s.wdata.extractLsb' 0 2 := BitVec.setWidth_eq_extractLsb' (by decide)
  refine ⟨?algsel, rfl, rfl, rfl, rfl, rfl, rfl, ?outmode, rfl, fun _ => rfl,
    fun w h => by simp only [decodeCmd, h]⟩
  case algsel =>
    rw [← hfield]
    rfl
  case outmode =>
    rw [← hfield]
    rfl

theorem bitWord_eq_ite (b : Bool) : bitWord b = if b then 1 else 0 := by
  cases b <;> rfl

/-- Above its two flags `FLAGS` is zero (R74). -/
theorem getLsbD_flagsWord_of_ge (s : State) {i : Nat} (hi : 2 ≤ i) : (flagsWord s).getLsbD i = false := by
  rw [flagsWord, BitVec.getLsbD_setWidth, BitVec.getLsbD_of_ge _ _ hi, Bool.and_false]

/-- Settles O9: each register's value; `FLAGS` by its bits. -/
theorem rdgReadsGlobalRegister : Obligations.RdgReadsGlobalRegister := by
  unfold Obligations.RdgReadsGlobalRegister
  intro s
  refine ⟨rfl, ⟨flagsWord s, rfl, ?flags0, ?flags1, fun i => getLsbD_flagsWord_of_ge s⟩, ?glide, rfl, rfl, rfl, rfl,
    rfl, rfl, fun _ => rfl, fun w h => by simp only [decodeCmd, h]⟩
  case flags0 => exact (getLsbD_flagsWord s).1
  case flags1 => exact (getLsbD_flagsWord s).2
  case glide =>
    rw [← bitWord_eq_ite]
    rfl

theorem exec_wrc (s : State) (ch : Fin NC) (reg : CReg) : exec (.wrc ch.val reg) s =
    .next { s with chan := upd s.chan ch (writeC (look s.chan ch) s.wdata reg), rdata := 0 } := by
  rw [exec, execWrc, chanOf_val]
  rfl

theorem exec_rdc (s : State) (ch : Fin NC) (reg : CReg) :
    exec (.rdc ch.val reg) s = .next { s with rdata := readC s ch reg } := by
  rw [exec, execRdc, chanOf_val]
  rfl

/-- A register no write reaches is written on no channel. -/
theorem exec_wrc_readOnly (s : State) (ch : Nat) {reg : CReg} (h : ∀ c v, writeC c v reg = c) :
    exec (.wrc ch reg) s = .next (s.ret 0) := by
  rw [exec, execWrc]
  cases chanOf ch with
  | none => rfl
  | some c => simp only [h, setChan_look]

/-- Settles O11: each register's home, by the write of a channel's register. -/
theorem wrcWritesChannelRegister : Obligations.WrcWritesChannelRegister := by
  unfold Obligations.WrcWritesChannelRegister
  refine ⟨fun s ch => ?written, fun s ch n => ?readOnly, fun s ch reg h => (exec_of_noChannel s reg 0 h).1,
    fun w h => by simp only [decodeCmd, h]⟩
  case written => and_intros <;> exact exec_wrc s ch _
  case readOnly => and_intros <;> exact exec_wrc_readOnly s ch fun _ _ => rfl

/-- Settles O12: each register's value, by the read of a channel's register. -/
theorem rdcReadsChannelRegister : Obligations.RdcReadsChannelRegister := by
  unfold Obligations.RdcReadsChannelRegister
  refine ⟨fun s ch => ?reads, fun s ch reg h => (exec_of_noChannel s reg 0 h).2.1,
    fun w h => by simp only [decodeCmd, h]⟩
  case reads =>
    simp only [← bitWord_eq_ite]
    and_intros <;> intros <;> exact exec_rdc s ch _

/-- Settles O15: a tick that fires no block only accumulates and drains, which keeps the flag. -/
theorem uscSetsUscaleChanged : Obligations.UscSetsUscaleChanged := by
  unfold Obligations.UscSetsUscaleChanged
  refine ⟨fun s => rfl, fun s t ht => ?twice, fun s => ?flags, fun w h => by simp only [decodeCmd, h]⟩
  case twice =>
    obtain rfl := Host.Outcome.next.inj ht
    refine ⟨rfl, fun hfire => ⟨_, rfl, ?_⟩⟩
    rw [tick_uscaleChanged, process_of_not_fire hfire]
    rfl
  case flags =>
    have halg : (s.algChanged || (2 : Word).getLsbD 0) = s.algChanged := Bool.or_false _
    have husc : (s.uscaleChanged || (2 : Word).getLsbD 1) = true := Bool.or_true _
    simp only [exec, execWrg, writeG, writeFlags, halg, husc]
    rfl

/-- Settles O16: the event for one channel keeps a locked channel's registers. -/
theorem bankEventSparesLockedChannels : Obligations.BankEventSparesLockedChannels := by
  unfold Obligations.BankEventSparesLockedChannels
  exact ⟨fun s => ⟨_, rfl, rfl, fun ch => look_perCh _ ch⟩, fun w h => by simp only [decodeCmd, h]⟩

end Sys2Proof.Machine
end

section
/-! SUPPORT. The indices, the lookups and the morph gate (40_control_coefstore.md R103 to R105; 41_twopass.md R140). -/

namespace Sys2Proof.Machine

/-- A clamped selector as a signed integer (R103). -/
theorem clampIdx_eq_max_min (v : Word) (n : Nat) :
    (clampIdx v (n + 1) : Int) = max 0 (min v.toInt ((n + 1 : Nat) - 1)) := by
  unfold clampIdx clampi
  split
  · omega
  · split <;> simp only [Int.ofNat_eq_natCast] at * <;> omega

/-- Settles O20: each index is one clamp of its register. -/
theorem indicesAreClamped : Obligations.IndicesAreClamped := by
  unfold Obligations.IndicesAreClamped
  intro P c
  and_intros <;> exact clampIdx_eq_max_min _ _

/-- The gate of a finite morph position (R140). -/
theorem morphOn_iff {c : Chan} (h : F.finite c.morph = true) : morphOn c = true ↔ F.val c.morph ≠ 0 := by
  have hzero : F.finite Const.zero = true ∧ F.val Const.zero = 0 := by decide +kernel
  rw [morphOn, Bool.not_eq_true', ← Bool.not_eq_true, F.eq_iff h hzero.1, hzero.2]

/-- Settles O21: each lookup and each parameter function by its definition's branch, the gate by the value of
`MORPH`. -/
theorem lookupsAndMorphGate : Obligations.LookupsAndMorphGate := by
  unfold Obligations.LookupsAndMorphGate
  refine ⟨fun _ _ _ _ => rfl, fun s ch b sc nt hb => ?paired, fun s q hq hf => ?pole, fun P q hq => ?oneArgument,
    fun c => morphOn_iff, fun c => ?negativeZero⟩
  case paired =>
    have hne : b ≠ s.P.nb - 1 := by omega
    exact ⟨if_neg hne, if_neg hne⟩
  case pole => simp only [poleRadius, F.apply2, hq, hf, Bool.and_self, if_true]
  case oneArgument => exact ⟨if_pos hq, if_pos hq, if_pos hq⟩
  case negativeZero =>
    have hfin : F.finite 0x80000000 = true := by decide
    have hval : F.val 0x80000000 = 0 := by decide +kernel
    rw [← Bool.not_eq_true, morphOn_iff (c := { c with morph := 0x80000000 }) hfin]
    exact not_not.2 hval

end Sys2Proof.Machine
end

section
/-! SUPPORT. One channel's view of a state (44_compositor.md R175), its slice of the history arenas (20_memory.md R52),
and what a loop over the channels comes to for one of them. -/

namespace Sys2Proof.Machine

/-! ## A loop over the channels, seen from one of them -/

/-- A loop whose body runs for other channels only keeps what such runs keep. -/
theorem foldl_keeps_of_not_mem {f : State → Fin NC → State} {I : State → Prop} {R : State → State → Prop} {ch : Fin NC}
    (hI : ∀ s d, I s → I (f s d)) (hrefl : ∀ s, R s s) (htrans : ∀ s t u, R s t → R t u → R s u)
    (hother : ∀ s d, d ≠ ch → I s → R s (f s d)) {l : List (Fin NC)} (hl : ch ∉ l) {s : State} (hs : I s) :
    I (l.foldl f s) ∧ R s (l.foldl f s) := by
  induction l generalizing s with
  | nil => exact ⟨hs, hrefl s⟩
  | cons d l ih =>
    obtain ⟨hend, hrel⟩ := ih (List.not_mem_of_not_mem_cons hl) (hI s d hs)
    exact ⟨hend, htrans _ _ _ (hother s d (List.ne_of_not_mem_cons hl).symm hs) hrel⟩

/-- A loop over the channels runs its body once for `ch`, between runs for other channels. -/
theorem foldl_channels_around {f : State → Fin NC → State} {I : State → Prop} {R : State → State → Prop} (ch : Fin NC)
    (hI : ∀ s d, I s → I (f s d)) (hrefl : ∀ s, R s s) (htrans : ∀ s t u, R s t → R t u → R s u)
    (hother : ∀ s d, d ≠ ch → I s → R s (f s d)) {s : State} (hs : I s) :
    I (channels.foldl f s) ∧ ∃ u, I u ∧ R s u ∧ R (f u ch) (channels.foldl f s) := by
  obtain ⟨l, r, hsplit⟩ := List.append_of_mem (mem_channels ch)
  have hnodup : (l ++ ch :: r).Nodup := hsplit ▸ List.nodup_finRange NC
  obtain ⟨-, hr, hdisj⟩ := List.nodup_append.1 hnodup
  have hl : ch ∉ l := fun h => hdisj ch h ch List.mem_cons_self rfl
  obtain ⟨hI1, hR1⟩ := foldl_keeps_of_not_mem hI hrefl htrans hother hl hs
  obtain ⟨hI2, hR2⟩ := foldl_keeps_of_not_mem hI hrefl htrans hother (List.nodup_cons.1 hr).1 (hI _ ch hI1)
  rw [hsplit, List.foldl_append, List.foldl_cons]
  exact ⟨hI2, _, hI1, hR1, hR2⟩

/-! ## What a state looks like to one channel -/

theorem State.alike.refl (s : State) (ch : Fin NC) : s.alike s ch where
  global := ⟨rfl, rfl, rfl, rfl, rfl, rfl, rfl, rfl, rfl⟩
  chan := rfl
  prevbank := rfl
  history _ _ _ := ⟨rfl, rfl⟩
  input := rfl
  outputs := ⟨rfl, rfl, rfl⟩

theorem State.alike.P_eq {s t : State} {ch : Fin NC} (h : s.alike t ch) : t.P = s.P := by
  simp only [State.P, h.global]

theorem State.alike.symm {s t : State} {ch : Fin NC} (h : s.alike t ch) : t.alike s ch where
  global := by simp only [h.global, and_self]
  chan := h.chan.symm
  prevbank := h.prevbank.symm
  history k hlo hhi := by
    rw [h.P_eq] at hlo hhi
    simp only [h.history k hlo hhi, and_self]
  input := h.input.symm
  outputs := by simp only [h.outputs, and_self]

theorem State.alike.trans {s t u : State} {ch : Fin NC} (h : s.alike t ch) (h' : t.alike u ch) : s.alike u ch where
  global := by simp only [h'.global, h.global, and_self]
  chan := h'.chan.trans h.chan
  prevbank := h'.prevbank.trans h.prevbank
  history k hlo hhi := by
    have h2 := h'.history k (h.P_eq ▸ hlo) (h.P_eq ▸ hhi)
    simp only [h2, h.history k hlo hhi, and_self]
  input := h'.input.trans h.input
  outputs := by simp only [h'.outputs, h.outputs, and_self]

/-- The bank a channel's block would use, and whether block start clears its history, are in what it sees. -/
theorem State.alike.bankNow_eq {s t : State} {ch : Fin NC} (h : s.alike t ch) : bankNow t ch = bankNow s ch := by
  simp only [bankNow, h.chan, h.P_eq]

theorem State.alike.mustClear_eq {s t : State} {ch : Fin NC} (h : s.alike t ch) : mustClear t ch = mustClear s ch := by
  simp only [mustClear, h.bankNow_eq, h.prevbank, h.global]

/-! ## Histories in canonical form, and slices -/

/-- The history arenas are in canonical form. -/
def State.Canonical (s : State) : Prop := s.ha.wf = true ∧ s.hb.wf = true

/-- `k` is a key of channel `ch`'s slice of a history arena (R52). -/
def inSlice (P : Params) (ch : Fin NC) (k : Nat) : Prop :=
  sliceStart P ch.val ≤ k ∧ k < sliceStart P (ch.val + 1)

theorem inSlice_histKey (P : Params) (ch : Fin NC) {sc nt k : Nat} (hs : sc < P.ns) (hn : nt < P.nf) (hk : k < 3) :
    inSlice P ch (histKey P ch sc nt k) :=
  ⟨sliceStart_le_histKey P ch sc nt k, histKey_lt P ch hs hn hk⟩

theorem not_inSlice_of_ne {P : Params} {ch d : Fin NC} {k : Nat} (hne : d ≠ ch) (hk : inSlice P ch k) :
    ¬ inSlice P d k := by
  rintro ⟨hlo, hhi⟩
  obtain ⟨hlo', hhi'⟩ := hk
  rcases Nat.lt_or_gt_of_ne (Fin.val_ne_of_ne hne) with hlt | hgt
  · have := sliceStart_mono P (show d.val + 1 ≤ ch.val from hlt)
    omega
  · have := sliceStart_mono P (show ch.val + 1 ≤ d.val from hgt)
    omega

/-- Canonical arenas that read alike at the keys `p` picks out. -/
def Memory.agreeOn (p : Nat → Prop) (m w : Memory) : Prop :=
  m.wf = true ∧ w.wf = true ∧ ∀ k, p k → w.read k = m.read k

theorem Memory.agreeOn.refl {p : Nat → Prop} {m : Memory} (h : m.wf = true) : m.agreeOn p m := ⟨h, h, fun _ _ => rfl⟩

theorem State.alike.read_eq {s t : State} {ch : Fin NC} {k : Nat} (h : s.alike t ch) (hk : inSlice s.P ch k) :
    t.ha.read k = s.ha.read k ∧ t.hb.read k = s.hb.read k := h.history k hk.1 hk.2

end Sys2Proof.Machine
end

section
/-! SUPPORT. Block start (40_control_coefstore.md R110, R113). -/

namespace Sys2Proof.Machine

theorem mustClear_iff (s : State) (ch : Fin NC) : mustClear s ch = true ↔
    bankNow s ch ≠ look s.prevbank ch ∨ s.algChanged = true ∨ s.uscaleChanged = true := by
  simp only [mustClear, Bool.or_eq_true, decide_eq_true_eq, or_assoc]

theorem activateOverlay_frame (s : State) :
    activateOverlay s = { s with usActive := (activateOverlay s).usActive } := by
  unfold activateOverlay
  split <;> rfl

@[simp] theorem activateOverlay_P (s : State) : (activateOverlay s).P = s.P := by rw [activateOverlay_frame]; rfl
@[simp] theorem activateOverlay_ha (s : State) : (activateOverlay s).ha = s.ha := by rw [activateOverlay_frame]
@[simp] theorem activateOverlay_hb (s : State) : (activateOverlay s).hb = s.hb := by rw [activateOverlay_frame]

theorem mustClear_activateOverlay (s : State) (ch : Fin NC) : mustClear (activateOverlay s) ch = mustClear s ch := by
  rw [activateOverlay_frame]
  rfl

theorem activateOverlay_canonical {s : State} (h : s.Canonical) : (activateOverlay s).Canonical := by
  rw [activateOverlay_frame]
  exact h

theorem blkStartChan_prevbank_same (s : State) (ch : Fin NC) : look (blkStartChan s ch).prevbank ch = bankNow s ch := by
  unfold blkStartChan
  split
  · exact look_upd_same _ _ _
  · next h =>
    rw [mustClear_iff, not_or, not_not] at h
    exact h.1.symm

theorem blkStartChan_canonical {s : State} (ch : Fin NC) (h : s.Canonical) : (blkStartChan s ch).Canonical := by
  unfold blkStartChan
  split
  · exact ⟨Memory.wf_clear _ _ h.1, Memory.wf_clear _ _ h.2⟩
  · exact h

theorem read_clearSlice_inSlice {P : Params} {m : Memory} {ch : Fin NC} {k : Nat} (h : m.wf = true)
    (hk : inSlice P ch k) : (clearSlice P m ch).read k = Memory.unlisted := by
  rw [read_clearSlice P h]
  exact if_pos hk

theorem read_clearSlice_other {P : Params} {m : Memory} {ch : Fin NC} {k : Nat} (h : m.wf = true)
    (hk : ¬ inSlice P ch k) : (clearSlice P m ch).read k = m.read k := by
  rw [read_clearSlice P h]
  exact if_neg hk

@[simp] theorem blkStartChan_P (s : State) (ch : Fin NC) : (blkStartChan s ch).P = s.P := by
  unfold blkStartChan
  split <;> rfl

/-- The loop body's histories: a channel's slice cleared where R113 says so. -/
theorem blkStartChan_read_same {s : State} {ch : Fin NC} {k : Nat} (h : s.Canonical) (hk : inSlice s.P ch k) :
    (blkStartChan s ch).ha.read k = (if mustClear s ch then Memory.unlisted else s.ha.read k) ∧
    (blkStartChan s ch).hb.read k = (if mustClear s ch then Memory.unlisted else s.hb.read k) := by
  unfold blkStartChan
  cases mustClear s ch
  · exact ⟨rfl, rfl⟩
  · exact ⟨read_clearSlice_inSlice h.1 hk, read_clearSlice_inSlice h.2 hk⟩

/-- The loop body of block start for another channel is not seen. -/
theorem blkStartChan_alike_other {s : State} {ch d : Fin NC} (hne : d ≠ ch) (h : s.Canonical) :
    s.alike (blkStartChan s d) ch := by
  unfold blkStartChan
  split
  · refine { State.alike.refl s ch with prevbank := look_upd_ne _ hne _, history := fun k hlo hhi => ?_ }
    have hk := not_inSlice_of_ne hne ⟨hlo, hhi⟩
    exact ⟨read_clearSlice_other h.1 hk, read_clearSlice_other h.2 hk⟩
  · exact .refl s ch

/-- Block start as channel `ch` sees it: the overlay activated, then the loop body run for `ch`. -/
theorem blkStart_alike {s : State} (ch : Fin NC) (h : s.Canonical) :
    (blkStart s).Canonical ∧
      ∃ u, u.Canonical ∧ (activateOverlay s).alike u ch ∧ (blkStartChan u ch).alike (blkStart s) ch :=
  foldl_channels_around (R := fun s t => s.alike t ch) ch (fun _ d => blkStartChan_canonical d) (fun s => .refl s ch)
    (fun _ _ _ => .trans) (fun _ _ => blkStartChan_alike_other) (activateOverlay_canonical h)

theorem blkStart_prevbank {s : State} (ch : Fin NC) (h : s.Canonical) :
    look (blkStart s).prevbank ch = bankNow s ch := by
  obtain ⟨-, u, -, hsu, hus⟩ := blkStart_alike ch h
  rw [hus.prevbank, blkStartChan_prevbank_same, hsu.bankNow_eq, activateOverlay_frame]
  rfl

/-- What block start leaves of the history of channel `ch` (R113). -/
theorem read_blkStart {s : State} {ch : Fin NC} {k : Nat} (h : s.Canonical) (hk : inSlice s.P ch k) :
    (blkStart s).ha.read k = (if mustClear s ch then Memory.unlisted else s.ha.read k) ∧
    (blkStart s).hb.read k = (if mustClear s ch then Memory.unlisted else s.hb.read k) := by
  obtain ⟨-, u, hu, hsu, hus⟩ := blkStart_alike ch h
  have hkact : inSlice (activateOverlay s).P ch k := by rwa [activateOverlay_P]
  have hku : inSlice u.P ch k := by rwa [hsu.P_eq]
  have hkbody : inSlice (blkStartChan u ch).P ch k := by rwa [blkStartChan_P]
  obtain ⟨hha, hhb⟩ := hsu.read_eq hkact
  obtain ⟨hha', hhb'⟩ := blkStartChan_read_same hu hku
  obtain ⟨hha'', hhb''⟩ := hus.read_eq hkbody
  rw [hha'', hhb'', hha', hhb', hha, hhb, hsu.mustClear_eq, mustClear_activateOverlay, activateOverlay_ha,
    activateOverlay_hb]
  exact ⟨rfl, rfl⟩

/-- Settles O22: block start as each channel sees it. -/
theorem blockStartClearsHistory : Obligations.BlockStartClearsHistory := by
  unfold Obligations.BlockStartClearsHistory
  intro s ha hb t b clears
  have hs : s.Canonical := ⟨ha, hb⟩
  refine ⟨?frame, (blkStart_usActive s).trans (activateOverlay_usActive s), fun ch => blkStart_prevbank ch hs,
    fun ch sc nt k hsc hnt hk => ?history⟩
  case frame =>
    obtain ⟨a, b, p, u, h⟩ := blkStart_frame s
    simp only [t, h]
  case history =>
    obtain ⟨hha, hhb⟩ := read_blkStart hs (inSlice_histKey s.P ch hsc hnt hk)
    have hclears : mustClear s ch = true ↔ clears ch := mustClear_iff s ch
    refine ⟨fun hc => ?cleared, fun hc => ?kept⟩
    case cleared =>
      rw [if_pos (hclears.2 hc)] at hha hhb
      exact ⟨hha, hhb⟩
    case kept =>
      rw [if_neg (hclears.not.2 hc)] at hha hhb
      exact ⟨hha, hhb⟩

end Sys2Proof.Machine
end

section
/-! SUPPORT. What a resonator operation computes, where it stores it, and that states alike to its channel give the same
(41_twopass.md R140, R141; 42_onepass.md R152; 43_blended.md R164). -/

namespace Sys2Proof.Machine

/-! ## Agreeing arenas -/

/-- A slot's keys lie in its channel's slice. -/
theorem inSlice_of_slotKey {P : Params} {ch : Fin NC} {sc nt n k : Nat} (hs : sc < P.ns) (hn : nt < P.nf) (h3 : n ≤ 3)
    (h : slotKey P ch sc nt n k) : inSlice P ch k := by
  obtain ⟨j, hj, rfl⟩ := h
  exact inSlice_histKey P ch hs hn (by omega)

namespace Memory

variable {p : Nat → Prop} {m w : Memory}

/-- The same slot written to agreeing arenas. -/
theorem agreeOn.writeSlot_both (h : m.agreeOn p w) (P : Params) (ch : Fin NC) (sc nt : Nat) (v : Slot) :
    (writeSlot P m ch sc nt v).agreeOn p (writeSlot P w ch sc nt v) := by
  obtain ⟨hm, hw, hread⟩ := h
  refine ⟨wf_writeSlot P hm .., wf_writeSlot P hw .., fun k hk => ?_⟩
  rw [read_writeSlot P hm, read_writeSlot P hw, hread k hk]

theorem agreeOn.writeSlot01_both (h : m.agreeOn p w) (P : Params) (ch : Fin NC) (sc nt : Nat) (v : Slot) :
    (writeSlot01 P m ch sc nt v).agreeOn p (writeSlot01 P w ch sc nt v) := by
  obtain ⟨hm, hw, hread⟩ := h
  refine ⟨wf_writeSlot01 P hm .., wf_writeSlot01 P hw .., fun k hk => ?_⟩
  rw [read_writeSlot01 P hm, read_writeSlot01 P hw, hread k hk]

/-- A slot of channel `ch` written, outside whose slice agreement is asked. -/
theorem agreeOn.writeSlot_outside {P : Params} {ch : Fin NC} (h : m.agreeOn (¬ inSlice P ch ·) w) {sc nt : Nat}
    (hs : sc < P.ns) (hn : nt < P.nf) (v : Slot) : m.agreeOn (¬ inSlice P ch ·) (writeSlot P w ch sc nt v) := by
  obtain ⟨hm, hw, hread⟩ := h
  exact ⟨hm, wf_writeSlot P hw .., fun k hk =>
    (read_writeSlot_other P hw ch sc nt v fun hkey => hk (inSlice_of_slotKey hs hn le_rfl hkey)).trans (hread k hk)⟩

theorem agreeOn.writeSlot01_outside {P : Params} {ch : Fin NC} (h : m.agreeOn (¬ inSlice P ch ·) w) {sc nt : Nat}
    (hs : sc < P.ns) (hn : nt < P.nf) (v : Slot) : m.agreeOn (¬ inSlice P ch ·) (writeSlot01 P w ch sc nt v) := by
  obtain ⟨hm, hw, hread⟩ := h
  exact ⟨hm, wf_writeSlot01 P hw .., fun k hk =>
    (read_writeSlot01_other P hw ch sc nt v fun hkey => hk (inSlice_of_slotKey hs hn (by decide) hkey)).trans
      (hread k hk)⟩

/-- Arenas that agree on a channel's slice hold the same slots there. -/
theorem agreeOn.readSlot_eq {P : Params} {ch : Fin NC} (h : m.agreeOn (inSlice P ch) w) {sc nt : Nat} (hs : sc < P.ns)
    (hn : nt < P.nf) : readSlot P w ch sc nt = readSlot P m ch sc nt := by
  obtain ⟨-, -, hread⟩ := h
  exact readSlot_congr P ch sc nt fun k hk => hread _ (inSlice_histKey P ch hs hn hk)

end Memory

/-! ## What a channel's coefficients depend on -/

section Coefficients

variable {s t : State} {ch : Fin NC}

theorem State.alike.poleRadius_eq (h : s.alike t ch) : poleRadius t = poleRadius s := by
  funext qw
  simp only [poleRadius, h.P_eq, h.global]

theorem State.alike.freqCoef_eq (h : s.alike t ch) : freqCoef t ch = freqCoef s ch := by
  funext b sc nt
  simp only [freqCoef, coefChar, h.P_eq, h.chan, h.global]

theorem State.alike.twoPassCoefs_eq (h : s.alike t ch) : twoPassCoefs t ch = twoPassCoefs s ch := by
  funext b sc nt
  simp only [twoPassCoefs, h.P_eq, h.chan, h.poleRadius_eq, h.freqCoef_eq]

theorem State.alike.onePassCoefs_eq (h : s.alike t ch) : onePassCoefs t ch = onePassCoefs s ch := by
  funext b sc nt
  simp only [onePassCoefs, h.P_eq, h.chan, h.poleRadius_eq, h.freqCoef_eq]

theorem State.alike.blendCoefs_eq (h : s.alike t ch) : blendCoefs t ch = blendCoefs s ch := by
  funext b sc nt
  simp only [blendCoefs, coefLo, coefHi, h.P_eq, h.chan, h.global]

theorem State.alike.openSamples_eq (h : s.alike t ch) : openSamples t ch = openSamples s ch := by
  funext target
  simp only [openSamples, h.input, h.global]

theorem State.alike.openSlot_eq (h : s.alike t ch) : openSlot t ch = openSlot s ch := by
  funext hb
  simp only [openSlot, h.global]

theorem State.alike.pitchOf_eq (h : s.alike t ch) : pitchOf t ch = pitchOf s ch := by
  simp only [pitchOf, h.P_eq, h.chan, h.freqCoef_eq, h.global]

end Coefficients

/-! ## The passes of two states -/

/-- What the passes of two states give is the same, up to a relation of the histories. -/
structure PassesAgree {μ : Type} (rel : μ → μ → Prop) (r r' : List F × Option (List F) × μ) : Prop where
  yp : r'.1 = r.1
  yt : r'.2.1 = r.2.1
  history : rel r.2.2 r'.2.2

/-- Passes that agree step by step on related histories agree in what they give. -/
theorem passes_agree {μ : Type} (rel : μ → μ → Prop) {morph same : Bool} {pass pass' : Bool → μ → List F × μ}
    {openPair openPair' : μ → List F × List F × μ} {m m' : μ} (hm : rel m m')
    (hpass : ∀ b m m', rel m m' → (pass' b m').1 = (pass b m).1 ∧ rel (pass b m).2 (pass' b m').2)
    (hopen : ∀ m m', rel m m' → (openPair' m').1 = (openPair m).1 ∧ (openPair' m').2.1 = (openPair m).2.1 ∧
      rel (openPair m).2.2 (openPair' m').2.2) :
    PassesAgree rel (passes morph same pass openPair m) (passes morph same pass' openPair' m') := by
  obtain ⟨hfirst, hmid⟩ := hpass false m m' hm
  cases morph
  · exact ⟨hfirst, rfl, hmid⟩
  · cases same
    · obtain ⟨hsecond, hend⟩ := hpass true _ _ hmid
      exact ⟨hfirst, congrArg some hsecond, hend⟩
    · obtain ⟨hfirst', hsecond', hend'⟩ := hopen m m' hm
      exact ⟨hfirst', congrArg some hsecond', hend'⟩

/-- The passes give target samples exactly where the morph gate is open. -/
theorem passes_isSome {μ : Type} (morph same : Bool) (pass : Bool → μ → List F × μ)
    (openPair : μ → List F × List F × μ) (m : μ) : (passes morph same pass openPair m).2.1.isSome = morph := by
  cases morph <;> cases same <;> rfl

/-! ## A resonator operation as what it computes and where that is stored -/

/-- What a resonator operation computes for its channel. -/
structure FilterRun where
  yp    : List F
  yt    : Option (List F)
  ha    : Memory
  hb    : Memory
  pitch : F

/-- The state after the results are stored. -/
def FilterRun.store (r : FilterRun) (s : State) (ch : Fin NC) : State :=
  { setPitch (setOutputs s ch r.yp r.yt) ch r.pitch with ha := r.ha, hb := r.hb }

/-- The passes of `FILT2P` (41_twopass.md R141). -/
def twoPassPasses (s : State) (ch : Fin NC) : List F × Option (List F) × Memory × Memory :=
  let ix := idxOf s.P (look s.chan ch)
  passes (morphOn (look s.chan ch)) (samePair ix)
    (fun target => if target then twoPassRun s ch ix.b ix.fsc ix.fnt else twoPassRun s ch ix.b ix.sc ix.nt)
    (fun m => (openSamples s ch false, openSamples s ch true,
      writeSlot s.P m.1 ch ix.sc ix.nt (openSlot s ch false), writeSlot s.P m.2 ch ix.sc ix.nt (openSlot s ch true)))
    (s.ha, s.hb)

/-- The passes of `FILT1P` (42_onepass.md R152). -/
def onePassPasses (s : State) (ch : Fin NC) : List F × Option (List F) × Memory :=
  let ix := idxOf s.P (look s.chan ch)
  passes (morphOn (look s.chan ch)) (samePair ix)
    (fun target => if target then onePassRun s ch ix.b ix.fsc ix.fnt else onePassRun s ch ix.b ix.sc ix.nt)
    (fun m => (openSamples s ch false, openSamples s ch true,
      writeSlot s.P m ch ix.sc ix.nt (openSlot s ch false)))
    s.ha

/-- What stands for the passes of `FILTBL` on any bank (43_blended.md R164, R165). -/
def blendOrOpen (s : State) (ch : Fin NC) : List F × Option (List F) × Memory :=
  let ix := idxOf s.P (look s.chan ch)
  let morph := morphOn (look s.chan ch)
  if ix.b = s.P.nb - 1 then openBlend s ch ix morph else blendPasses s ch ix morph

/-- What the resonator `G.ALGSEL` selects computes. -/
def filterRun (s : State) (ch : Fin NC) : FilterRun :=
  match algOf s.algsel with
  | .twoPass =>
    let r := twoPassPasses s ch
    ⟨r.1, r.2.1, r.2.2.1, r.2.2.2, pitchOf s ch⟩
  | .onePass =>
    let r := onePassPasses s ch
    ⟨r.1, r.2.1, r.2.2, s.hb, pitchOf s ch⟩
  | .blended =>
    let r := blendOrOpen s ch
    ⟨r.1, r.2.1, r.2.2, s.hb, Config.openPitch s.draws ch.val⟩

theorem filter_eq_store (s : State) (ch : Fin NC) : filter s ch = (filterRun s ch).store s ch := by
  unfold filter filterRun
  cases algOf s.algsel <;> rfl

theorem filterRun_yt_isSome (s : State) (ch : Fin NC) : (filterRun s ch).yt.isSome = morphOn (look s.chan ch) := by
  unfold filterRun
  cases algOf s.algsel
  case twoPass => exact passes_isSome ..
  case onePass => exact passes_isSome ..
  case blended =>
    simp only [blendOrOpen]
    split
    · rw [(openBlend_spec ..).2.1]
      cases morphOn (look s.chan ch) <;> rfl
    · exact passes_isSome ..

/-! ## A resonator operation writes its channel's slice only -/

theorem twoPassPasses_outside {s : State} (ch : Fin NC) (h : s.Canonical) :
    s.ha.agreeOn (¬ inSlice s.P ch ·) (twoPassPasses s ch).2.2.1 ∧
    s.hb.agreeOn (¬ inSlice s.P ch ·) (twoPassPasses s ch).2.2.2 := by
  obtain ⟨-, hsc, hnt, hfsc, hfnt⟩ := idxOf_bounds s.P (look s.chan ch)
  refine passes_keeps (μ := Memory × Memory)
    (fun m => s.ha.agreeOn (¬ inSlice s.P ch ·) m.1 ∧ s.hb.agreeOn (¬ inSlice s.P ch ·) m.2)
    ⟨.refl h.1, .refl h.2⟩ (fun target m ⟨ha, hb⟩ => ?pass)
    (fun m ⟨ha, hb⟩ => ⟨ha.writeSlot_outside hsc hnt _, hb.writeSlot_outside hsc hnt _⟩)
  cases target
  · exact ⟨ha.writeSlot_outside hsc hnt _, hb.writeSlot_outside hsc hnt _⟩
  · exact ⟨ha.writeSlot_outside hfsc hfnt _, hb.writeSlot_outside hfsc hfnt _⟩

theorem onePassPasses_outside {s : State} (ch : Fin NC) (h : s.Canonical) :
    s.ha.agreeOn (¬ inSlice s.P ch ·) (onePassPasses s ch).2.2 := by
  obtain ⟨-, hsc, hnt, hfsc, hfnt⟩ := idxOf_bounds s.P (look s.chan ch)
  refine passes_keeps (s.ha.agreeOn (¬ inSlice s.P ch ·)) (.refl h.1) (fun target m hm => ?pass)
    (fun m hm => hm.writeSlot_outside hsc hnt _)
  cases target
  · exact hm.writeSlot_outside hsc hnt _
  · exact hm.writeSlot_outside hfsc hfnt _

theorem blendOrOpen_outside {s : State} (ch : Fin NC) (h : s.Canonical) :
    s.ha.agreeOn (¬ inSlice s.P ch ·) (blendOrOpen s ch).2.2 := by
  obtain ⟨-, hsc, hnt, hfsc, hfnt⟩ := idxOf_bounds s.P (look s.chan ch)
  simp only [blendOrOpen]
  split
  · exact (openBlend_spec ..).2.2 _ (.refl h.1) (fun m v hm => hm.writeSlot01_outside hsc hnt v)
      fun m v _ hm => hm.writeSlot01_outside hfsc hfnt v
  · refine passes_keeps (s.ha.agreeOn (¬ inSlice s.P ch ·)) (.refl h.1) (fun target m hm => ?pass)
      (fun m hm => hm.writeSlot01_outside hsc hnt _)
    cases target
    · exact hm.writeSlot01_outside hsc hnt _
    · exact hm.writeSlot01_outside hfsc hfnt _

theorem filterRun_outside {s : State} (ch : Fin NC) (h : s.Canonical) :
    s.ha.agreeOn (¬ inSlice s.P ch ·) (filterRun s ch).ha ∧ s.hb.agreeOn (¬ inSlice s.P ch ·) (filterRun s ch).hb := by
  unfold filterRun
  cases algOf s.algsel
  case twoPass => exact twoPassPasses_outside ch h
  case onePass => exact ⟨onePassPasses_outside ch h, .refl h.2⟩
  case blended => exact ⟨blendOrOpen_outside ch h, .refl h.2⟩

theorem filter_canonical {s : State} (ch : Fin NC) (h : s.Canonical) : (filter s ch).Canonical := by
  obtain ⟨⟨-, hha, -⟩, -, hhb, -⟩ := filterRun_outside ch h
  rw [filter_eq_store]
  exact ⟨hha, hhb⟩

/-! ## Alike states run alike -/

/-- Two results that are the same to channel `ch`. -/
structure FilterRun.Agree (P : Params) (ch : Fin NC) (r r' : FilterRun) : Prop where
  yp : r'.yp = r.yp
  yt : r'.yt = r.yt
  pitch : r'.pitch = r.pitch
  ha : r.ha.agreeOn (inSlice P ch) r'.ha
  hb : r.hb.agreeOn (inSlice P ch) r'.hb

section Runs

variable {s t : State} {ch : Fin NC}

/-- Canonical states alike to a channel have arenas that agree on its slice. -/
theorem State.alike.agree (h : s.alike t ch) (hs : s.Canonical) (ht : t.Canonical) :
    s.ha.agreeOn (inSlice s.P ch) t.ha ∧ s.hb.agreeOn (inSlice s.P ch) t.hb :=
  ⟨⟨hs.1, ht.1, fun _ hk => (h.read_eq hk).1⟩, ⟨hs.2, ht.2, fun _ hk => (h.read_eq hk).2⟩⟩

variable {m m' : Memory} {sc nt : Nat}

theorem State.alike.twoPassRun_agree (h : s.alike t ch) (b : Nat) (hsc : sc < s.P.ns) (hnt : nt < s.P.nf)
    {m m' : Memory × Memory} (ha : m.1.agreeOn (inSlice s.P ch) m'.1) (hb : m.2.agreeOn (inSlice s.P ch) m'.2) :
    (twoPassRun t ch b sc nt m').1 = (twoPassRun s ch b sc nt m).1 ∧
    (twoPassRun s ch b sc nt m).2.1.agreeOn (inSlice s.P ch) (twoPassRun t ch b sc nt m').2.1 ∧
    (twoPassRun s ch b sc nt m).2.2.agreeOn (inSlice s.P ch) (twoPassRun t ch b sc nt m').2.2 := by
  simp only [twoPassRun, h.P_eq, h.twoPassCoefs_eq, h.input, ha.readSlot_eq hsc hnt, hb.readSlot_eq hsc hnt]
  exact ⟨trivial, ha.writeSlot_both .., hb.writeSlot_both ..⟩

theorem State.alike.onePassRun_agree (h : s.alike t ch) (b : Nat) (hsc : sc < s.P.ns) (hnt : nt < s.P.nf)
    (hm : m.agreeOn (inSlice s.P ch) m') :
    (onePassRun t ch b sc nt m').1 = (onePassRun s ch b sc nt m).1 ∧
    (onePassRun s ch b sc nt m).2.agreeOn (inSlice s.P ch) (onePassRun t ch b sc nt m').2 := by
  simp only [onePassRun, h.P_eq, h.onePassCoefs_eq, h.input, hm.readSlot_eq hsc hnt]
  exact ⟨trivial, hm.writeSlot_both ..⟩

theorem State.alike.blendRun_agree (h : s.alike t ch) (b : Nat) (hsc : sc < s.P.ns) (hnt : nt < s.P.nf)
    (hm : m.agreeOn (inSlice s.P ch) m') :
    (blendRun t ch b sc nt m').1 = (blendRun s ch b sc nt m).1 ∧
    (blendRun s ch b sc nt m).2.agreeOn (inSlice s.P ch) (blendRun t ch b sc nt m').2 := by
  simp only [blendRun, h.P_eq, h.blendCoefs_eq, h.input, hm.readSlot_eq hsc hnt]
  exact ⟨trivial, hm.writeSlot01_both ..⟩

theorem State.alike.twoPassPasses_agree (h : s.alike t ch) (hs : s.Canonical) (ht : t.Canonical) :
    PassesAgree (fun m m' => m.1.agreeOn (inSlice s.P ch) m'.1 ∧ m.2.agreeOn (inSlice s.P ch) m'.2)
      (twoPassPasses s ch) (twoPassPasses t ch) := by
  obtain ⟨-, hsc, hnt, hfsc, hfnt⟩ := idxOf_bounds s.P (look s.chan ch)
  simp only [twoPassPasses, h.P_eq, h.chan, h.openSamples_eq, h.openSlot_eq]
  refine passes_agree _ (h.agree hs ht) (fun target m m' ⟨ha, hb⟩ => ?pass)
    (fun m m' ⟨ha, hb⟩ => ⟨rfl, rfl, ha.writeSlot_both .., hb.writeSlot_both ..⟩)
  cases target
  · exact h.twoPassRun_agree _ hsc hnt ha hb
  · exact h.twoPassRun_agree _ hfsc hfnt ha hb

theorem State.alike.onePassPasses_agree (h : s.alike t ch) (hha : s.ha.agreeOn (inSlice s.P ch) t.ha) :
    PassesAgree (Memory.agreeOn (inSlice s.P ch)) (onePassPasses s ch) (onePassPasses t ch) := by
  obtain ⟨-, hsc, hnt, hfsc, hfnt⟩ := idxOf_bounds s.P (look s.chan ch)
  simp only [onePassPasses, h.P_eq, h.chan, h.openSamples_eq, h.openSlot_eq]
  refine passes_agree _ hha (fun target m m' hm => ?pass)
    (fun m m' hm => ⟨rfl, rfl, hm.writeSlot_both ..⟩)
  cases target
  · exact h.onePassRun_agree _ hsc hnt hm
  · exact h.onePassRun_agree _ hfsc hfnt hm

theorem State.alike.openBlend_agree (h : s.alike t ch) (hha : s.ha.agreeOn (inSlice s.P ch) t.ha) (ix : Idx)
    (morph : Bool) :
    PassesAgree (Memory.agreeOn (inSlice s.P ch)) (openBlend s ch ix morph) (openBlend t ch ix morph) := by
  simp only [openBlend, h.P_eq, h.openSamples_eq, h.openSlot_eq]
  cases morph
  · exact ⟨rfl, rfl, hha.writeSlot01_both ..⟩
  · exact ⟨rfl, rfl, (hha.writeSlot01_both ..).writeSlot01_both ..⟩

theorem State.alike.blendOrOpen_agree (h : s.alike t ch) (hha : s.ha.agreeOn (inSlice s.P ch) t.ha) :
    PassesAgree (Memory.agreeOn (inSlice s.P ch)) (blendOrOpen s ch) (blendOrOpen t ch) := by
  obtain ⟨-, hsc, hnt, hfsc, hfnt⟩ := idxOf_bounds s.P (look s.chan ch)
  simp only [blendOrOpen, h.P_eq, h.chan]
  split
  · exact h.openBlend_agree hha _ _
  · simp only [blendPasses, h.P_eq, h.openSamples_eq, h.openSlot_eq]
    refine passes_agree _ hha (fun target m m' hm => ?pass)
      (fun m m' hm => ⟨rfl, rfl, hm.writeSlot01_both ..⟩)
    cases target
    · exact h.blendRun_agree _ hsc hnt hm
    · exact h.blendRun_agree _ hfsc hfnt hm

/-- States alike to a channel give it the same results. -/
theorem State.alike.filterRun_agree (h : s.alike t ch) (hs : s.Canonical) (ht : t.Canonical) :
    (filterRun s ch).Agree s.P ch (filterRun t ch) := by
  obtain ⟨hha, hhb⟩ := h.agree hs ht
  have halg : t.algsel = s.algsel := h.global.1
  have hdraws : t.draws = s.draws := by simp only [h.global]
  unfold filterRun
  rw [halg]
  cases algOf s.algsel
  case twoPass =>
    obtain ⟨hyp, hyt, hha', hhb'⟩ := h.twoPassPasses_agree hs ht
    exact ⟨hyp, hyt, h.pitchOf_eq, hha', hhb'⟩
  case onePass =>
    obtain ⟨hyp, hyt, hha'⟩ := h.onePassPasses_agree hha
    exact ⟨hyp, hyt, h.pitchOf_eq, hha', hhb⟩
  case blended =>
    obtain ⟨hyp, hyt, hha'⟩ := h.blendOrOpen_agree hha
    exact ⟨hyp, hyt, by rw [hdraws], hha', hhb⟩

end Runs

/-! ## The six channels of a block -/

/-- Two states hold the same filter outputs of channel `ch`: `YP`, and `YT` where the compositor reads it (R170). -/
def State.sameOutputs (s t : State) (ch : Fin NC) : Prop :=
  look t.blk.yp ch = look s.blk.yp ch ∧ (morphOn (look s.chan ch) = true → look t.blk.yt ch = look s.blk.yt ch)

/-- The outputs a resonator operation stores for its channel. -/
theorem filter_outputs (s : State) (ch : Fin NC) :
    look (filter s ch).blk.yp ch = (filterRun s ch).yp ∧
    (morphOn (look s.chan ch) = true → some (look (filter s ch).blk.yt ch) = (filterRun s ch).yt) := by
  rw [filter_eq_store]
  refine ⟨look_upd_same .., fun hmorph => ?_⟩
  rw [← filterRun_yt_isSome, Option.isSome_iff_exists] at hmorph
  obtain ⟨yt, hyt⟩ := hmorph
  simp [FilterRun.store, hyt]

theorem filter_chan (s : State) (ch : Fin NC) : (filter s ch).chan = s.chan := by
  rw [filter_eq_store]
  rfl

/-- A channel's resonator operation on states alike to it. -/
theorem State.alike.filter_same {s t : State} {ch : Fin NC} (h : s.alike t ch) (hs : s.Canonical) (ht : t.Canonical) :
    (filter s ch).alike (filter t ch) ch ∧ (filter s ch).sameOutputs (filter t ch) ch := by
  have hrun := h.filterRun_agree hs ht
  constructor
  · rw [filter_eq_store, filter_eq_store]
    refine { h with history := fun k hlo hhi => ?_, outputs := ?_ }
    · exact ⟨hrun.ha.2.2 k ⟨hlo, hhi⟩, hrun.hb.2.2 k ⟨hlo, hhi⟩⟩
    · obtain ⟨henv, -, hlevel⟩ := h.outputs
      refine ⟨henv, ?_, hlevel⟩
      simp [FilterRun.store, hrun.pitch]
  · obtain ⟨hyp, hyt⟩ := filter_outputs s ch
    obtain ⟨hyp', hyt'⟩ := filter_outputs t ch
    refine ⟨by rw [hyp, hyp', hrun.yp], fun hmorph => ?_⟩
    rw [filter_chan] at hmorph
    apply Option.some.inj
    rw [hyt hmorph, hyt' (by rwa [h.chan]), hrun.yt]

end Sys2Proof.Machine
end

section
/-! SUPPORT. A block as one channel sees it, and the zero state after a switch (40_control_coefstore.md R113). -/

namespace Sys2Proof.Machine

/-- What the operations of other channels keep of what `ch` sees: its view and its outputs. -/
structure State.KeepsChannel (ch : Fin NC) (s t : State) : Prop where
  alike : s.alike t ch
  yp : look t.blk.yp ch = look s.blk.yp ch
  yt : look t.blk.yt ch = look s.blk.yt ch

theorem State.KeepsChannel.trans {ch : Fin NC} {s t u : State} (h : s.KeepsChannel ch t) (h' : t.KeepsChannel ch u) :
    s.KeepsChannel ch u := ⟨h.alike.trans h'.alike, h'.yp.trans h.yp, h'.yt.trans h.yt⟩

/-- The resonator operation of another channel is not seen. -/
theorem filter_keepsChannel {s : State} {ch d : Fin NC} (hne : d ≠ ch) (h : s.Canonical) :
    s.KeepsChannel ch (filter s d) := by
  obtain ⟨⟨-, -, hha⟩, -, -, hhb⟩ := filterRun_outside d h
  have hframe := filter_frame d s
  refine ⟨?_, hframe.yp_other ch hne.symm, hframe.yt_other ch hne.symm⟩
  rw [filter_eq_store]
  refine { State.alike.refl s ch with history := fun k hlo hhi => ?_, outputs := ⟨rfl, look_upd_ne _ hne _, rfl⟩ }
  have hk := not_inSlice_of_ne hne ⟨hlo, hhi⟩
  exact ⟨hha k hk, hhb k hk⟩

/-- The six resonator operations as channel `ch` sees them: its own, on a state alike to the one at the start. -/
theorem filters_keepsChannel {s : State} (ch : Fin NC) (h : s.Canonical) :
    ∃ u, u.Canonical ∧ s.KeepsChannel ch u ∧ (filter u ch).KeepsChannel ch (channels.foldl filter s) :=
  (foldl_channels_around (R := State.KeepsChannel ch) ch (fun _ d => filter_canonical d)
    (fun s => ⟨.refl s ch, rfl, rfl⟩) (fun _ _ _ => .trans) (fun _ _ => filter_keepsChannel) h).2

/-- The six resonator operations on states alike to `ch` give it the same view and the same outputs. -/
theorem State.alike.filters {s t : State} {ch : Fin NC} (h : s.alike t ch) (hs : s.Canonical) (ht : t.Canonical) :
    (channels.foldl filter s).alike (channels.foldl filter t) ch ∧
    (channels.foldl filter s).sameOutputs (channels.foldl filter t) ch := by
  obtain ⟨u, hu, hsu, hend⟩ := filters_keepsChannel ch hs
  obtain ⟨v, hv, htv, hend'⟩ := filters_keepsChannel ch ht
  obtain ⟨hsame, hyp, hyt⟩ := (hsu.alike.symm.trans (h.trans htv.alike)).filter_same hu hv
  refine ⟨hend.alike.symm.trans (hsame.trans hend'.alike), ?_, fun hmorph => ?_⟩
  · rw [hend'.yp, hyp, hend.yp]
  · rw [hend.alike.chan] at hmorph
    rw [hend'.yt, hyt hmorph, hend.yt]

/-- The compositor on states with the same outputs of channel `ch` (R170 to R173). -/
theorem State.alike.compose {s t : State} {ch : Fin NC} (h : s.alike t ch) (hout : s.sameOutputs t ch) :
    (compose s).alike (compose t) ch ∧ look (compose t).out ch = look (compose s).out ch := by
  obtain ⟨hyp, hyt⟩ := hout
  obtain ⟨henv, hpitch, hlevel⟩ := h.outputs
  have hblend : blended t ch = blended s ch := by
    simp only [blended, h.chan, h.P_eq, hyp]
    split
    · next hmorph => rw [hyt hmorph]
    · rfl
  have henv' : envOf t ch = envOf s ch := by simp only [envOf, hblend, henv]
  have hlevel' : chlevelOf t ch = chlevelOf s ch := by simp only [chlevelOf, hblend, hlevel, h.P_eq]
  have hscaled : scaledOut t ch = scaledOut s ch := by simp only [scaledOut, hblend, h.chan, h.P_eq]
  obtain ⟨halg, hglide, hfscale, -, -, hstage, hactive, hparams, hdraws⟩ := h.global
  refine ⟨{ h with global := ⟨halg, hglide, hfscale, rfl, rfl, hstage, hactive, hparams, hdraws⟩, outputs := ?_ }, ?_⟩
  · simp only [Machine.compose, clearEventFlags_env, clearEventFlags_pitch, clearEventFlags_chlevel, look_perCh]
    exact ⟨henv', hpitch, hlevel'⟩
  · simp only [Machine.compose, clearEventFlags_out, look_perCh, hscaled]

/-- The clip test writes nothing a channel sees. -/
theorem State.alike.clipTest {s t : State} {ch : Fin NC} (h : s.alike t ch) : (clipTest s).alike (clipTest t) ch :=
  { h with }

theorem clipTest_canonical {s : State} (h : s.Canonical) : (clipTest s).Canonical := h

/-- A block that begins with states alike to `ch` ends with states alike to it, and gives it the same samples. -/
theorem engine_alike {s t : State} {ch : Fin NC} (hs : s.Canonical) (ht : t.Canonical)
    (h : (blkStart s).alike (blkStart t) ch) :
    (engine s).alike (engine t) ch ∧ look (engine t).out ch = look (engine s).out ch := by
  obtain ⟨hview, hout⟩ := h.clipTest.filters (clipTest_canonical (blkStart_alike ch hs).1)
    (clipTest_canonical (blkStart_alike ch ht).1)
  exact hview.compose hout

/-- Block start leaves a channel it clears nothing of the histories before it. -/
theorem blkStart_alike_of_mustClear {s : State} {ch : Fin NC} (hs : s.Canonical) {a b : Memory} (ha : a.wf = true)
    (hb : b.wf = true) (hclear : mustClear s ch = true) :
    (blkStart s).alike (blkStart { s with ha := a, hb := b }) ch := by
  have ht : State.Canonical { s with ha := a, hb := b } := ⟨ha, hb⟩
  have hover : (blkStart { s with ha := a, hb := b }).usActive = (blkStart s).usActive := by
    rw [blkStart_usActive, blkStart_usActive, activateOverlay_usActive, activateOverlay_usActive]
  have hprev : look (blkStart { s with ha := a, hb := b }).prevbank ch = look (blkStart s).prevbank ch :=
    (blkStart_prevbank ch ht).trans (blkStart_prevbank ch hs).symm
  have hcleared : ∀ k, inSlice s.P ch k →
      (blkStart { s with ha := a, hb := b }).ha.read k = (blkStart s).ha.read k ∧
      (blkStart { s with ha := a, hb := b }).hb.read k = (blkStart s).hb.read k := by
    intro k hk
    obtain ⟨hha, hhb⟩ := read_blkStart hs hk
    obtain ⟨hha', hhb'⟩ := read_blkStart ht hk
    rw [if_pos hclear] at hha hhb
    rw [if_pos (show mustClear { s with ha := a, hb := b } ch = true from hclear)] at hha' hhb'
    exact ⟨hha'.trans hha.symm, hhb'.trans hhb.symm⟩
  obtain ⟨_, _, _, _, hblk⟩ := blkStart_frame s
  obtain ⟨_, _, _, _, hblk'⟩ := blkStart_frame { s with ha := a, hb := b }
  rw [hblk, hblk'] at hover hprev hcleared ⊢
  exact { State.alike.refl s ch with
    global := ⟨rfl, rfl, rfl, rfl, rfl, rfl, hover, rfl, rfl⟩, prevbank := hprev
    history := fun k hlo hhi => hcleared k ⟨hlo, hhi⟩ }

/-- Settles O23: block start clears the channel's history in both states, and from there the block runs alike. -/
theorem switchedChannelStartsFromZeroState : Obligations.SwitchedChannelStartsFromZeroState := by
  unfold Obligations.SwitchedChannelStartsFromZeroState
  intro s ch ha hb hswitch t z
  have hclear : mustClear s ch = true := by
    rw [mustClear_iff]
    refine hswitch.imp_left fun hbank heq => hbank ?_
    rw [← heq, bankNow_toNat]
    rfl
  obtain ⟨hview, hout⟩ := engine_alike ⟨ha, hb⟩ (t := { s with ha := [], hb := [] }) ⟨rfl, rfl⟩
    (blkStart_alike_of_mustClear ⟨ha, hb⟩ rfl rfl hclear)
  obtain ⟨henv, hpitch, hlevel⟩ := hview.outputs
  exact ⟨hout.symm, henv.symm, hlevel.symm, fun _ => hpitch.symm⟩

end Sys2Proof.Machine
end

section
/-! SUPPORT. The frequency coefficient and the clip test, which all resonator algorithms share (41_twopass.md R133,
R138). -/

namespace Sys2Proof.Machine

/-! ## The frequency coefficient (R133, R241) -/

section FrequencyCoefficient

variable {D : Domain} {coef nudge shift fscale : F}

/-- The three products of R133, in its order. -/
def coefProduct (D : Domain) (coef nudge shift fscale : F) : F := D.mulExt (D.mulExt (D.mulExt coef nudge) shift) fscale

theorem trimmedCoef_of_posInf (h : coefProduct D coef nudge shift fscale = F.posInf) :
    trimmedCoef D coef nudge shift fscale = Const.c1Max := if_pos h

/-- A finite product goes through the upper clamp only. -/
theorem trimmedCoef_of_finite (h : F.finite (coefProduct D coef nudge shift fscale) = true) :
    trimmedCoef D coef nudge shift fscale =
      if F.val Const.c1Max < F.val (coefProduct D coef nudge shift fscale) then Const.c1Max
      else coefProduct D coef nudge shift fscale := by
  have hmax : F.finite Const.c1Max = true := by decide
  rcases trimmedCoef_cases D coef nudge shift fscale with ⟨hinf, -⟩ | ⟨-, -, hclamp⟩ | ⟨-, hopen, -⟩
  · rw [coefProduct, hinf] at h
    exact absurd h (by decide)
  · rw [hclamp]
    exact if_congr (F.lt_iff hmax h) rfl rfl
  · exact absurd (hopen.symm.trans h) Bool.false_ne_true

theorem coefProduct_of_finite (hcoef : F.finite coef = true) (hnudge : F.finite nudge = true)
    (hshift : F.finite shift = true) (hfscale : F.finite fscale = true) (h1 : F.finite (D.times coef nudge) = true)
    (h2 : F.finite (D.times (D.times coef nudge) shift) = true) :
    coefProduct D coef nudge shift fscale = D.times (D.times (D.times coef nudge) shift) fscale := by
  rw [coefProduct, D.mulExt_of_finite hcoef hnudge, D.mulExt_of_finite h1 hshift, D.mulExt_of_finite h2 hfscale]

end FrequencyCoefficient

/-- Settles O26: the product of finite factors is the domain's, and the coefficient is its clamp. -/
theorem frequencyCoefficientIsClamped : Obligations.FrequencyCoefficientIsClamped := by
  unfold Obligations.FrequencyCoefficientIsClamped
  refine ⟨fun s ch b sc nt => ⟨trimmedCoef_of_posInf, ?finiteFactors⟩, fun s ch d b sc nt b' sc' nt' => ?equalFactors⟩
  case finiteFactors =>
    intro p1 p2 p3 hcoef hnudge hshift hfscale h1 h2
    have hp : coefProduct .. = p3 := coefProduct_of_finite hcoef hnudge hshift hfscale h1 h2
    refine ⟨fun hinf => trimmedCoef_of_posInf (hp.trans hinf), fun hfin => ?_⟩
    have hclamp : freqCoef s ch b sc nt = if F.val 0x3FA78D2D < F.val p3 then 0x3FA78D2D else p3 := by
      rw [← hp] at hfin ⊢
      exact trimmedCoef_of_finite hfin
    rw [hclamp]
    refine ⟨fun hgt => if_pos hgt, fun hle => if_neg hle.not_gt, ?_⟩
    split
    · exact le_rfl
    · next hle => exact not_lt.1 hle
  case equalFactors =>
    intro hcoef hnudge hshift
    simp only [freqCoef, hcoef, hnudge, hshift]

/-! ## The clip test (R138) -/

theorem clipped_iff (P : Params) (xin : Vector (List Int) NC) : clipped P xin = true ↔
    ∃ (ch : Fin NC) (x : Int), x ∈ look xin ch ∧ (P.inClipThresh : Int) ≤ |x| := by
  rw [clipped, any_channels]
  simp only [List.any_eq_true, decide_eq_true_eq, Int.abs_eq_natAbs, Nat.cast_le]

theorem blkStart_xin (s : State) : (blkStart s).blk.xin = s.blk.xin := by
  obtain ⟨a, b, p, u, h⟩ := blkStart_frame s
  rw [h]

theorem FilterFrame.clip_eq {ch : Fin NC} {s t : State} (h : FilterFrame ch s t) : t.clip = s.clip :=
  (congrArg State.clip h.rest).trans rfl

theorem FilterFrame.xin_eq {ch : Fin NC} {s t : State} (h : FilterFrame ch s t) : t.blk.xin = s.blk.xin :=
  (congrArg Block.xin h.blk_rest).trans rfl

/-- The resonator operations write neither `CLIP` nor the input samples. -/
theorem filters_clip_xin (s : State) (l : List (Fin NC)) :
    (l.foldl filter s).clip = s.clip ∧ (l.foldl filter s).blk.xin = s.blk.xin := by
  induction l generalizing s with
  | nil => exact ⟨rfl, rfl⟩
  | cons ch l ih =>
    obtain ⟨hclip, hxin⟩ := ih (filter s ch)
    exact ⟨hclip.trans (filter_frame ch s).clip_eq, hxin.trans (filter_frame ch s).xin_eq⟩

@[simp] theorem compose_clip (s : State) : (compose s).clip = s.clip := rfl
@[simp] theorem compose_blk (s : State) : (compose s).blk = s.blk := rfl

theorem engine_xin (s : State) : (engine s).blk.xin = s.blk.xin := by
  obtain ⟨-, hxin⟩ := filters_clip_xin (clipTest (blkStart s)) channels
  rw [engine, compose_blk, hxin, clipTest_blk, blkStart_xin]

/-- After a block `CLIP` is the test of its input samples: what comes after the test does not write the flag. -/
theorem engine_clip (s : State) : (engine s).clip = clipped s.P s.blk.xin := by
  obtain ⟨hclip, -⟩ := filters_clip_xin (clipTest (blkStart s)) channels
  obtain ⟨a, b, p, u, hstart⟩ := blkStart_frame s
  rw [engine, compose_clip, hclip, hstart]
  rfl

/-- Settles O34: the flag at the end of a block is the clip test's answer, and the block leaves the samples. -/
theorem clipFlagRecordsOverRange : Obligations.ClipFlagRecordsOverRange := by
  unfold Obligations.ClipFlagRecordsOverRange
  exact ⟨fun s => by rw [engine_clip, clipped_iff], fun _ => rfl, engine_xin⟩

end Sys2Proof.Machine
end

section
/-! SUPPORT. What `FILT2P` computes (41_twopass.md R137, R140, R141): its passes as the recurrences of R136, each on the
slot as it stood before the block, and the frame. -/

namespace Sys2Proof.Machine

/-! ## Slot writes -/

/-- A slot of a channel is not touched by a write to another slot of that channel. -/
theorem readSlot_writeSlot_other (P : Params) {m : Memory} (h : m.wf = true) (ch : Fin NC) {sc nt sc' nt' : Nat}
    (hsc : sc < P.ns) (hnt : nt < P.nf) (hsc' : sc' < P.ns) (hnt' : nt' < P.nf) (hne : (sc, nt) ≠ (sc', nt')) (v : Slot) :
    readSlot P (writeSlot P m ch sc' nt' v) ch sc nt = readSlot P m ch sc nt :=
  readSlot_congr P ch sc nt fun _ hk =>
    read_writeSlot_other P h ch sc' nt' v (not_slotKey_of_ne P ch 3 hsc hnt hsc' hnt' hk le_rfl hne)

/-- A slot written whose keys are none of those at which agreement is asked. -/
theorem Memory.agreeOn.writeSlot_avoiding {p : Nat → Prop} {m w : Memory} (h : m.agreeOn p w) {P : Params} {ch : Fin NC}
    {sc nt : Nat} (hp : ∀ k, p k → ¬ slotKey P ch sc nt 3 k) (v : Slot) : m.agreeOn p (writeSlot P w ch sc nt v) := by
  obtain ⟨hm, hw, hread⟩ := h
  exact ⟨hm, wf_writeSlot P hw .., fun k hk => (read_writeSlot_other P hw ch sc nt v (hp k hk)).trans (hread k hk)⟩

/-! ## The frame of a resonator operation -/

/-- A filter that writes its own channel's outputs and no history element off its passes' slots meets the frame. -/
theorem FilterFrame.filterFrame {ch : Fin NC} {s t : State} {n : Nat} (h : FilterFrame ch s t)
    (ha : s.ha.agreeOn (¬ passKey s ch n ·) t.ha) (hb : s.hb.agreeOn (¬ passKey s ch n ·) t.hb) :
    s.filterFrame t ch n := by
  refine ⟨?_, fun d hd => ⟨h.pitch_other d hd, h.yp_other d hd, h.yt_other d hd⟩,
    fun k hk => ⟨ha.2.2 k hk, hb.2.2 k hk⟩⟩
  rw [← h.blk_rest]
  exact h.rest

theorem samePair_eq_false_iff (ix : Idx) : samePair ix = false ↔ (ix.fsc, ix.fnt) ≠ (ix.sc, ix.nt) := by
  simp only [samePair, ← Bool.decide_and, decide_eq_false_iff_not, ne_eq, Prod.mk.injEq]

/-- A property of the history is kept by the passes where the passes that run keep it. -/
theorem passes_keeps_of_run {μ : Type} (p : μ → Prop) {morph same : Bool} {pass : Bool → μ → List F × μ}
    {openPair : μ → List F × List F × μ} {m : μ} (hm : p m) (hprimary : ∀ m, p m → p (pass false m).2)
    (htarget : morph = true → ∀ m, p m → p (pass true m).2) (hopen : ∀ m, p m → p (openPair m).2.2) :
    p (passes morph same pass openPair m).2.2 := by
  rcases passes_cases morph same pass openPair m with ⟨-, h⟩ | ⟨-, -, h⟩ | ⟨hmorph, -, h⟩ <;> rw [h]
  · exact hprimary _ hm
  · exact hopen _ hm
  · exact htarget hmorph _ (hprimary _ hm)

/-- Passes of one length give outputs of that length. -/
theorem passes_length {μ : Type} {morph same : Bool} {pass : Bool → μ → List F × μ}
    {openPair : μ → List F × List F × μ} {m : μ} {n : Nat} {yt : List F} (hpass : ∀ b m, (pass b m).1.length = n)
    (hopen : ∀ m, (openPair m).1.length = n ∧ (openPair m).2.1.length = n)
    (hyt : (passes morph same pass openPair m).2.1 = some yt) :
    (passes morph same pass openPair m).1.length = n ∧ yt.length = n := by
  rcases passes_cases morph same pass openPair m with ⟨-, h⟩ | ⟨-, -, h⟩ | ⟨-, -, h⟩ <;> rw [h] at hyt ⊢
  · cases hyt
  · cases hyt
    exact hopen m
  · cases hyt
    exact ⟨hpass .., hpass ..⟩

/-! ## What `FILT2P` writes -/

theorem exec_filt2p (s : State) (ch : Fin NC) : exec (.filt2p ch.val) s = .next (filt2p ch s) := by
  simp only [exec, execFilt2p, chanOf_val]

section Writes

variable (ch : Fin NC) (s : State)

theorem filt2p_ha : (filt2p ch s).ha = (twoPassPasses s ch).2.2.1 := rfl
theorem filt2p_hb : (filt2p ch s).hb = (twoPassPasses s ch).2.2.2 := rfl
theorem filt2p_yp : look (filt2p ch s).blk.yp ch = (twoPassPasses s ch).1 := look_upd_same ..
theorem filt2p_yt : (filt2p ch s).blk.yt = (setOutputs s ch (twoPassPasses s ch).1 (twoPassPasses s ch).2.1).blk.yt := rfl
theorem filt2p_pitch : look (filt2p ch s).pitch ch = pitchOf s ch := look_upd_same ..

variable {ch s}

theorem filt2p_yt_of_none (h : (twoPassPasses s ch).2.1 = none) : (filt2p ch s).blk.yt = s.blk.yt := by
  rw [filt2p_yt, h, setOutputs_yt_none]

theorem filt2p_yt_of_some {y : List F} (h : (twoPassPasses s ch).2.1 = some y) : look (filt2p ch s).blk.yt ch = y := by
  rw [filt2p_yt, h, setOutputs_yt_some, look_upd_same]

/-- The pitch output by its two cases (R139). -/
theorem pitchOf_eq (s : State) (ch : Fin NC) :
    let c := look s.chan ch
    let ix := idxOf s.P c
    let c1p := freqCoef s ch ix.b ix.sc ix.nt
    pitchOf s ch = if s.glide = true ∧ morphOn c = true then
      s.P.dom.add (s.P.dom.mul c1p (s.P.dom.sub Const.one c.morph))
        (s.P.dom.mul (freqCoef s ch ix.b ix.fsc ix.fnt) c.morph) else c1p :=
  if_congr (by rw [Bool.and_eq_true]) rfl rfl

/-- Off the slots of the passes that run, both arenas stay as they are, and canonical. -/
theorem filt2p_agreeOn (h : s.Canonical) : s.ha.agreeOn (¬ passKey s ch 3 ·) (filt2p ch s).ha ∧
    s.hb.agreeOn (¬ passKey s ch 3 ·) (filt2p ch s).hb := by
  refine passes_keeps_of_run (μ := Memory × Memory)
    (fun m => s.ha.agreeOn (¬ passKey s ch 3 ·) m.1 ∧ s.hb.agreeOn (¬ passKey s ch 3 ·) m.2)
    ⟨.refl h.1, .refl h.2⟩ (fun m ⟨ha, hb⟩ => ?primary) (fun hmorph m ⟨ha, hb⟩ => ?target) (fun m ⟨ha, hb⟩ => ?openPair)
  case primary | openPair =>
    exact ⟨ha.writeSlot_avoiding (fun k hk hkey => hk (.inl hkey)) _,
      hb.writeSlot_avoiding (fun k hk hkey => hk (.inl hkey)) _⟩
  case target =>
    exact ⟨ha.writeSlot_avoiding (fun k hk hkey => hk (.inr ⟨hmorph, hkey⟩)) _,
      hb.writeSlot_avoiding (fun k hk hkey => hk (.inr ⟨hmorph, hkey⟩)) _⟩

end Writes

/-! ## One pass (R137) -/

/-- The cascade's outputs from those of its two stages. -/
def cascadeOut (D : Domain) (ratio : F) (yA yB : List F) : List F :=
  List.zipWith (fun a b => D.sub (D.mul ratio a) b) yA yB

/-- A pass over the slot (`sc`, `nt`): from the arenas `m` to `m'` both stages run their recurrence over the block's
input, stage B on stage A's outputs, and `ys` is what the cascade gives. -/
def TwoPassTrace (s : State) (ch : Fin NC) (b sc nt : Nat) (m m' : Memory × Memory) (ys : List F) : Prop :=
  let k := twoPassCoefs s ch b sc nt
  ∃ yA yB : List F,
    ResonTrace s.P.dom k.c0a k.c1 k.c2a (readSlot s.P m.1 ch sc nt) ((look s.blk.xin ch).map s.P.dom.itof) yA
      (readSlot s.P m'.1 ch sc nt) ∧
    ResonTrace s.P.dom k.c0 k.c1 k.c2 (readSlot s.P m.2 ch sc nt) yA yB (readSlot s.P m'.2 ch sc nt) ∧
    ys = cascadeOut s.P.dom k.ratioA yA yB

section Pass

variable {s : State} {ch : Fin NC} {m m' w w' : Memory × Memory} {b sc nt : Nat}

/-- Both arenas of a pair are in canonical form. -/
def canonicalPair (m : Memory × Memory) : Prop := m.1.wf = true ∧ m.2.wf = true

theorem State.Canonical.pair (h : s.Canonical) : canonicalPair (s.ha, s.hb) := h

/-- Two pairs of arenas hold the same slot, in `HA` and in `HB`. -/
def sameSlot (P : Params) (ch : Fin NC) (sc nt : Nat) (m w : Memory × Memory) : Prop :=
  readSlot P w.1 ch sc nt = readSlot P m.1 ch sc nt ∧ readSlot P w.2 ch sc nt = readSlot P m.2 ch sc nt

/-- A pass is a matter of its slot before and after. -/
theorem TwoPassTrace.congr {ys : List F} (h : TwoPassTrace s ch b sc nt m m' ys) (hm : sameSlot s.P ch sc nt m w)
    (hm' : sameSlot s.P ch sc nt m' w') : TwoPassTrace s ch b sc nt w w' ys := by
  obtain ⟨hma, hmb⟩ := hm
  obtain ⟨hma', hmb'⟩ := hm'
  rwa [TwoPassTrace, hma, hmb, hma', hmb']

/-- A run of the cascade is a pass. -/
theorem twoPassRun_trace (h : canonicalPair m) (b sc nt : Nat) :
    TwoPassTrace s ch b sc nt m (twoPassRun s ch b sc nt m).2 (twoPassRun s ch b sc nt m).1 := by
  obtain ⟨yA, yB, hA, hB, hy⟩ := runBlock_cascade s.P.dom (twoPassCoefs s ch b sc nt)
    (readSlot s.P m.1 ch sc nt, readSlot s.P m.2 ch sc nt) (look s.blk.xin ch)
  refine ⟨yA, yB, ?_, ?_, hy⟩
  · rwa [twoPassRun, readSlot_writeSlot_same s.P h.1]
  · rwa [twoPassRun, readSlot_writeSlot_same s.P h.2]

theorem twoPassRun_canonical (h : canonicalPair m) (b sc nt : Nat) : canonicalPair (twoPassRun s ch b sc nt m).2 :=
  ⟨wf_writeSlot s.P h.1 .., wf_writeSlot s.P h.2 ..⟩

/-- A pass leaves every other slot of its channel. -/
theorem twoPassRun_sameSlot (h : canonicalPair m) (b : Nat) {sc' nt' : Nat} (hsc : sc < s.P.ns) (hnt : nt < s.P.nf)
    (hsc' : sc' < s.P.ns) (hnt' : nt' < s.P.nf) (hne : (sc, nt) ≠ (sc', nt')) :
    sameSlot s.P ch sc nt m (twoPassRun s ch b sc' nt' m).2 :=
  ⟨readSlot_writeSlot_other s.P h.1 ch hsc hnt hsc' hnt' hne _,
    readSlot_writeSlot_other s.P h.2 ch hsc hnt hsc' hnt' hne _⟩

@[simp] theorem twoPassRun_length (s : State) (ch : Fin NC) (b sc nt : Nat) (m : Memory × Memory) :
    (twoPassRun s ch b sc nt m).1.length = (look s.blk.xin ch).length := runBlock_length ..

end Pass

/-! ## The passes (R140) -/

section Passes

variable {s : State} {ch : Fin NC}

/-- With the morph position zero there is one pass, over the primary slot. -/
theorem filt2p_of_morphOff (h : s.Canonical) (hmorph : morphOn (look s.chan ch) = false) :
    let ix := idxOf s.P (look s.chan ch)
    let t := filt2p ch s
    TwoPassTrace s ch ix.b ix.sc ix.nt (s.ha, s.hb) (t.ha, t.hb) (look t.blk.yp ch) ∧ t.blk.yt = s.blk.yt := by
  intro ix t
  have hpasses : twoPassPasses s ch = ((twoPassRun s ch ix.b ix.sc ix.nt (s.ha, s.hb)).1, none,
      (twoPassRun s ch ix.b ix.sc ix.nt (s.ha, s.hb)).2) := by
    simp [twoPassPasses, passes, hmorph, ix]
  refine ⟨?_, filt2p_yt_of_none (by rw [hpasses])⟩
  rw [filt2p_ha, filt2p_hb, filt2p_yp, hpasses]
  exact twoPassRun_trace h.pair ..

/-- With the morph position not zero and distinct pairs there is a pass over each slot, from the slot as it was. -/
theorem filt2p_of_morphOn (h : s.Canonical) (hmorph : morphOn (look s.chan ch) = true)
    (hne : samePair (idxOf s.P (look s.chan ch)) = false) :
    let ix := idxOf s.P (look s.chan ch)
    let t := filt2p ch s
    TwoPassTrace s ch ix.b ix.sc ix.nt (s.ha, s.hb) (t.ha, t.hb) (look t.blk.yp ch) ∧
    TwoPassTrace s ch ix.b ix.fsc ix.fnt (s.ha, s.hb) (t.ha, t.hb) (look t.blk.yt ch) := by
  intro ix t
  obtain ⟨-, hsc, hnt, hfsc, hfnt⟩ := idxOf_bounds s.P (look s.chan ch)
  let p := twoPassRun s ch ix.b ix.sc ix.nt (s.ha, s.hb)
  have hpasses : twoPassPasses s ch = (p.1, some (twoPassRun s ch ix.b ix.fsc ix.fnt p.2).1,
      (twoPassRun s ch ix.b ix.fsc ix.fnt p.2).2) := by
    simp [twoPassPasses, passes, hmorph, hne, ix, p]
  have hpair := (samePair_eq_false_iff ix).1 hne
  have hp : canonicalPair p.2 := twoPassRun_canonical h.pair ..
  rw [filt2p_ha, filt2p_hb, filt2p_yp, filt2p_yt_of_some (by rw [hpasses]), hpasses]
  constructor
  · exact (twoPassRun_trace h.pair ..).congr ⟨rfl, rfl⟩ (twoPassRun_sameSlot hp _ hsc hnt hfsc hfnt hpair.symm)
  · obtain ⟨hslotA, hslotB⟩ := twoPassRun_sameSlot (s := s) (ch := ch) h.pair ix.b hfsc hfnt hsc hnt hpair
    exact (twoPassRun_trace hp ..).congr ⟨hslotA.symm, hslotB.symm⟩ ⟨rfl, rfl⟩

/-- With the morph position not zero both outputs have the input's length, distinct pairs or not. -/
theorem filt2p_length (hmorph : morphOn (look s.chan ch) = true) :
    (look (filt2p ch s).blk.yp ch).length = (look s.blk.xin ch).length ∧
    (look (filt2p ch s).blk.yt ch).length = (look s.blk.xin ch).length := by
  obtain ⟨yt, hyt⟩ := Option.isSome_iff_exists.1 ((passes_isSome ..).trans hmorph : (twoPassPasses s ch).2.1.isSome)
  rw [filt2p_yp, filt2p_yt_of_some hyt]
  refine passes_length (fun target m => ?pass) (fun m => ⟨openSamples_length .., openSamples_length ..⟩) hyt
  cases target <;> exact twoPassRun_length ..

end Passes

/-- Settles O28: the passes as traces by the morph gate, and the pitch and the frame in every case. -/
theorem twoPassResonator : Obligations.TwoPassResonator := by
  unfold Obligations.TwoPassResonator
  intro s ch hha hhb
  have hs : s.Canonical := ⟨hha, hhb⟩
  obtain ⟨hagreeA, hagreeB⟩ := filt2p_agreeOn (ch := ch) hs
  refine ⟨filt2p ch s, exec_filt2p s ch, filt2p_of_morphOff hs,
    fun hmorph hne => filt2p_of_morphOn hs hmorph ((samePair_eq_false_iff _).2 hne), fun hmorph => ?lengths,
    (filt2p_pitch ch s).trans (pitchOf_eq s ch), (filt2p_frame ch s).filterFrame hagreeA hagreeB,
    hagreeA.2.1, hagreeB.2.1⟩
  rw [List.length_map]
  exact filt2p_length hmorph

end Sys2Proof.Machine
end

section
/-! SUPPORT. The crossfade boundary (41_twopass.md R143): a stage that gets no input from a zero slot stays at zero, and
the cascade's output at the two ends of the ratio, in every domain that gives exact results (00_scope.md R10). -/

namespace Sys2Proof

namespace F

theorem finite_opp (a : F) : finite (opp a) = finite a := by
  rw [Bool.eq_iff_iff, finite_iff, finite_iff, low_opp]

/-- A finite word of value 0, of either sign. -/
structure IsZero (a : F) : Prop where
  finite : finite a = true
  val_eq : val a = 0

theorem isZero_zero : IsZero Const.zero := by constructor <;> decide +kernel
theorem finite_one : finite Const.one = true := by decide
theorem val_one : val Const.one = 1 := by decide +kernel

end F

/-! ## Exact results (R10) -/

namespace Domain.Exact

open F

variable {D : Domain} {a b r : F}

theorem add_eq (h : D.Exact) (ha : finite a = true) (hb : finite b = true) (hr : finite r = true)
    (e : val a + val b = val r) : finite (D.add a b) = true ∧ val (D.add a b) = val r := by
  have hplus := h.plus a b r ha hb hr e
  rwa [D.add_of_finite ha hb hplus.1]

theorem sub_eq (h : D.Exact) (ha : finite a = true) (hb : finite b = true) (hr : finite r = true)
    (e : val a - val b = val r) : finite (D.sub a b) = true ∧ val (D.sub a b) = val r := by
  have hminus := h.minus a b r ha hb hr e
  rwa [D.sub_of_finite ha hb hminus.1]

theorem mul_eq (h : D.Exact) (ha : finite a = true) (hb : finite b = true) (hr : finite r = true)
    (e : val a * val b = val r) : finite (D.mul a b) = true ∧ val (D.mul a b) = val r := by
  have htimes := h.times a b r ha hb hr e
  rwa [D.mul_of_finite ha hb htimes.1]

/-! Zeros. -/

theorem sub_isZero (h : D.Exact) (ha : finite a = true) (hb : IsZero b) :
    finite (D.sub a b) = true ∧ val (D.sub a b) = val a :=
  h.sub_eq ha hb.finite ha (by rw [hb.val_eq, sub_zero])

theorem sub_of_isZero (h : D.Exact) (ha : IsZero a) (hb : finite b = true) :
    finite (D.sub a b) = true ∧ val (D.sub a b) = -val b := by
  rw [← val_opp]
  exact h.sub_eq ha.finite hb ((finite_opp b).trans hb) (by rw [ha.val_eq, zero_sub, val_opp])

theorem isZero_sub (h : D.Exact) (ha : IsZero a) (hb : IsZero b) : IsZero (D.sub a b) := by
  obtain ⟨hfin, hval⟩ := h.sub_isZero ha.finite hb
  exact ⟨hfin, hval.trans ha.val_eq⟩

theorem isZero_add (h : D.Exact) (ha : IsZero a) (hb : IsZero b) : IsZero (D.add a b) := by
  obtain ⟨hfin, hval⟩ := h.add_eq ha.finite hb.finite hb.finite (by rw [ha.val_eq, zero_add])
  exact ⟨hfin, hval.trans hb.val_eq⟩

theorem isZero_mul_left (h : D.Exact) (ha : IsZero a) (hb : finite b = true) : IsZero (D.mul a b) := by
  obtain ⟨hfin, hval⟩ := h.mul_eq ha.finite hb ha.finite (by rw [ha.val_eq, zero_mul])
  exact ⟨hfin, hval.trans ha.val_eq⟩

theorem isZero_mul_right (h : D.Exact) (ha : finite a = true) (hb : IsZero b) : IsZero (D.mul a b) := by
  obtain ⟨hfin, hval⟩ := h.mul_eq ha hb.finite hb.finite (by rw [hb.val_eq, mul_zero])
  exact ⟨hfin, hval.trans hb.val_eq⟩

theorem one_mul_eq (h : D.Exact) (ha : finite a = true) :
    finite (D.mul Const.one a) = true ∧ val (D.mul Const.one a) = val a :=
  h.mul_eq finite_one ha ha (by rw [val_one, one_mul])

theorem isZero_one_sub_one (h : D.Exact) : IsZero (D.sub Const.one Const.one) := by
  obtain ⟨hfin, hval⟩ := h.sub_eq finite_one finite_one isZero_zero.finite (by rw [sub_self, isZero_zero.val_eq])
  exact ⟨hfin, hval.trans isZero_zero.val_eq⟩

end Domain.Exact

namespace Machine

open F

/-! ## The ends of the crossfade (R134) -/

section Ratio

variable {P : Params} {q : F}

theorem ratioA_of_lt (hq : finite q = true) (hmin : finite P.cfMin = true) (h : val q < val P.cfMin) :
    ratioA P q = Const.one := if_pos ((lt_iff hq hmin).2 h)

theorem ratioA_of_gt (hq : finite q = true) (hmin : finite P.cfMin = true) (hmax : finite P.cfMax = true)
    (hlt : val P.cfMin < val P.cfMax) (h : val P.cfMax < val q) : ratioA P q = Const.zero := by
  have hnot : ¬ F.lt q P.cfMin = true := by
    rw [lt_iff hq hmin]
    exact (hlt.trans h).not_gt
  rw [ratioA, if_neg hnot, if_pos ((lt_iff hmax hq).2 h)]

/-- Where `ratio_a` is 1, nothing of stage A goes to stage B. -/
theorem isZero_ratioB (hD : P.dom.Exact) (hone : ratioA P q = Const.one)
    (hcal : finite (apply1 .twoPassCal P.twoPassCal (qbOf P.dom q)) = true) : IsZero (ratioB P q) := by
  rw [ratioB, hone]
  exact hD.isZero_mul_left hD.isZero_one_sub_one hcal

end Ratio

/-! ## A stage without input (R136) -/

/-- The slot's two elements that the recurrence reads are 0. -/
structure Slot.IsZero (h : Slot) : Prop where
  h0 : F.IsZero h.h0
  h1 : F.IsZero h.h1

section Recurrence

variable {D : Domain} {c0 c1 c2 : F} {h h' : Slot} {xs ys : List F}

theorem ResonTrace.length_eq (ht : ResonTrace D c0 c1 c2 h xs ys h') : ys.length = xs.length := by
  induction ht with
  | nil => rfl
  | cons h x h2 xs ys h' _ _ ih => rw [List.length_cons, List.length_cons, ih]

/-- From a zero slot, with a zero amplitude, the outputs are 0 and the slot stays so. -/
theorem ResonTrace.isZero (hD : D.Exact) (hc0 : finite c0 = true) (hc1 : finite c1 = true) (hc2 : F.IsZero c2)
    (ht : ResonTrace D c0 c1 c2 h xs ys h') (hxs : ∀ x ∈ xs, finite x = true) (hzero : h.IsZero) :
    (∀ y ∈ ys, F.IsZero y) ∧ h'.IsZero := by
  induction ht with
  | nil h => exact ⟨fun y hy => absurd hy List.not_mem_nil, hzero⟩
  | cons h x h2 xs ys h' heq _ ih =>
    obtain ⟨hx, hxs⟩ := List.forall_mem_cons.1 hxs
    have hh2 : F.IsZero h2 := heq ▸ hD.isZero_sub
      (hD.isZero_add (hD.isZero_mul_right hc0 hzero.h1) (hD.isZero_mul_right hc1 hzero.h0)) (hD.isZero_mul_left hc2 hx)
    obtain ⟨hys, hend⟩ := ih hxs ⟨hD.isZero_sub hzero.h0 (hD.isZero_mul_right hc1 hh2), hh2⟩
    exact ⟨List.forall_mem_cons.2 ⟨hh2, hys⟩, hend⟩

end Recurrence

/-! ## The cascade's output at the two ends (R137) -/

section Output

variable {D : Domain} {ratio : F} {yA yB : List F}

/-- At ratio 1, with stage B at 0, it is stage A's values. -/
theorem cascadeOut_of_one (hD : D.Exact) (hratio : ratio = Const.one) (hlen : yB.length = yA.length)
    (hA : ∀ y ∈ yA, finite y = true) (hB : ∀ y ∈ yB, F.IsZero y) :
    (cascadeOut D ratio yA yB).map val = yA.map val := by
  subst hratio
  induction yA generalizing yB with
  | nil => rfl
  | cons a yA ih =>
    obtain ⟨b, yB, rfl⟩ := List.exists_cons_of_length_eq_add_one hlen
    obtain ⟨ha, hA⟩ := List.forall_mem_cons.1 hA
    obtain ⟨hb, hB⟩ := List.forall_mem_cons.1 hB
    obtain ⟨hfin, hval⟩ := hD.one_mul_eq ha
    exact congrArg₂ List.cons ((hD.sub_isZero hfin hb).2.trans hval) (ih (Nat.succ.inj hlen) hA hB)

/-- At ratio 0 it is stage B's values negated. -/
theorem cascadeOut_of_zero (hD : D.Exact) (hratio : ratio = Const.zero) (hlen : yB.length = yA.length)
    (hA : ∀ y ∈ yA, finite y = true) (hB : ∀ y ∈ yB, finite y = true) :
    (cascadeOut D ratio yA yB).map val = yB.map fun y => -val y := by
  subst hratio
  induction yB generalizing yA with
  | nil => rw [cascadeOut, List.zipWith_nil_right]; rfl
  | cons b yB ih =>
    obtain ⟨a, yA, rfl⟩ := List.exists_cons_of_length_eq_add_one hlen.symm
    obtain ⟨ha, hA⟩ := List.forall_mem_cons.1 hA
    obtain ⟨hb, hB⟩ := List.forall_mem_cons.1 hB
    exact congrArg₂ List.cons (hD.sub_of_isZero (hD.isZero_mul_left isZero_zero ha) hb).2 (ih (Nat.succ.inj hlen) hA hB)

end Output

/-- Settles O30: with no morph there is one pass, and its stages' outputs give the block's at either end. -/
theorem crossfadeBoundary : Obligations.CrossfadeBoundary := by
  unfold Obligations.CrossfadeBoundary
  intro s ch hdom hha hhb c ix k hB xs hq hmin hmax hlt hmorph
  have hD : s.P.dom.Exact := hdom ▸ Domain.binary32_exact
  have hxs : (look s.blk.xin ch).map s.P.dom.itof = xs := by
    rw [hdom]
    exact List.map_congr_left fun n _ => Domain.itof_binary32 n
  obtain ⟨⟨yA, yB, hA, hstageB, hyp⟩, -⟩ := filt2p_of_morphOff ⟨hha, hhb⟩ hmorph
  rw [hxs] at hA
  have hlen : yB.length = yA.length := hstageB.length_eq
  refine ⟨fun hbelow => ?below, fun habove => ?above⟩
  case below =>
    have hone : k.ratioA = Const.one := ratioA_of_lt hq hmin hbelow
    refine ⟨hone, fun hcal => (isZero_ratioB hD hone hcal).val_eq, fun hamp hfin hval => ?amplitude,
      fun hval hc0 hc1 hc2 h0 h1 h0' h1' => ?block⟩
    case amplitude =>
      have hc2 : F.IsZero k.c2 := hD.isZero_mul_right hamp ⟨hfin, hval⟩
      exact ⟨hc2.finite, hc2.val_eq⟩
    case block =>
      refine ⟨filt2p ch s, yA, exec_filt2p s ch, hA, fun hfin => ?_⟩
      obtain ⟨hzero, hend⟩ := hstageB.isZero hD hc0 hc1 ⟨hc2, hval⟩ hfin ⟨⟨h0, h0'⟩, ⟨h1, h1'⟩⟩
      rw [hyp]
      exact ⟨cascadeOut_of_one hD hone hlen hfin hzero, hend.h0.val_eq, hend.h1.val_eq⟩
  case above =>
    have hzero : k.ratioA = Const.zero := ratioA_of_gt hq hmin hmax hlt habove
    refine ⟨hzero, filt2p ch s, yA, yB, exec_filt2p s ch, hA, hstageB, fun hfin => ?_⟩
    obtain ⟨hfinA, hfinB⟩ := List.forall_mem_append.1 hfin
    rw [hyp]
    exact cascadeOut_of_zero hD hzero hlen hfinA hfinB

end Machine

end Sys2Proof
end

section
/-! SUPPORT. What `FILT1P` computes (42_onepass.md R150 to R153): its passes over `HA` as the recurrence of R136, each
on the slot as it stood before the block, and the frame of an operation that leaves `HB` alone. -/

namespace Sys2Proof.Machine

/-- A filter that leaves `HB` as it is and writes no element of `HA` off its passes' slots meets the frame; nothing is
asked of the form of `HB`. -/
theorem FilterFrame.filterFrame_of_hb_eq {ch : Fin NC} {s t : State} {n : Nat} (h : FilterFrame ch s t)
    (ha : s.ha.agreeOn (¬ passKey s ch n ·) t.ha) (hb : t.hb = s.hb) : s.filterFrame t ch n := by
  obtain ⟨-, -, hread⟩ := ha
  refine ⟨?_, fun d hd => ⟨h.pitch_other d hd, h.yp_other d hd, h.yt_other d hd⟩,
    fun k hk => ⟨hread k hk, by rw [hb]⟩⟩
  rw [← h.blk_rest]
  exact h.rest

/-! ## What `FILT1P` writes -/

theorem exec_filt1p (s : State) (ch : Fin NC) : exec (.filt1p ch.val) s = .next (filt1p ch s) := by
  simp only [exec, execFilt1p, chanOf_val]

section Writes

variable (ch : Fin NC) (s : State)

theorem filt1p_ha : (filt1p ch s).ha = (onePassPasses s ch).2.2 := rfl
theorem filt1p_hb : (filt1p ch s).hb = s.hb := rfl
theorem filt1p_yp : look (filt1p ch s).blk.yp ch = (onePassPasses s ch).1 := look_upd_same ..
theorem filt1p_yt : (filt1p ch s).blk.yt = (setOutputs s ch (onePassPasses s ch).1 (onePassPasses s ch).2.1).blk.yt := rfl
theorem filt1p_pitch : look (filt1p ch s).pitch ch = pitchOf s ch := look_upd_same ..

variable {ch s}

theorem filt1p_yt_of_none (h : (onePassPasses s ch).2.1 = none) : (filt1p ch s).blk.yt = s.blk.yt := by
  rw [filt1p_yt, h, setOutputs_yt_none]

theorem filt1p_yt_of_some {y : List F} (h : (onePassPasses s ch).2.1 = some y) : look (filt1p ch s).blk.yt ch = y := by
  rw [filt1p_yt, h, setOutputs_yt_some, look_upd_same]

/-- Off the slots of the passes that run, `HA` stays as it is, and canonical. -/
theorem filt1p_agreeOn (h : s.ha.wf = true) : s.ha.agreeOn (¬ passKey s ch 3 ·) (filt1p ch s).ha := by
  refine passes_keeps_of_run (s.ha.agreeOn (¬ passKey s ch 3 ·)) (.refl h) (fun m hm => ?primary)
    (fun hmorph m hm => ?target) (fun m hm => ?openPair)
  case primary | openPair => exact hm.writeSlot_avoiding (fun k hk hkey => hk (.inl hkey)) _
  case target => exact hm.writeSlot_avoiding (fun k hk hkey => hk (.inr ⟨hmorph, hkey⟩)) _

end Writes

/-! ## One pass (R152) -/

/-- A pass over the slot (`sc`, `nt`): from the arena `m` to `m'` the recurrence runs over the block's input with the
coefficients of R151 and gives `ys`. -/
def OnePassTrace (s : State) (ch : Fin NC) (b sc nt : Nat) (m m' : Memory) (ys : List F) : Prop :=
  let k := onePassCoefs s ch b sc nt
  ResonTrace s.P.dom k.c0 k.c1 k.c2 (readSlot s.P m ch sc nt) ((look s.blk.xin ch).map s.P.dom.itof) ys
    (readSlot s.P m' ch sc nt)

section Pass

variable {s : State} {ch : Fin NC} {m m' w w' : Memory} {b sc nt : Nat}

/-- A pass is a matter of its slot before and after. -/
theorem OnePassTrace.congr {ys : List F} (h : OnePassTrace s ch b sc nt m m' ys)
    (hm : readSlot s.P w ch sc nt = readSlot s.P m ch sc nt)
    (hm' : readSlot s.P w' ch sc nt = readSlot s.P m' ch sc nt) : OnePassTrace s ch b sc nt w w' ys := by
  rwa [OnePassTrace, hm, hm']

/-- A run of the recurrence is a pass. -/
theorem onePassRun_trace (h : m.wf = true) (b sc nt : Nat) :
    OnePassTrace s ch b sc nt m (onePassRun s ch b sc nt m).2 (onePassRun s ch b sc nt m).1 := by
  rw [OnePassTrace, onePassRun, readSlot_writeSlot_same s.P h]
  exact runBlock_reson ..

theorem onePassRun_wf (h : m.wf = true) (b sc nt : Nat) : (onePassRun s ch b sc nt m).2.wf = true :=
  wf_writeSlot s.P h ..

/-- A pass leaves every other slot of its channel. -/
theorem readSlot_onePassRun_other (h : m.wf = true) (b : Nat) {sc' nt' : Nat} (hsc : sc < s.P.ns) (hnt : nt < s.P.nf)
    (hsc' : sc' < s.P.ns) (hnt' : nt' < s.P.nf) (hne : (sc, nt) ≠ (sc', nt')) :
    readSlot s.P (onePassRun s ch b sc' nt' m).2 ch sc nt = readSlot s.P m ch sc nt :=
  readSlot_writeSlot_other s.P h ch hsc hnt hsc' hnt' hne _

@[simp] theorem onePassRun_length (s : State) (ch : Fin NC) (b sc nt : Nat) (m : Memory) :
    (onePassRun s ch b sc nt m).1.length = (look s.blk.xin ch).length := runBlock_length ..

end Pass

/-! ## The passes (R140, R153) -/

section Passes

variable {s : State} {ch : Fin NC}

/-- With the morph position zero there is one pass, over the primary slot. -/
theorem filt1p_of_morphOff (h : s.ha.wf = true) (hmorph : morphOn (look s.chan ch) = false) :
    let ix := idxOf s.P (look s.chan ch)
    let t := filt1p ch s
    OnePassTrace s ch ix.b ix.sc ix.nt s.ha t.ha (look t.blk.yp ch) ∧ t.blk.yt = s.blk.yt := by
  intro ix t
  let p := onePassRun s ch ix.b ix.sc ix.nt s.ha
  have hpasses : onePassPasses s ch = (p.1, none, p.2) := by
    simp [onePassPasses, passes, hmorph, ix, p]
  refine ⟨?_, filt1p_yt_of_none (by rw [hpasses])⟩
  rw [filt1p_ha, filt1p_yp, hpasses]
  exact onePassRun_trace h ..

/-- With the morph position not zero and distinct pairs there is a pass over each slot, from the slot as it was: neither
run touches the other's slot. -/
theorem filt1p_of_morphOn (h : s.ha.wf = true) (hmorph : morphOn (look s.chan ch) = true)
    (hne : samePair (idxOf s.P (look s.chan ch)) = false) :
    let ix := idxOf s.P (look s.chan ch)
    let t := filt1p ch s
    OnePassTrace s ch ix.b ix.sc ix.nt s.ha t.ha (look t.blk.yp ch) ∧
    OnePassTrace s ch ix.b ix.fsc ix.fnt s.ha t.ha (look t.blk.yt ch) := by
  intro ix t
  obtain ⟨-, hsc, hnt, hfsc, hfnt⟩ := idxOf_bounds s.P (look s.chan ch)
  let p := onePassRun s ch ix.b ix.sc ix.nt s.ha
  let q := onePassRun s ch ix.b ix.fsc ix.fnt p.2
  have hpasses : onePassPasses s ch = (p.1, some q.1, q.2) := by
    simp [onePassPasses, passes, hmorph, hne, ix, p, q]
  have hpair := (samePair_eq_false_iff ix).1 hne
  have hp : p.2.wf = true := onePassRun_wf h ..
  rw [filt1p_ha, filt1p_yp, filt1p_yt_of_some (by rw [hpasses]), hpasses]
  constructor
  · exact (onePassRun_trace h ..).congr rfl (readSlot_onePassRun_other hp _ hsc hnt hfsc hfnt hpair.symm)
  · exact (onePassRun_trace hp ..).congr (readSlot_onePassRun_other h _ hfsc hfnt hsc hnt hpair).symm rfl

/-- With the morph position not zero both outputs have the input's length, distinct pairs or not. -/
theorem filt1p_length (hmorph : morphOn (look s.chan ch) = true) :
    (look (filt1p ch s).blk.yp ch).length = (look s.blk.xin ch).length ∧
    (look (filt1p ch s).blk.yt ch).length = (look s.blk.xin ch).length := by
  obtain ⟨yt, hyt⟩ := Option.isSome_iff_exists.1 ((passes_isSome ..).trans hmorph : (onePassPasses s ch).2.1.isSome)
  rw [filt1p_yp, filt1p_yt_of_some hyt]
  refine passes_length (fun target m => ?pass) (fun m => ⟨openSamples_length .., openSamples_length ..⟩) hyt
  cases target <;> exact onePassRun_length ..

end Passes

/-- Settles O27: the passes as traces by the morph gate, and the pitch and the frame in every case. -/
theorem onePassResonator : Obligations.OnePassResonator := by
  unfold Obligations.OnePassResonator
  intro s ch hha
  have hagree := filt1p_agreeOn (ch := ch) hha
  have hwf : (filt1p ch s).ha.wf = true := hagree.2.1
  refine ⟨filt1p ch s, exec_filt1p s ch, filt1p_of_morphOff hha,
    fun hmorph hne => filt1p_of_morphOn hha hmorph ((samePair_eq_false_iff _).2 hne), fun hmorph => ?lengths,
    (filt1p_pitch ch s).trans (pitchOf_eq s ch), (filt1p_frame ch s).filterFrame_of_hb_eq hagree (filt1p_hb ch s),
    filt1p_hb ch s, hwf⟩
  rw [List.length_map]
  exact filt1p_length hmorph

end Sys2Proof.Machine
end

section
/-! SUPPORT. What `FILTBL` computes (43_blended.md R160 to R165): on a bank with tables its passes over `HA` as the
recurrence of R163, each on the slot as it stood before the block; on every bank the lengths of its outputs, and the
frame, which leaves element 2 of each slot alone. -/

namespace Sys2Proof.Machine

/-! ## Writes of a slot's first two elements -/

/-- A slot of a channel is not touched by a write to the first two elements of another slot of that channel. -/
theorem readSlot_writeSlot01_other (P : Params) {m : Memory} (h : m.wf = true) (ch : Fin NC) {sc nt sc' nt' : Nat}
    (hsc : sc < P.ns) (hnt : nt < P.nf) (hsc' : sc' < P.ns) (hnt' : nt' < P.nf) (hne : (sc, nt) ≠ (sc', nt')) (v : Slot) :
    readSlot P (writeSlot01 P m ch sc' nt' v) ch sc nt = readSlot P m ch sc nt :=
  readSlot_congr P ch sc nt fun _ hk =>
    read_writeSlot01_other P h ch sc' nt' v (not_slotKey_of_ne P ch 2 hsc hnt hsc' hnt' hk (by decide) hne)

/-- Two elements written whose keys are none of those at which agreement is asked. -/
theorem Memory.agreeOn.writeSlot01_avoiding {p : Nat → Prop} {m w : Memory} (h : m.agreeOn p w) {P : Params}
    {ch : Fin NC} {sc nt : Nat} (hp : ∀ k, p k → ¬ slotKey P ch sc nt 2 k) (v : Slot) :
    m.agreeOn p (writeSlot01 P w ch sc nt v) := by
  obtain ⟨hm, hw, hread⟩ := h
  exact ⟨hm, wf_writeSlot01 P hw .., fun k hk => (read_writeSlot01_other P hw ch sc nt v (hp k hk)).trans (hread k hk)⟩

/-! ## One pass (R160, R163) -/

/-- A pass over the slot (`sc`, `nt`): from the arena `m` to `m'` the recurrence runs over the block's input with the
triple of R162 and gives `ys`. -/
def BlendTrace (s : State) (ch : Fin NC) (b sc nt : Nat) (m m' : Memory) (ys : List F) : Prop :=
  let k := blendCoefs s ch b sc nt
  BlresTrace s.P.dom k.c0 k.c1 k.c2 (readSlot s.P m ch sc nt) ((look s.blk.xin ch).map s.P.dom.itof) ys
    (readSlot s.P m' ch sc nt)

section Pass

variable {s : State} {ch : Fin NC} {m m' w w' : Memory} {b sc nt : Nat}

/-- A pass is a matter of its slot before and after. -/
theorem BlendTrace.congr {ys : List F} (h : BlendTrace s ch b sc nt m m' ys)
    (hm : readSlot s.P w ch sc nt = readSlot s.P m ch sc nt)
    (hm' : readSlot s.P w' ch sc nt = readSlot s.P m' ch sc nt) : BlendTrace s ch b sc nt w w' ys := by
  rwa [BlendTrace, hm, hm']

/-- A run of the recurrence is a pass: it stores elements 0 and 1, and its end state's element 2 is the slot's own. -/
theorem blendRun_trace (h : m.wf = true) (b sc nt : Nat) :
    BlendTrace s ch b sc nt m (blendRun s ch b sc nt m).2 (blendRun s ch b sc nt m).1 := by
  rw [BlendTrace, blendRun, readSlot_writeSlot01_same s.P h _ _ _ _ (runBlock_blres_h2 ..)]
  exact runBlock_blres ..

theorem blendRun_wf (h : m.wf = true) (b sc nt : Nat) : (blendRun s ch b sc nt m).2.wf = true :=
  wf_writeSlot01 s.P h ..

/-- A pass leaves every other slot of its channel. -/
theorem readSlot_blendRun_other (h : m.wf = true) (b : Nat) {sc' nt' : Nat} (hsc : sc < s.P.ns) (hnt : nt < s.P.nf)
    (hsc' : sc' < s.P.ns) (hnt' : nt' < s.P.nf) (hne : (sc, nt) ≠ (sc', nt')) :
    readSlot s.P (blendRun s ch b sc' nt' m).2 ch sc nt = readSlot s.P m ch sc nt :=
  readSlot_writeSlot01_other s.P h ch hsc hnt hsc' hnt' hne _

@[simp] theorem blendRun_length (s : State) (ch : Fin NC) (b sc nt : Nat) (m : Memory) :
    (blendRun s ch b sc nt m).1.length = (look s.blk.xin ch).length := runBlock_length ..

end Pass

/-! ## What stands for the passes on any bank (R164, R165) -/

/-- Passes of one length give outputs of that length, the target's where the morph gate is open. -/
theorem passes_lengths {μ : Type} {morph same : Bool} {pass : Bool → μ → List F × μ}
    {openPair : μ → List F × List F × μ} {m : μ} {n : Nat} (hpass : ∀ b m, (pass b m).1.length = n)
    (hopen : ∀ m, (openPair m).1.length = n ∧ (openPair m).2.1.length = n) :
    (passes morph same pass openPair m).1.length = n ∧
    (passes morph same pass openPair m).2.1.map List.length = if morph then some n else none := by
  rcases passes_cases morph same pass openPair m with ⟨rfl, h⟩ | ⟨rfl, -, h⟩ | ⟨rfl, -, h⟩ <;> rw [h]
  · exact ⟨hpass .., rfl⟩
  · exact ⟨(hopen m).1, congrArg some (hopen m).2⟩
  · exact ⟨hpass .., congrArg some (hpass ..)⟩

section Banks

variable (s : State) (ch : Fin NC)

theorem blendOrOpen_lengths :
    (blendOrOpen s ch).1.length = (look s.blk.xin ch).length ∧
    (blendOrOpen s ch).2.1.map List.length =
      if morphOn (look s.chan ch) then some (look s.blk.xin ch).length else none := by
  simp only [blendOrOpen]
  split
  case isTrue =>
    obtain ⟨hyp, hyt, -⟩ := openBlend_spec s ch (idxOf s.P (look s.chan ch)) (morphOn (look s.chan ch))
    rw [hyp, hyt]
    cases morphOn (look s.chan ch)
    · exact ⟨openSamples_length .., rfl⟩
    · exact ⟨openSamples_length .., congrArg some (openSamples_length ..)⟩
  case isFalse =>
    refine passes_lengths (fun target m => ?pass) fun m => ⟨openSamples_length .., openSamples_length ..⟩
    cases target <;> exact blendRun_length ..

variable {s ch}

/-- A property of `HA` is kept where writes to the first two elements of the primary slot keep it and, with the morph
position not zero, such writes to the target slot. -/
theorem blendOrOpen_keeps (p : Memory → Prop) (hm : p s.ha)
    (hprimary : ∀ m v, p m →
      p (writeSlot01 s.P m ch (idxOf s.P (look s.chan ch)).sc (idxOf s.P (look s.chan ch)).nt v))
    (htarget : ∀ m v, morphOn (look s.chan ch) = true → p m →
      p (writeSlot01 s.P m ch (idxOf s.P (look s.chan ch)).fsc (idxOf s.P (look s.chan ch)).fnt v)) :
    p (blendOrOpen s ch).2.2 := by
  simp only [blendOrOpen]
  split
  · exact (openBlend_spec ..).2.2 p hm hprimary htarget
  · exact passes_keeps_of_run p hm (fun m => hprimary m _) (fun hmorph m => htarget m _ hmorph) fun m => hprimary m _

/-- Below the user bank it is the passes. -/
theorem blendOrOpen_of_tables (hb : (idxOf s.P (look s.chan ch)).b + 1 < s.P.nb) :
    blendOrOpen s ch = blendPasses s ch (idxOf s.P (look s.chan ch)) (morphOn (look s.chan ch)) :=
  if_neg (by omega)

end Banks

/-! ## What `FILTBL` writes -/

theorem exec_filtbl (s : State) (ch : Fin NC) : exec (.filtbl ch.val) s = .next (filtbl ch s) := by
  simp only [exec, execFiltbl, chanOf_val]

section Writes

variable (ch : Fin NC) (s : State)

theorem filtbl_ha : (filtbl ch s).ha = (blendOrOpen s ch).2.2 := rfl
theorem filtbl_hb : (filtbl ch s).hb = s.hb := rfl
theorem filtbl_yp : look (filtbl ch s).blk.yp ch = (blendOrOpen s ch).1 := look_upd_same ..
theorem filtbl_yt : (filtbl ch s).blk.yt = (setOutputs s ch (blendOrOpen s ch).1 (blendOrOpen s ch).2.1).blk.yt := rfl

theorem filtbl_yp_length : (look (filtbl ch s).blk.yp ch).length = (look s.blk.xin ch).length := by
  rw [filtbl_yp]
  exact (blendOrOpen_lengths s ch).1

variable {ch s}

theorem filtbl_yt_of_some {y : List F} (h : (blendOrOpen s ch).2.1 = some y) : look (filtbl ch s).blk.yt ch = y := by
  rw [filtbl_yt, h, setOutputs_yt_some, look_upd_same]

theorem filtbl_yt_of_morphOff (hmorph : morphOn (look s.chan ch) = false) : (filtbl ch s).blk.yt = s.blk.yt := by
  obtain ⟨-, hyt⟩ := blendOrOpen_lengths s ch
  rw [hmorph] at hyt
  rw [filtbl_yt, Option.map_eq_none_iff.1 hyt, setOutputs_yt_none]

theorem filtbl_yt_length (hmorph : morphOn (look s.chan ch) = true) :
    (look (filtbl ch s).blk.yt ch).length = (look s.blk.xin ch).length := by
  obtain ⟨-, hyt⟩ := blendOrOpen_lengths s ch
  rw [hmorph] at hyt
  obtain ⟨y, hy, hlen⟩ := Option.map_eq_some_iff.1 hyt
  rwa [filtbl_yt_of_some hy]

/-- Off the first two elements of the slots it runs over, `HA` stays as it is, and canonical. -/
theorem filtbl_agreeOn (h : s.ha.wf = true) : s.ha.agreeOn (¬ passKey s ch 2 ·) (filtbl ch s).ha :=
  blendOrOpen_keeps (s.ha.agreeOn (¬ passKey s ch 2 ·)) (.refl h)
    (fun _ v hm => hm.writeSlot01_avoiding (fun _ hk hkey => hk (.inl hkey)) v)
    fun _ v hmorph hm => hm.writeSlot01_avoiding (fun _ hk hkey => hk (.inr ⟨hmorph, hkey⟩)) v

end Writes

/-! ## The passes on a bank with tables (R164) -/

section Passes

variable {s : State} {ch : Fin NC}

/-- With the morph position zero there is one pass, over the primary slot. -/
theorem filtbl_of_morphOff (h : s.ha.wf = true) (hb : (idxOf s.P (look s.chan ch)).b + 1 < s.P.nb)
    (hmorph : morphOn (look s.chan ch) = false) :
    let ix := idxOf s.P (look s.chan ch)
    let t := filtbl ch s
    BlendTrace s ch ix.b ix.sc ix.nt s.ha t.ha (look t.blk.yp ch) := by
  intro ix t
  let p := blendRun s ch ix.b ix.sc ix.nt s.ha
  have hpasses : blendOrOpen s ch = (p.1, none, p.2) := by
    simp [blendOrOpen_of_tables hb, blendPasses, passes, hmorph, ix, p]
  rw [filtbl_ha, filtbl_yp, hpasses]
  exact blendRun_trace h ..

/-- With the morph position not zero and distinct pairs there is a pass over each slot, from the slot as it was: neither
run touches the other's slot. -/
theorem filtbl_of_morphOn (h : s.ha.wf = true) (hb : (idxOf s.P (look s.chan ch)).b + 1 < s.P.nb)
    (hmorph : morphOn (look s.chan ch) = true) (hne : samePair (idxOf s.P (look s.chan ch)) = false) :
    let ix := idxOf s.P (look s.chan ch)
    let t := filtbl ch s
    BlendTrace s ch ix.b ix.sc ix.nt s.ha t.ha (look t.blk.yp ch) ∧
    BlendTrace s ch ix.b ix.fsc ix.fnt s.ha t.ha (look t.blk.yt ch) := by
  intro ix t
  obtain ⟨-, hsc, hnt, hfsc, hfnt⟩ := idxOf_bounds s.P (look s.chan ch)
  let p := blendRun s ch ix.b ix.sc ix.nt s.ha
  let q := blendRun s ch ix.b ix.fsc ix.fnt p.2
  have hpasses : blendOrOpen s ch = (p.1, some q.1, q.2) := by
    simp [blendOrOpen_of_tables hb, blendPasses, passes, hmorph, hne, ix, p, q]
  have hpair := (samePair_eq_false_iff ix).1 hne
  have hp : p.2.wf = true := blendRun_wf h ..
  rw [filtbl_ha, filtbl_yp, filtbl_yt_of_some (by rw [hpasses]), hpasses]
  constructor
  · exact (blendRun_trace h ..).congr rfl (readSlot_blendRun_other hp _ hsc hnt hfsc hfnt hpair.symm)
  · exact (blendRun_trace hp ..).congr (readSlot_blendRun_other h _ hfsc hfnt hsc hnt hpair).symm rfl

end Passes

/-- Settles O29: below the user bank the passes as traces by the morph gate, and the lengths and the frame on every
bank. -/
theorem blendedTableResonator : Obligations.BlendedTableResonator := by
  unfold Obligations.BlendedTableResonator
  intro s ch hha
  have hagree := filtbl_agreeOn (ch := ch) hha
  have hwf : (filtbl ch s).ha.wf = true := hagree.2.1
  refine ⟨filtbl ch s, exec_filtbl s ch, fun hb => ⟨filtbl_of_morphOff hha hb,
    fun hmorph hne => filtbl_of_morphOn hha hb hmorph ((samePair_eq_false_iff _).2 hne)⟩, filtbl_yt_of_morphOff,
    ?primaryLength, fun hmorph => ?targetLength, (filtbl_frame ch s).filterFrame_of_hb_eq hagree (filtbl_hb ch s),
    filtbl_hb ch s, hwf⟩
  case primaryLength => exact (filtbl_yp_length ch s).trans (List.length_map ..).symm
  case targetLength => exact (filtbl_yt_length hmorph).trans (List.length_map ..).symm

end Sys2Proof.Machine
end
section
/-! SUPPORT. The event flags pend until a block consumes them (44_compositor.md R174). -/

namespace Sys2Proof.Machine

/-! ## A tick and the flags -/

/-- The compositor ends a block by consuming `ALG_CHANGED` too; no phase after it writes the flag. -/
theorem firedBlock_algChanged (s : State) : (firedBlock s).algChanged = false := by
  obtain ⟨b, hout⟩ := foldOut_eq_setBlk (engine (fanIn (quantize (resampleIn s))))
  rw [firedBlock, hout]
  rfl

@[simp] theorem tick_algChanged (s : State) : (tick s).algChanged = (process s).algChanged := rfl

theorem tick_clears_eventFlags {s : State} (hfire : fireTest (accumulate s) = true) :
    (tick s).algChanged = false ∧ (tick s).uscaleChanged = false := by
  rw [tick_algChanged, tick_uscaleChanged, process_of_fire hfire]
  exact ⟨firedBlock_algChanged (accumulate s), firedBlock_uscaleChanged (accumulate s)⟩

theorem tick_keeps_eventFlags {s : State} (hfire : fireTest (accumulate s) = false) :
    (tick s).algChanged = s.algChanged ∧ (tick s).uscaleChanged = s.uscaleChanged := by
  rw [tick_algChanged, tick_uscaleChanged, process_of_not_fire hfire]
  exact ⟨rfl, rfl⟩

/-! ## The other instructions and the flags -/

/-- Between `s` and `t` no event flag was cleared. -/
def State.clearsNoEventFlag (s t : State) : Prop :=
  (s.algChanged = true → t.algChanged = true) ∧ (s.uscaleChanged = true → t.uscaleChanged = true)

theorem State.clearsNoEventFlag.refl (s : State) : s.clearsNoEventFlag s := ⟨id, id⟩

theorem FilterFrame.clearsNoEventFlag {ch : Fin NC} {s t : State} (h : FilterFrame ch s t) : s.clearsNoEventFlag t := by
  rw [h.rest]
  exact ⟨id, id⟩

/-- A write to `ALGSEL` or `FLAGS` joins a flag with a condition (R101); no other register's write reaches the flags. -/
theorem writeG_clearsNoEventFlag (s : State) (v : Word) (reg : GReg) : s.clearsNoEventFlag (writeG s v reg) := by
  cases reg with
  | algsel => exact ⟨Bool.or_inl, id⟩
  | flags => exact ⟨Bool.or_inl, Bool.or_inl⟩
  | glide | fscale | qglobal | hostrate | inch | outmode | status | undefined => exact ⟨id, id⟩

/-- No instruction but `TICK` clears an event flag. -/
theorem exec_clearsNoEventFlag {i : Instr} (s : State) (hi : i ≠ .tick) :
    ∃ t, exec i s = .next t ∧ s.clearsNoEventFlag t := by
  cases i with
  | tick => exact absurd rfl hi
  | wrg reg => exact ⟨_, rfl, writeG_clearsNoEventFlag s s.wdata reg⟩
  | usc => exact ⟨_, rfl, id, fun _ => rfl⟩
  | nop | reset | bank | rdg | wus | fold1 | fold2 | fold6 | fanin2 | fanin3 | fanin6 => exact ⟨_, rfl, id, id⟩
  | wrc ch | rdc ch | rob ch =>
    simp only [exec, execWrc, execRdc, execRob]
    cases chanOf ch <;> exact ⟨_, rfl, id, id⟩
  | win | rout =>
    simp only [exec, execWin, execRout]
    split <;> exact ⟨_, rfl, id, id⟩
  | filt2p ch | filt1p ch | filtbl ch =>
    simp only [exec, execFilt2p, execFilt1p, execFiltbl]
    cases chanOf ch with
    | none => exact ⟨s, rfl, .refl s⟩
    | some c => exact ⟨_, rfl, (filterFrame_of c s ..).clearsNoEventFlag⟩

/-- Settles O25: a fired tick ends with the compositor's clear, any other only accumulates and drains, and no other
instruction clears a flag. -/
theorem eventFlagsPendUntilABlock : Obligations.EventFlagsPendUntilABlock := by
  unfold Obligations.EventFlagsPendUntilABlock
  refine ⟨fun s => ⟨tick s, rfl, tick_clears_eventFlags, tick_keeps_eventFlags⟩, fun i s t hi ht => ?other⟩
  case other =>
    obtain ⟨u, hu, hflags⟩ := exec_clearsNoEventFlag s hi
    obtain rfl := Host.Outcome.next.inj (hu.symm.trans ht)
    exact hflags

end Sys2Proof.Machine
end

section
/-! SUPPORT. A block as two states alike to a channel give it: the channels do not interact (44_compositor.md R175,
10_state.md R28). -/

namespace Sys2Proof.Machine

section BlockStart

variable {s t : State} {ch : Fin NC}

/-- The overlay activated in states alike to a channel: the flag and both buffers are in what it sees. -/
theorem State.alike.activateOverlay (h : s.alike t ch) : (activateOverlay s).alike (activateOverlay t) ch := by
  obtain ⟨halg, hglide, hfscale, halgChanged, huscale, hstage, hactive, hparams, hdraws⟩ := h.global
  have hover : (Machine.activateOverlay t).usActive = (Machine.activateOverlay s).usActive := by
    rw [activateOverlay_usActive, activateOverlay_usActive, huscale, hstage, hactive]
  rw [activateOverlay_frame s, activateOverlay_frame t]
  exact { h with global := ⟨halg, hglide, hfscale, halgChanged, huscale, hstage, hover, hparams, hdraws⟩ }

/-- The loop body of block start for `ch` itself, on states alike to it: both clear the slice or neither does. -/
theorem State.alike.blkStartChan (h : s.alike t ch) (hs : s.Canonical) (ht : t.Canonical) :
    (blkStartChan s ch).alike (blkStartChan t ch) ch := by
  unfold Machine.blkStartChan
  rw [h.mustClear_eq]
  split
  · refine { h with prevbank := ?prevbank, history := fun k hlo hhi => ?history }
    case prevbank => rw [look_upd_same, look_upd_same, h.bankNow_eq]
    case history =>
      have hk : inSlice s.P ch k := ⟨hlo, hhi⟩
      have hk' : inSlice t.P ch k := by rwa [h.P_eq]
      simp only [read_clearSlice_inSlice hs.1 hk, read_clearSlice_inSlice hs.2 hk, read_clearSlice_inSlice ht.1 hk',
        read_clearSlice_inSlice ht.2 hk', and_self]
  · exact h

/-- Block start on states alike to a channel. -/
theorem State.alike.blkStart (h : s.alike t ch) (hs : s.Canonical) (ht : t.Canonical) :
    (blkStart s).alike (blkStart t) ch := by
  obtain ⟨-, u, hu, hsu, hend⟩ := blkStart_alike ch hs
  obtain ⟨-, v, hv, htv, hend'⟩ := blkStart_alike ch ht
  have huv : u.alike v ch := hsu.symm.trans (h.activateOverlay.trans htv)
  exact hend.symm.trans ((huv.blkStartChan hu hv).trans hend')

end BlockStart

theorem engine_P (s : State) : (engine s).P = s.P :=
  congrArg ParamSet.params (params_eq_of_controlPart (engine_controlPart s))

/-- Settles O32: block start, the six resonator operations and the compositor each keep two states alike to a channel
alike to it. -/
theorem channelsDoNotInteract : Obligations.ChannelsDoNotInteract := by
  unfold Obligations.ChannelsDoNotInteract
  intro s t ch hsa hsb hta htb h
  obtain ⟨hview, hout⟩ := engine_alike ⟨hsa, hsb⟩ ⟨hta, htb⟩ (h.blkStart ⟨hsa, hsb⟩ ⟨hta, htb⟩)
  obtain ⟨henv, hpitch, hlevel⟩ := hview.outputs
  refine ⟨hout, henv, fun _ => hpitch, hlevel, hview.prevbank, ?history⟩
  case history => simpa only [engine_P] using hview.history

end Sys2Proof.Machine
end

section
/-! SUPPORT. The compositor sample by sample (44_compositor.md R170 to R175). -/

namespace Sys2Proof.Machine

/-! ## What the compositor writes (R175) -/

theorem compose_out (s : State) (ch : Fin NC) : look (compose s).out ch = scaledOut s ch := look_perCh _ ch

theorem compose_env (s : State) (ch : Fin NC) : look (compose s).env ch = envOf s ch := look_perCh _ ch

theorem compose_chlevel (s : State) (ch : Fin NC) : look (compose s).chlevel ch = chlevelOf s ch := look_perCh _ ch

/-! ## The blend and what is computed from it (R170 to R173) -/

/-- Sample `i` of `BL[ch]`, by the morph gate. -/
theorem getElem?_blended {s : State} {ch : Fin NC} {i : Nat} {yp yt : F} (hyp : (look s.blk.yp ch)[i]? = some yp)
    (hyt : morphOn (look s.chan ch) = true → (look s.blk.yt ch)[i]? = some yt) :
    (blended s ch)[i]? =
      some (if morphOn (look s.chan ch) = true then blendSample s.P.dom (look s.chan ch).morph yp yt else yp) := by
  simp only [blended]
  split
  · next hmorph => exact List.getElem?_zipWith_eq_some.2 ⟨yp, yt, hyp, hyt hmorph, rfl⟩
  · exact hyp

theorem getElem?_scaledOut {s : State} {ch : Fin NC} {i : Nat} {bl : F} (h : (blended s ch)[i]? = some bl) :
    (scaledOut s ch)[i]? = some (s.P.dom.mul bl (look s.chan ch).level) := by
  rw [scaledOut, List.getElem?_map, h]
  rfl

/-- `ENV` and `CHLEVEL` are taken from the blend's first sample. -/
theorem envOf_chlevelOf_of_first {s : State} {ch : Fin NC} {bl : F} (h : (blended s ch)[0]? = some bl) :
    envOf s ch = F.abs bl ∧ chlevelOf s ch = s.P.dom.div (F.abs bl) s.P.clipLevel := by
  obtain ⟨rest, hblend⟩ := List.head?_eq_some_iff.1 (List.head?_eq_getElem? ▸ h)
  simp only [envOf, chlevelOf, hblend, and_self]

/-- Settles O33: the frame by the compositor's definition, and each output from the blended sample. -/
theorem composeBlendsAndScales : Obligations.ComposeBlendsAndScales := by
  unfold Obligations.ComposeBlendsAndScales
  intro s t
  refine ⟨rfl, fun ch i yp yt hyp hyt => ?_⟩
  have hbl := getElem?_blended hyp hyt
  refine ⟨?out, fun hi => ?first⟩
  case out =>
    rw [compose_out]
    exact getElem?_scaledOut hbl
  case first =>
    subst hi
    rw [compose_env, compose_chlevel]
    exact envOf_chlevelOf_of_first hbl

end Sys2Proof.Machine
end

section
/-! SUPPORT. The phases of a tick stream by stream (45_io_pipeline.md R181 to R192): what each writes for an active and
for an inactive stream. -/

namespace Sys2Proof.Machine

/-! ## Stream counts (R181) -/

section Streams

variable {s : State} {i : Fin NC}

theorem activeIn_of_lt (h : i.val < ninOf s.inch) : activeIn s i = true := decide_eq_true h
theorem activeIn_of_ge (h : ninOf s.inch ≤ i.val) : activeIn s i = false := decide_eq_false (Nat.not_lt.2 h)
theorem activeOut_of_lt (h : i.val < noutOf s.outmode) : activeOut s i = true := decide_eq_true h
theorem activeOut_of_ge (h : noutOf s.outmode ≤ i.val) : activeOut s i = false := decide_eq_false (Nat.not_lt.2 h)

end Streams

/-! ## The input side (R182, R183) -/

theorem push_of_room {cap : Nat} {ring : List F} (v : F) (h : ring.length < cap) : push cap ring v = ring ++ [v] :=
  if_pos h

theorem push_of_full {cap : Nat} {ring : List F} (v : F) (h : cap ≤ ring.length) : push cap ring v = ring :=
  if_neg (Nat.not_lt.2 h)

section Lanes

variable (P : Params) {inch : Word} (i : Nat)

theorem laneOf_of_zero (h : inch.toNat = 0) : laneOf P inch i = 16 + i := if_pos h

theorem laneOf_of_one (h : inch.toNat = 1) : laneOf P inch i = 0 := by simp [laneOf, h]

theorem laneOf_of_dup (h : inch.toNat = 2 ∨ inch.toNat = 4 ∨ inch.toNat = 5) :
    laneOf P inch i = P.dup inch.toNat i := by
  rw [laneOf, if_neg (by omega), if_neg (by omega), if_pos h]

theorem laneOf_of_direct (h : inch.toNat = 3 ∨ 6 ≤ inch.toNat) : laneOf P inch i = i := by
  rw [laneOf, if_neg (by omega), if_neg (by omega), if_neg (by omega)]

end Lanes

theorem inSample_of_laneOf {s : State} {i : Fin NC} {k : Fin 18} (h : laneOf s.P s.inch i.val = k.val) :
    inSample s i = look s.inlane k := by
  rw [inSample, h, lane_of_lt s k.isLt]

section Accumulate

variable {s : State} {i : Fin NC}

theorem accumulate_inbuf (s : State) (i : Fin NC) : look (accumulate s).inbuf i =
    if activeIn s i then push s.P.inCap (look s.inbuf i) (inSample s i) else look s.inbuf i := look_perCh ..

theorem accumulate_indrop (s : State) (i : Fin NC) : look (accumulate s).indrop i =
    (activeIn s i && decide (s.P.inCap ≤ (look s.inbuf i).length)) := look_perCh ..

theorem accumulate_of_room (h : i.val < ninOf s.inch) (hroom : (look s.inbuf i).length < s.P.inCap) :
    look (accumulate s).inbuf i = look s.inbuf i ++ [inSample s i] ∧ look (accumulate s).indrop i = false := by
  rw [accumulate_inbuf, accumulate_indrop, activeIn_of_lt h, decide_eq_false (Nat.not_le.2 hroom)]
  exact ⟨push_of_room _ hroom, rfl⟩

theorem accumulate_of_full (h : i.val < ninOf s.inch) (hfull : s.P.inCap ≤ (look s.inbuf i).length) :
    look (accumulate s).inbuf i = look s.inbuf i ∧ look (accumulate s).indrop i = true := by
  rw [accumulate_inbuf, accumulate_indrop, activeIn_of_lt h, decide_eq_true hfull]
  exact ⟨push_of_full _ hfull, rfl⟩

theorem accumulate_of_inactive (h : ninOf s.inch ≤ i.val) :
    look (accumulate s).inbuf i = look s.inbuf i ∧ look (accumulate s).indrop i = false := by
  rw [accumulate_inbuf, accumulate_indrop, activeIn_of_ge h]
  exact ⟨rfl, rfl⟩

end Accumulate

/-- Settles O40: the sample is `InSample`, whose lane `INCH` picks, and the ring has room, is full or is inactive. -/
theorem accumulatePushesOneSample : Obligations.AccumulatePushesOneSample := by
  unfold Obligations.AccumulatePushesOneSample
  intro s t n
  refine ⟨rfl, fun i => ⟨inSample s i, fun hn k hk _ => ?usb, fun hn => ?one, fun hn k hk => ?dup, fun hn k hk => ?direct,
    accumulate_of_room, accumulate_of_full, accumulate_of_inactive⟩⟩
  case usb => exact inSample_of_laneOf ((laneOf_of_zero s.P i.val hn).trans hk.symm)
  case one => exact inSample_of_laneOf (laneOf_of_one s.P i.val hn)
  case dup => exact inSample_of_laneOf ((laneOf_of_dup s.P i.val hn).trans hk.symm)
  case direct => exact inSample_of_laneOf ((laneOf_of_direct s.P i.val hn).trans hk.symm)

/-! ## The fire test (R185) -/

theorem fireTest_iff (s : State) : fireTest s = true ↔ s.hostrate.toNat ≠ 0 ∧
    (∀ i : Fin NC, i.val < ninOf s.inch → needOf s i ≤ (look s.inbuf i).length) ∧
    (∀ i : Fin NC, i.val < noutOf s.outmode → (look s.outbuf i).length + yieldOf s i ≤ s.P.outCap) := by
  simp only [fireTest, activeIn, activeOut, Bool.and_eq_true, all_channels, Bool.or_eq_true, Bool.not_eq_true',
    decide_eq_true_eq, decide_eq_false_iff_not, ← imp_iff_not_or, and_assoc]

theorem hostrate_ne_zero_iff (s : State) : s.hostrate ≠ 0 ↔ s.hostrate.toNat ≠ 0 := by bv_omega

/-- Settles O41: the test's three parts, the room as a difference. -/
theorem fireTestRule : Obligations.FireTestRule := by
  unfold Obligations.FireTestRule
  intro s
  rw [fireTest_iff, hostrate_ne_zero_iff]
  refine and_congr_right fun _ => and_congr_right fun _ => forall_congr' fun i => forall_congr' fun _ => ?_
  show _ + yieldOf s i ≤ _ ↔ (yieldOf s i : Int) ≤ _
  omega

/-! ## The resampling phases (R186, R191) -/

section Resampling

variable {s : State} {i : Fin NC}

theorem resampleIn_insrc (s : State) (i : Fin NC) :
    look (resampleIn s).insrc i = if activeIn s i then (inRun s i).st else look s.insrc i := look_perCh ..

theorem resampleIn_inbuf (s : State) (i : Fin NC) : look (resampleIn s).inbuf i =
    if activeIn s i then (look s.inbuf i).drop (inRun s i).consumed else look s.inbuf i := look_perCh ..

theorem resampleIn_rs (s : State) (i : Fin NC) :
    look (resampleIn s).blk.rs i = if activeIn s i then (inRun s i).ys else look s.blk.rs i := look_perCh ..

theorem resampleIn_of_active (h : i.val < ninOf s.inch) :
    look (resampleIn s).insrc i = (inRun s i).st ∧ look (resampleIn s).blk.rs i = (inRun s i).ys ∧
      look (resampleIn s).inbuf i = (look s.inbuf i).drop (inRun s i).consumed := by
  rw [resampleIn_insrc, resampleIn_rs, resampleIn_inbuf, activeIn_of_lt h]
  exact ⟨rfl, rfl, rfl⟩

theorem resampleIn_of_inactive (h : ninOf s.inch ≤ i.val) :
    look (resampleIn s).insrc i = look s.insrc i ∧ look (resampleIn s).blk.rs i = look s.blk.rs i ∧
      look (resampleIn s).inbuf i = look s.inbuf i := by
  rw [resampleIn_insrc, resampleIn_rs, resampleIn_inbuf, activeIn_of_ge h]
  exact ⟨rfl, rfl, rfl⟩

theorem resampleOut_outsrc (s : State) (i : Fin NC) :
    look (resampleOut s).outsrc i = if activeOut s i then (outRun s i).st else look s.outsrc i := look_perCh ..

theorem resampleOut_outbuf (s : State) (i : Fin NC) : look (resampleOut s).outbuf i =
    if activeOut s i then pushAll s.P.outCap (look s.outbuf i) (outRun s i).ys else look s.outbuf i := look_perCh ..

theorem resampleOut_of_active (h : i.val < noutOf s.outmode) : look (resampleOut s).outsrc i = (outRun s i).st ∧
    ((look s.outbuf i).length + (outRun s i).ys.length ≤ s.P.outCap →
      look (resampleOut s).outbuf i = look s.outbuf i ++ (outRun s i).ys) := by
  rw [resampleOut_outsrc, resampleOut_outbuf, activeOut_of_lt h]
  exact ⟨rfl, pushAll_eq _⟩

theorem resampleOut_of_inactive (h : noutOf s.outmode ≤ i.val) :
    look (resampleOut s).outsrc i = look s.outsrc i ∧ look (resampleOut s).outbuf i = look s.outbuf i := by
  rw [resampleOut_outsrc, resampleOut_outbuf, activeOut_of_ge h]
  exact ⟨rfl, rfl⟩

end Resampling

/-- Settles O42: both phases by whether the stream is active. -/
theorem resamplingPhases : Obligations.ResamplingPhases := by
  unfold Obligations.ResamplingPhases
  exact ⟨fun _ => ⟨rfl, fun _ => ⟨resampleIn_of_active, resampleIn_of_inactive⟩⟩,
    fun _ => ⟨rfl, fun _ => ⟨resampleOut_of_active, resampleOut_of_inactive⟩⟩⟩

/-! ## The drain (R192) -/

section Drain

variable {s : State} {i : Fin NC}

theorem drain_outbuf (s : State) (i : Fin NC) : look (drain s).outbuf i =
    if activeOut s i then (look s.outbuf i).tail else look s.outbuf i := look_perCh ..

theorem drain_outvalid (s : State) (i : Fin NC) :
    look (drain s).outvalid i = (activeOut s i && !(look s.outbuf i).isEmpty) := look_perCh ..

theorem drain_outlane_of_frame {v : F} {rest : List F} (h : activeOut s i = true) (hring : look s.outbuf i = v :: rest) :
    look (drain s).outlane i = s.P.dom.mul v s.P.outScale := by
  simp only [drain, look_perCh, h, hring]

theorem drain_outlane_of_inactive (h : activeOut s i = false) : look (drain s).outlane i = look s.outlane i := by
  simp only [drain, look_perCh, h]

theorem drain_outlane_of_empty (hring : look s.outbuf i = []) : look (drain s).outlane i = look s.outlane i := by
  simp only [drain, look_perCh, hring]
  cases activeOut s i <;> rfl

theorem drain_of_frame (h : i.val < noutOf s.outmode) (v : F) (rest : List F) (hring : look s.outbuf i = v :: rest) :
    look (drain s).outbuf i = rest ∧ look (drain s).outvalid i = true ∧
      look (drain s).outlane i = s.P.dom.mul v s.P.outScale := by
  refine ⟨?_, ?_, drain_outlane_of_frame (activeOut_of_lt h) hring⟩
  · rw [drain_outbuf, activeOut_of_lt h, hring]; rfl
  · rw [drain_outvalid, activeOut_of_lt h, hring]; rfl

theorem drain_of_inactive (h : noutOf s.outmode ≤ i.val) : look (drain s).outbuf i = look s.outbuf i ∧
    look (drain s).outvalid i = false ∧ look (drain s).outlane i = look s.outlane i := by
  refine ⟨?_, ?_, drain_outlane_of_inactive (activeOut_of_ge h)⟩
  · rw [drain_outbuf, activeOut_of_ge h]; rfl
  · rw [drain_outvalid, activeOut_of_ge h]; rfl

theorem drain_of_empty (hring : look s.outbuf i = []) : look (drain s).outbuf i = look s.outbuf i ∧
    look (drain s).outvalid i = false ∧ look (drain s).outlane i = look s.outlane i := by
  refine ⟨?_, ?_, drain_outlane_of_empty hring⟩
  · rw [drain_outbuf, hring, List.tail_nil, ite_self]
  · rw [drain_outvalid, hring, List.isEmpty_nil, Bool.not_true, Bool.and_false]

/-- With no frame to deliver, for either reason, the ring and the lane stay. -/
theorem drain_of_no_frame (h : noutOf s.outmode ≤ i.val ∨ look s.outbuf i = []) :
    look (drain s).outbuf i = look s.outbuf i ∧ look (drain s).outvalid i = false ∧
      look (drain s).outlane i = look s.outlane i := h.elim drain_of_inactive drain_of_empty

end Drain

/-- Settles O49: a stream has a frame to deliver or it has not. -/
theorem drainDeliversOneFrame : Obligations.DrainDeliversOneFrame := by
  unfold Obligations.DrainDeliversOneFrame
  exact fun _ => ⟨rfl, fun _ => ⟨drain_of_frame, drain_of_no_frame⟩⟩

/-! ## The phases in order (R180) -/

/-- Settles O35: the phases are the definition of a tick by its fire test, with the buffers left empty. -/
theorem tickRunsPhasesInOrder : Obligations.TickRunsPhasesInOrder := by
  unfold Obligations.TickRunsPhasesInOrder
  exact ⟨fun s => ⟨Block.empty, rfl⟩, fun s => by rw [engine, channels_eq], fun w hop => by simp only [decodeCmd, hop]⟩

/-- A tick is its drain, with the `STATUS` it leaves as the result word. -/
theorem tick_eq_drain (s : State) : tick s = (drain (process s)).ret (statusWord (tick s)) := by
  rw [← tick_rdata]; rfl

/-- Settles O36: without a block a tick is the input side and the drain. -/
theorem tickWithoutBlock : Obligations.TickWithoutBlock := by
  unfold Obligations.TickWithoutBlock
  intro s hfire
  have htick := tick_eq_drain s
  rw [process_of_not_fire hfire] at htick
  refine ⟨tick s, rfl, ?frame, fun i => ?streams⟩
  case frame =>
    generalize statusWord (tick s) = status at htick ⊢
    rw [htick]; rfl
  case streams =>
    rw [htick]
    exact ⟨accumulate_of_room, accumulate_of_full, accumulate_of_inactive, drain_of_frame, drain_of_no_frame⟩

end Sys2Proof.Machine
end

section
/-! SUPPORT. The quantizer (45_io_pipeline.md R187; 60_exceptions.md R241): its result by where the scaled sample lies,
and that it never leaves `QMIN..QMAX`. -/

namespace Sys2Proof

/-- Truncation stays between two integers a value is between. -/
theorem F.trunc_mem_Icc {a : F} {lo hi : Int} (hlo : (lo : Rat) < F.val a) (hhi : F.val a < hi) :
    lo ≤ F.trunc a ∧ F.trunc a ≤ hi := by
  rw [F.trunc_eq]
  split
  · exact ⟨Rat.le_floor_iff.2 hlo.le, by exact_mod_cast ((Rat.floor_le _).trans hhi.le)⟩
  · exact ⟨by exact_mod_cast (hlo.le.trans Rat.le_ceil), Rat.ceil_le_iff.2 hhi.le⟩

namespace Machine

theorem clampi_mem_Icc (v : Int) {lo hi : Int} (h : lo ≤ hi) : lo ≤ clampi v lo hi ∧ clampi v lo hi ≤ hi := by
  unfold clampi
  split_ifs <;> omega

/-! ## A finite product and finite bounds -/

section Finite

variable {P : Params} {v p : F}

theorem quantScaled_of_high (hp : F.finite p = true) (hhi : F.finite (P.dom.itof P.qmax) = true)
    (h : F.val (P.dom.itof P.qmax) ≤ F.val p) : quantScaled P v p = P.qmax := by
  rw [quantScaled, if_pos hp, if_pos ((F.ge_iff hp hhi).2 h)]

theorem quantScaled_of_low (hp : F.finite p = true) (hhi : F.finite (P.dom.itof P.qmax) = true)
    (hlo : F.finite (P.dom.itof P.qmin) = true) (h : F.val p < F.val (P.dom.itof P.qmax))
    (h' : F.val p ≤ F.val (P.dom.itof P.qmin)) : quantScaled P v p = P.qmin := by
  rw [quantScaled, if_pos hp, if_neg ((F.ge_iff hp hhi).not.2 h.not_ge), if_pos ((F.ge_iff hlo hp).2 h')]

theorem quantScaled_of_between (hp : F.finite p = true) (hhi : F.finite (P.dom.itof P.qmax) = true)
    (hlo : F.finite (P.dom.itof P.qmin) = true) (h : F.val p < F.val (P.dom.itof P.qmax))
    (h' : F.val (P.dom.itof P.qmin) < F.val p) : quantScaled P v p = F.trunc p := by
  rw [quantScaled, if_pos hp, if_neg ((F.ge_iff hp hhi).not.2 h.not_ge), if_neg ((F.ge_iff hlo hp).not.2 h'.not_ge)]

end Finite

/-! ## An infinite or an open product (R241) -/

section NotFinite

variable (P : Params) {v : F}

theorem quantScaled_posInf (hv : F.finite v = false) : quantScaled P v F.posInf = P.qmax := by
  rw [quantScaled, if_neg (by decide), if_pos (by rw [hv]; rfl)]

theorem quantScaled_negInf (hv : F.finite v = false) : quantScaled P v F.negInf = P.qmin := by
  rw [quantScaled, if_neg (by decide), if_neg (by rw [hv]; decide), if_pos (by rw [hv]; rfl)]

/-- An infinite sample is quantized to the bound of its own sign, the bounds exchanged by a negative scale. -/
theorem quant_infinite_of_pos (hfin : F.finite P.inScale = true) (h : 0 < F.val P.inScale) :
    quant P F.posInf = P.qmax ∧ quant P F.negInf = P.qmin := by
  have hmag : F.mag P.inScale ≠ 0 := (F.val_eq_zero_iff _).not.1 h.ne'
  have hneg : F.neg P.inScale = false := (F.neg_eq h.ne').trans (decide_eq_false h.not_gt)
  rw [quant, quant, P.dom.mulExt_posInf hfin hmag, P.dom.mulExt_negInf hfin hmag, hneg]
  exact ⟨quantScaled_posInf P (by decide), quantScaled_negInf P (by decide)⟩

theorem quant_infinite_of_neg (hfin : F.finite P.inScale = true) (h : F.val P.inScale < 0) :
    quant P F.posInf = P.qmin ∧ quant P F.negInf = P.qmax := by
  have hmag : F.mag P.inScale ≠ 0 := (F.val_eq_zero_iff _).not.1 h.ne
  have hneg : F.neg P.inScale = true := (F.neg_eq h.ne).trans (decide_eq_true h)
  rw [quant, quant, P.dom.mulExt_posInf hfin hmag, P.dom.mulExt_negInf hfin hmag, hneg]
  exact ⟨quantScaled_negInf P (by decide), quantScaled_posInf P (by decide)⟩

/-- Without a finite product the result is a bound, or is clamped to the bounds. -/
theorem quantScaled_mem_Icc_of_not_finite {P : Params} {p : F} (hq : P.qmin ≤ P.qmax) (hp : F.finite p = false) :
    P.qmin ≤ quantScaled P v p ∧ quantScaled P v p ≤ P.qmax := by
  rw [quantScaled, hp, if_neg Bool.false_ne_true]
  split_ifs
  · exact ⟨hq, le_rfl⟩
  · exact ⟨le_rfl, hq⟩
  · exact clampi_mem_Icc _ hq

end NotFinite

/-! ## The phase -/

theorem quantStream_length (P : Params) (rs : List F) : (quantStream P rs).length = P.block := by
  rw [quantStream, List.length_map, List.length_range]

theorem getElem?_quantStream {P : Params} {rs : List F} {j : Nat} {v : F} (hj : j < P.block) (hv : rs[j]? = some v) :
    (quantStream P rs)[j]? = some (quant P v) := by
  simp only [quantStream, List.getElem?_map, List.getElem?_range hj, Option.map_some, List.getD_eq_getElem?_getD, hv,
    Option.getD_some]

theorem quantize_xq (s : State) (i : Fin NC) : look (quantize s).blk.xq i =
    if activeIn s i then quantStream s.P (look s.blk.rs i) else look s.blk.xq i := look_perCh ..

theorem quantize_xq_of_active {s : State} {i : Fin NC} (h : i.val < ninOf s.inch) :
    look (quantize s).blk.xq i = quantStream s.P (look s.blk.rs i) := by
  rw [quantize_xq, activeIn_of_lt h]; rfl

/-- Settles O43: a finite product by where it lies between the bounds, an infinity by the sign of the scale, and the
phase sample by sample. -/
theorem quantizerRule : Obligations.QuantizerRule := by
  unfold Obligations.QuantizerRule
  refine ⟨?finite,
    fun P hscale => ⟨quant_infinite_of_pos P hscale, quant_infinite_of_neg P hscale⟩,
    fun s => ⟨rfl, fun i j v hi hj hv => ?phase⟩⟩
  case finite =>
    intro P v p hi lo hv hscale hp hhi hlo
    rw [quant, P.dom.mulExt_of_finite hv hscale, ← F.trunc_eq]
    exact ⟨quantScaled_of_high hp hhi, quantScaled_of_low hp hhi hlo, quantScaled_of_between hp hhi hlo⟩
  case phase =>
    rw [quantize_xq_of_active hi]
    exact getElem?_quantStream hj hv

/-- Settles O44: the bounds convert exactly, and a product strictly between them is truncated to between them. -/
theorem quantizedSamplesStayInRange : Obligations.QuantizedSamplesStayInRange := by
  unfold Obligations.QuantizedSamplesStayInRange
  intro P v hq hmin hmax
  obtain ⟨hlo, elo⟩ := F.itof_exact P.dom hmin
  obtain ⟨hhi, ehi⟩ := F.itof_exact P.dom hmax
  rw [quant]
  generalize P.dom.mulExt v P.inScale = p
  cases hp : F.finite p
  case false => exact quantScaled_mem_Icc_of_not_finite hq hp
  case true =>
    rcases le_or_gt (F.val (P.dom.itof P.qmax)) (F.val p) with h | h
    · rw [quantScaled_of_high hp hhi h]; exact ⟨hq, le_rfl⟩
    · rcases le_or_gt (F.val p) (F.val (P.dom.itof P.qmin)) with h' | h'
      · rw [quantScaled_of_low hp hhi hlo h h']; exact ⟨le_rfl, hq⟩
      · rw [quantScaled_of_between hp hhi hlo h h']
        exact F.trunc_mem_Icc (elo ▸ h') (ehi ▸ h)

end Machine

end Sys2Proof
end

section
/-! SUPPORT. The fan-in and the fold operations (45_io_pipeline.md R188, R190, R196), and the lane and block-output
commands (R184, R193, R194). -/

namespace Sys2Proof.Machine

/-! ## Fan-in (R188) -/

/-- The quantized stream that feeds a channel in the fan-in `INCH` selects. -/
def fanInSource (s : State) (ch : Fin NC) : Fin NC :=
  match fanInOf s.inch with
  | .two   => ⟨ch.val % 2, by have := NC_eq; omega⟩
  | .three => ⟨(s.P.fanin3 ch).val, by have := NC_eq; omega⟩
  | .six   => ch

theorem fanin2_xin (s : State) (ch : Fin NC) :
    look (fanin2 s).blk.xin ch = look s.blk.xq ⟨ch.val % 2, by have := NC_eq; omega⟩ := look_perCh ..

theorem fanin3_xin (s : State) (ch : Fin NC) :
    look (fanin3 s).blk.xin ch = look s.blk.xq ⟨(s.P.fanin3 ch).val, by have := NC_eq; omega⟩ := look_perCh ..

theorem fanin6_xin (s : State) (ch : Fin NC) : look (fanin6 s).blk.xin ch = look s.blk.xq ch := look_perCh ..

theorem fanIn_xin (s : State) (ch : Fin NC) : look (fanIn s).blk.xin ch = look s.blk.xq (fanInSource s ch) := by
  unfold fanIn fanInSource
  cases fanInOf s.inch
  · exact fanin2_xin s ch
  · exact fanin3_xin s ch
  · exact fanin6_xin s ch

/-- Every channel is fed by an active stream (R181). -/
theorem fanInSource_lt (s : State) (ch : Fin NC) : (fanInSource s ch).val < ninOf s.inch := by
  unfold fanInSource ninOf
  cases fanInOf s.inch
  · exact Nat.mod_lt _ (by decide)
  · exact (s.P.fanin3 ch).isLt
  · exact ch.isLt

/-- Settles O45: each fan-in channel by channel. -/
theorem fanInOperations : Obligations.FanInOperations := by
  unfold Obligations.FanInOperations
  refine ⟨fun s => ⟨fanin2 s, rfl, rfl, fanin2_xin s 0, fanin2_xin s 1, fanin2_xin s 2, fanin2_xin s 3, fanin2_xin s 4,
    fanin2_xin s 5⟩, fun s => ⟨fanin3 s, rfl, rfl, fun ch i hi => ?three⟩,
    fun s => ⟨fanin6 s, rfl, rfl, fanin6_xin s⟩, fun _ => rfl⟩
  case three =>
    rw [fanin3_xin]
    exact congrArg (look s.blk.xq) (Fin.ext hi.symm)

/-! ## Folds (R190) -/

/-- The six channels' samples at one position, added in ascending order from 0.0. -/
def sixSum (D : Domain) (x : Fin NC → F) : F :=
  D.add (D.add (D.add (D.add (D.add (D.add Const.zero (x 0)) (x 1)) (x 2)) (x 3)) (x 4)) (x 5)

theorem sumAt_eq {s : State} {x : Fin NC → F} {i : Nat} (h : ∀ ch, (look s.out ch)[i]? = some (x ch)) :
    sumAt s i = sixSum s.P.dom x := by
  simp only [sumAt, channels_eq, List.getD_eq_getElem?_getD, h, Option.getD_some]
  rfl

theorem fold1_stream (s : State) : look (fold1 s).blk.fold 0 = (List.range s.P.block).map (sumAt s) := look_perCh ..

theorem fold1_length (s : State) : (look (fold1 s).blk.fold 0).length = s.P.block := by
  rw [fold1_stream, List.length_map, List.length_range]

theorem getElem?_fold1 (s : State) {i : Nat} (hi : i < s.P.block) :
    (look (fold1 s).blk.fold 0)[i]? = some (sumAt s i) := by
  simp only [fold1_stream, List.getElem?_map, List.getElem?_range hi, Option.map_some]

theorem fold1_other (s : State) {k : Fin NC} (hk : 1 ≤ k.val) : look (fold1 s).blk.fold k = look s.blk.fold k :=
  (look_perCh ..).trans (if_neg (by omega))

theorem parityStream_length (s : State) (parity : Nat) : (parityStream s parity).length = s.P.block := by
  rw [parityStream, List.length_map, List.length_range]

theorem getElem?_parityStream (s : State) (parity : Nat) {i : Nat} (hi : i < s.P.block) :
    (parityStream s parity)[i]? = some (if i % 2 = parity then sumAt s i else Const.zero) := by
  simp only [parityStream, List.getElem?_map, List.getElem?_range hi, Option.map_some]

theorem fold2_stream (s : State) {k : Fin NC} (hk : k.val < 2) : look (fold2 s).blk.fold k = parityStream s k.val :=
  (look_perCh ..).trans (if_pos hk)

theorem fold2_other (s : State) {k : Fin NC} (hk : 2 ≤ k.val) : look (fold2 s).blk.fold k = look s.blk.fold k :=
  (look_perCh ..).trans (if_neg (by omega))

theorem fold6_stream (s : State) (k : Fin NC) : look (fold6 s).blk.fold k = look s.out k := look_perCh ..

/-- Settles O46: each fold stream by stream, and the sum of a full block output. -/
theorem foldOperations : Obligations.FoldOperations := by
  unfold Obligations.FoldOperations
  intro s o ho D sum only
  have hsum {i : Nat} (hi : i < s.P.block) : sumAt s i = sum i :=
    sumAt_eq (x := (o · i)) fun ch => ho ch i hi
  refine ⟨⟨fold1 s, rfl, rfl, fun k hk => fold1_other s hk, fold1_length s, fun i hi => ?one⟩,
    ⟨fold2 s, rfl, rfl, fun k hk => fold2_other s hk, ?even, ?odd, fun i hi => ?two⟩,
    ⟨fold6 s, rfl, rfl, fold6_stream s⟩⟩
  case one => rw [getElem?_fold1 s hi, hsum hi]
  case even | odd => rw [fold2_stream s (by decide), parityStream_length]
  case two =>
    rw [fold2_stream s (by decide), fold2_stream s (by decide), ← hsum hi]
    exact ⟨getElem?_parityStream s 0 hi, getElem?_parityStream s 1 hi⟩

/-! ## The two modes (R196 (b)) -/

/-- At each position one of `FOLD2`'s streams is 0.0 and the other is `FOLD1`'s. -/
theorem getElem?_fold2 (s : State) {i : Nat} (hi : i < s.P.block) : ∃ a b : F,
    (look (fold2 s).blk.fold 0)[i]? = some a ∧ (look (fold2 s).blk.fold 1)[i]? = some b ∧
      ((a = Const.zero ∧ b = sumAt s i) ∨ (a = sumAt s i ∧ b = Const.zero)) := by
  refine ⟨if i % 2 = 0 then sumAt s i else Const.zero, if i % 2 = 1 then sumAt s i else Const.zero, ?_, ?_, ?_⟩
  · rw [fold2_stream s (by decide)]; exact getElem?_parityStream s 0 hi
  · rw [fold2_stream s (by decide)]; exact getElem?_parityStream s 1 hi
  · rcases Nat.mod_two_eq_zero_or_one i with h | h <;> simp [h]

/-- 0.0 added on either side changes no finite value, where exact results are given (R10). -/
theorem val_add_of_disjoint {D : Domain} (hD : D.Exact) {a b m : F} (hm : F.finite m = true)
    (h : (a = Const.zero ∧ b = m) ∨ (a = m ∧ b = Const.zero)) : F.val (D.add a b) = F.val m := by
  rcases h with ⟨rfl, rfl⟩ | ⟨rfl, rfl⟩
  · exact (hD.add_eq F.isZero_zero.finite hm hm (by rw [F.isZero_zero.val_eq, zero_add])).2
  · exact (hD.add_eq hm F.isZero_zero.finite hm (by rw [F.isZero_zero.val_eq, add_zero])).2

/-- Settles O47: the streams are disjoint by parity, and 0.0 is neutral in the reference domain. -/
theorem modeTwoStreamsAreDisjoint : Obligations.ModeTwoStreamsAreDisjoint := by
  unfold Obligations.ModeTwoStreamsAreDisjoint
  intro s t u ht hu i hi
  obtain rfl : fold1 s = t := Host.Outcome.next.inj ht
  obtain rfl : fold2 s = u := Host.Outcome.next.inj hu
  obtain ⟨a, b, ha, hb, hdisj⟩ := getElem?_fold2 s hi
  refine ⟨sumAt s i, a, b, getElem?_fold1 s hi, ha, hb, hdisj, fun hdom hfin => ?_⟩
  exact val_add_of_disjoint (hdom ▸ Domain.binary32_exact) hfin hdisj

/-! ## Lanes and the block output (R184, R193, R194) -/

theorem exec_win (s : State) (k : Fin 18) :
    exec (.win k.val) s = .next { s with inlane := upd s.inlane k s.wdata, rdata := 0 } := dif_pos k.isLt

theorem exec_rout (s : State) (k : Fin NC) : exec (.rout k.val) s = .next (s.ret (look s.outlane k)) := dif_pos k.isLt

theorem exec_rob {s : State} {ch : Fin NC} {i : Nat} {v : F} (hi : i < s.P.block) (hv : (look s.out ch)[i]? = some v) :
    exec (.rob ch.val i) s = .next (s.ret v) := by
  simp only [exec, execRob, chanOf_val, if_pos hi, List.getD_eq_getElem?_getD, hv, Option.getD_some]

/-- Settles O19: each command inside its range, outside it, and its opcode. -/
theorem laneAndBlockOutputCommands : Obligations.LaneAndBlockOutputCommands := by
  unfold Obligations.LaneAndBlockOutputCommands
  refine ⟨exec_win, fun s _ => exec_win_outside s, exec_rout, fun s _ => exec_rout_outside s,
    fun s ch i v => exec_rob, fun s ch i hout => ?outside, fun w => ?opcodes⟩
  case outside =>
    rcases hout with hch | hi
    · exact (exec_of_noChannel s .note i hch).2.2
    · exact exec_rob_outside s ch hi
  case opcodes => refine ⟨?_, ?_, ?_⟩ <;> intro hop <;> simp only [decodeCmd, hop]

end Sys2Proof.Machine
end

section
/-! SUPPORT. What a block leaves alone, how many samples it gives, and what a tick comes to for the rings, the resamplers
and the banks (45_io_pipeline.md R180, R189, R196, R197; 10_state.md R29, R33). -/

namespace Sys2Proof.Machine

/-! ## Registers a tick reads and does not write -/

section Control

variable {s t : State} (h : t.controlPart = s.controlPart)
include h

theorem P_eq_of_controlPart : t.P = s.P := congrArg ParamSet.params (params_eq_of_controlPart h)
theorem hostrate_eq_of_controlPart : t.hostrate = s.hostrate := congrArg (·.2.2.2.2.1) h
theorem inch_eq_of_controlPart : t.inch = s.inch := congrArg (·.2.2.2.2.2.1) h
theorem outmode_eq_of_controlPart : t.outmode = s.outmode := congrArg (·.2.2.2.2.2.2.1) h

end Control

/-! ## The phases between the resamplers and the streams -/

/-- The rings, the resamplers and the output lanes, as one value. -/
def State.streamPart (s : State) := (s.inbuf, s.insrc, s.outbuf, s.outsrc, s.outlane)

@[simp] theorem setBlk_streamPart (s : State) (b : Block) : (s.setBlk b).streamPart = s.streamPart := rfl
@[simp] theorem quantize_streamPart (s : State) : (quantize s).streamPart = s.streamPart := rfl
@[simp] theorem clipTest_streamPart (s : State) : (clipTest s).streamPart = s.streamPart := rfl
@[simp] theorem compose_streamPart (s : State) : (compose s).streamPart = s.streamPart := rfl

@[simp] theorem fanIn_streamPart (s : State) : (fanIn s).streamPart = s.streamPart := by
  obtain ⟨b, h⟩ := fanIn_eq_setBlk s
  rw [h, setBlk_streamPart]

@[simp] theorem foldOut_streamPart (s : State) : (foldOut s).streamPart = s.streamPart := by
  obtain ⟨b, h⟩ := foldOut_eq_setBlk s
  rw [h, setBlk_streamPart]

@[simp] theorem blkStart_streamPart (s : State) : (blkStart s).streamPart = s.streamPart := by
  obtain ⟨a, b, p, u, h⟩ := blkStart_frame s
  rw [h]
  rfl

@[simp] theorem filter_streamPart (s : State) (ch : Fin NC) : (filter s ch).streamPart = s.streamPart :=
  (congrArg State.streamPart (filter_frame ch s).rest).trans rfl

@[simp] theorem filters_streamPart (s : State) (l : List (Fin NC)) : (l.foldl filter s).streamPart = s.streamPart := by
  induction l generalizing s with
  | nil => rfl
  | cons ch l ih => rw [List.foldl_cons, ih, filter_streamPart]

/-- The phases of a fired block between its resamplers. -/
def blockBody (s : State) : State := foldOut (engine (fanIn (quantize s)))

theorem firedBlock_eq (s : State) : firedBlock s = (resampleOut (blockBody (resampleIn s))).setBlk Block.empty := rfl

@[simp] theorem blockBody_streamPart (s : State) : (blockBody s).streamPart = s.streamPart := by
  simp [blockBody, engine]

@[simp] theorem blockBody_controlPart (s : State) : (blockBody s).controlPart = s.controlPart := by simp [blockBody]

section Body

variable (s : State)

theorem blockBody_inbuf : (blockBody s).inbuf = s.inbuf := congrArg (·.1) (blockBody_streamPart s)
theorem blockBody_insrc : (blockBody s).insrc = s.insrc := congrArg (·.2.1) (blockBody_streamPart s)
theorem blockBody_outbuf : (blockBody s).outbuf = s.outbuf := congrArg (·.2.2.1) (blockBody_streamPart s)
theorem blockBody_outsrc : (blockBody s).outsrc = s.outsrc := congrArg (·.2.2.2.1) (blockBody_streamPart s)
theorem blockBody_outlane : (blockBody s).outlane = s.outlane := congrArg (·.2.2.2.2) (blockBody_streamPart s)
theorem blockBody_hostrate : (blockBody s).hostrate = s.hostrate := hostrate_eq_of_controlPart (blockBody_controlPart s)
theorem blockBody_outmode : (blockBody s).outmode = s.outmode := outmode_eq_of_controlPart (blockBody_controlPart s)
theorem blockBody_P : (blockBody s).P = s.P := P_eq_of_controlPart (blockBody_controlPart s)

/-- What a run of an output resampler depends on, before and after the phases between the resamplers. -/
theorem blockBody_yieldOf (i : Fin NC) : yieldOf (blockBody s) i = yieldOf s i := by
  simp only [yieldOf, blockBody_outsrc, blockBody_hostrate, blockBody_P]

end Body

/-! ## The samples of a block (R33) -/

/-- A channel's resonator operation gives as many samples as it gets, for the target where the morph gate is open. -/
theorem filterRun_lengths (s : State) (ch : Fin NC) :
    (filterRun s ch).yp.length = (look s.blk.xin ch).length ∧
    (filterRun s ch).yt.map List.length =
      if morphOn (look s.chan ch) then some (look s.blk.xin ch).length else none := by
  have hopen := openSamples_length s ch
  unfold filterRun
  cases algOf s.algsel
  case twoPass =>
    refine passes_lengths (fun target m => ?twoPasses) fun m => ⟨hopen _, hopen _⟩
    cases target <;> exact twoPassRun_length ..
  case onePass =>
    refine passes_lengths (fun target m => ?onePasses) fun m => ⟨hopen _, hopen _⟩
    cases target <;> exact onePassRun_length ..
  case blended => exact blendOrOpen_lengths s ch

/-- Channel `ch` has as many outputs as inputs, for the target where the compositor reads it (R170). -/
def State.fullOutputs (s : State) (ch : Fin NC) : Prop :=
  (look s.blk.yp ch).length = (look s.blk.xin ch).length ∧
  (morphOn (look s.chan ch) = true → (look s.blk.yt ch).length = (look s.blk.xin ch).length)

theorem filter_fullOutputs (s : State) (ch : Fin NC) : (filter s ch).fullOutputs ch := by
  obtain ⟨hyp, hyt⟩ := filter_outputs s ch
  obtain ⟨hlen, hlen'⟩ := filterRun_lengths s ch
  rw [State.fullOutputs, filter_chan, (filter_frame ch s).xin_eq, hyp]
  refine ⟨hlen, fun hmorph => ?_⟩
  rw [← hyt hmorph, if_pos hmorph] at hlen'
  exact Option.some.inj hlen'

/-- What the operations of other channels keep of the outputs of `ch`, and of what they are measured by. -/
def State.sameSamples (ch : Fin NC) (s t : State) : Prop :=
  look t.blk.yp ch = look s.blk.yp ch ∧ look t.blk.yt ch = look s.blk.yt ch ∧ t.blk.xin = s.blk.xin ∧ t.chan = s.chan

theorem State.sameSamples.trans {ch : Fin NC} (s t u : State) (h : s.sameSamples ch t) (h' : t.sameSamples ch u) :
    s.sameSamples ch u := by
  obtain ⟨hyp, hyt, hxin, hchan⟩ := h
  obtain ⟨hyp', hyt', hxin', hchan'⟩ := h'
  exact ⟨hyp'.trans hyp, hyt'.trans hyt, hxin'.trans hxin, hchan'.trans hchan⟩

theorem State.sameSamples.fullOutputs {ch : Fin NC} {s t : State} (h : s.sameSamples ch t) (hs : s.fullOutputs ch) :
    t.fullOutputs ch := by
  obtain ⟨hyp, hyt, hxin, hchan⟩ := h
  rwa [State.fullOutputs, hyp, hyt, hxin, hchan]

theorem filter_sameSamples {ch d : Fin NC} (hne : d ≠ ch) (s : State) : s.sameSamples ch (filter s d) :=
  have hframe := filter_frame d s
  ⟨hframe.yp_other ch hne.symm, hframe.yt_other ch hne.symm, hframe.xin_eq, filter_chan s d⟩

/-- After the six resonator operations every channel has full outputs: its own gave them, and the later ones of other
channels keep them. -/
theorem filters_fullOutputs (s : State) (ch : Fin NC) : (channels.foldl filter s).fullOutputs ch := by
  obtain ⟨-, u, -, -, hend⟩ := foldl_channels_around (f := filter) (I := fun _ => True) (R := State.sameSamples ch)
    (s := s) ch (fun _ _ _ => trivial) (fun _ => ⟨rfl, rfl, rfl, rfl⟩) State.sameSamples.trans
    (fun s d hne _ => filter_sameSamples hne s) trivial
  exact hend.fullOutputs (filter_fullOutputs u ch)

theorem blended_length {s : State} {ch : Fin NC} (h : s.fullOutputs ch) :
    (blended s ch).length = (look s.blk.xin ch).length := by
  obtain ⟨hyp, hyt⟩ := h
  simp only [blended]
  split
  · next hmorph => rw [List.length_zipWith, hyp, hyt hmorph, min_self]
  · exact hyp

/-- A block gives each channel as many samples as the fan-in gave it. -/
theorem engine_out_length (s : State) (ch : Fin NC) :
    (look (engine s).out ch).length = (look s.blk.xin ch).length := by
  rw [← engine_xin, engine, compose_out, scaledOut, List.length_map, blended_length (filters_fullOutputs _ ch), compose_blk]

/-- Every channel is fed by a stream that was quantized, so it gets `BLOCK` samples. -/
theorem fanIn_quantize_length (s : State) (ch : Fin NC) :
    (look (fanIn (quantize s)).blk.xin ch).length = s.P.block := by
  rw [fanIn_xin, quantize_xq_of_active (s := s) (fanInSource_lt (quantize s) ch), quantStream_length]

theorem engine_fanIn_quantize_length (s : State) (ch : Fin NC) :
    (look (engine (fanIn (quantize s))).out ch).length = s.P.block :=
  (engine_out_length _ ch).trans (fanIn_quantize_length s ch)

/-- Every active stream of a fold of full outputs has `BLOCK` samples. -/
theorem foldOut_length {s : State} (hout : ∀ ch, (look s.out ch).length = s.P.block) {i : Fin NC}
    (hi : i.val < noutOf s.outmode) : (look (foldOut s).blk.fold i).length = s.P.block := by
  unfold noutOf at hi
  unfold foldOut
  cases hmode : outModeOf s.outmode <;> simp only [hmode] at hi ⊢
  case one =>
    obtain rfl : i = 0 := Fin.ext (Nat.lt_one_iff.1 hi)
    exact fold1_length s
  case two => rw [fold2_stream s hi, parityStream_length]
  case six => rw [fold6_stream, hout]

theorem foldOut_out (s : State) : (foldOut s).out = s.out := by
  obtain ⟨b, h⟩ := foldOut_eq_setBlk s
  rw [h, setBlk_out]

theorem blockBody_out_length (s : State) (ch : Fin NC) : (look (blockBody s).out ch).length = s.P.block := by
  rw [blockBody, foldOut_out, engine_fanIn_quantize_length]

theorem blockBody_fold_length {s : State} {i : Fin NC} (hi : i.val < noutOf s.outmode) :
    (look (blockBody s).blk.fold i).length = s.P.block := by
  have hcontrol : (engine (fanIn (quantize s))).controlPart = s.controlPart := by simp
  have hP := P_eq_of_controlPart hcontrol
  rw [blockBody, foldOut_length, hP]
  · exact fun ch => (engine_fanIn_quantize_length s ch).trans (congrArg Params.block hP).symm
  · rwa [outmode_eq_of_controlPart hcontrol]

/-! ## The banks a block used (R29) -/

/-- What the loop of block start for other channels keeps of the bank of `ch`. -/
def State.sameBank (ch : Fin NC) (s t : State) : Prop :=
  look t.prevbank ch = look s.prevbank ch ∧ bankNow t ch = bankNow s ch

theorem blkStartChan_bankNow (s : State) (ch d : Fin NC) : bankNow (blkStartChan s d) ch = bankNow s ch := by
  unfold blkStartChan
  split <;> rfl

theorem blkStartChan_sameBank {ch d : Fin NC} (hne : d ≠ ch) (s : State) : s.sameBank ch (blkStartChan s d) := by
  refine ⟨?_, blkStartChan_bankNow s ch d⟩
  unfold blkStartChan
  split
  · exact look_upd_ne _ hne _
  · rfl

/-- Block start leaves in `PREVBANK` the banks the block uses, whatever the histories hold. -/
theorem blkStart_prevbank_eq (s : State) (ch : Fin NC) : look (blkStart s).prevbank ch = bankNow s ch := by
  obtain ⟨-, u, -, ⟨-, hsu⟩, hend, -⟩ := foldl_channels_around (f := blkStartChan) (I := fun _ => True)
    (R := State.sameBank ch) (s := activateOverlay s) ch (fun _ _ _ => trivial) (fun _ => ⟨rfl, rfl⟩)
    (fun _ _ _ h h' => ⟨h'.1.trans h.1, h'.2.trans h.2⟩) (fun s d hne _ => blkStartChan_sameBank hne s) trivial
  rw [blkStart, hend, blkStartChan_prevbank_same, hsu, activateOverlay_frame]
  rfl

theorem filters_prevbank (s : State) (l : List (Fin NC)) : (l.foldl filter s).prevbank = s.prevbank := by
  induction l generalizing s with
  | nil => rfl
  | cons ch l ih =>
    rw [List.foldl_cons, ih]
    exact (congrArg State.prevbank (filter_frame ch s).rest).trans rfl

@[simp] theorem compose_prevbank (s : State) : (compose s).prevbank = s.prevbank := rfl

theorem engine_prevbank (s : State) (ch : Fin NC) : look (engine s).prevbank ch = bankNow s ch := by
  rw [← blkStart_prevbank_eq, engine, compose_prevbank, filters_prevbank, clipTest_prevbank]

theorem blockBody_prevbank (s : State) (ch : Fin NC) : look (blockBody s).prevbank ch = bankNow s ch := by
  obtain ⟨b, hin⟩ := fanIn_eq_setBlk (quantize s)
  obtain ⟨c, hout⟩ := foldOut_eq_setBlk (engine (fanIn (quantize s)))
  rw [blockBody, hout, hin, setBlk_prevbank, engine_prevbank]
  rfl

/-! ## What a tick comes to -/

section Tick

variable (s : State)

theorem tick_fired : (tick s).fired = (process s).fired := rfl
theorem tick_inbuf : (tick s).inbuf = (process s).inbuf := rfl
theorem tick_insrc : (tick s).insrc = (process s).insrc := rfl
theorem tick_outbuf : (tick s).outbuf = (drain (process s)).outbuf := rfl
theorem tick_outsrc : (tick s).outsrc = (process s).outsrc := rfl
theorem tick_prevbank : (tick s).prevbank = (process s).prevbank := rfl
theorem tick_out : (tick s).out = (process s).out := rfl

theorem firedBlock_inbuf : (firedBlock s).inbuf = (resampleIn s).inbuf := blockBody_inbuf (resampleIn s)
theorem firedBlock_insrc : (firedBlock s).insrc = (resampleIn s).insrc := blockBody_insrc (resampleIn s)
theorem firedBlock_outlane : (firedBlock s).outlane = s.outlane := blockBody_outlane (resampleIn s)
theorem firedBlock_outbuf : (firedBlock s).outbuf = (resampleOut (blockBody (resampleIn s))).outbuf := rfl
theorem firedBlock_outsrc : (firedBlock s).outsrc = (resampleOut (blockBody (resampleIn s))).outsrc := rfl
theorem firedBlock_out : (firedBlock s).out = (blockBody (resampleIn s)).out := rfl
theorem firedBlock_prevbank : (firedBlock s).prevbank = (blockBody (resampleIn s)).prevbank := rfl

end Tick

/-- Settles O37: each part of the state as the fired block leaves it. -/
theorem tickWithBlock : Obligations.TickWithBlock := by
  unfold Obligations.TickWithBlock
  intro s h
  obtain ⟨halg, huscale⟩ := tick_clears_eventFlags h
  refine ⟨tick s, rfl, ?fired, halg, huscale, ?overlay, fun ch => ?bank, fun ch => ?out, tick_rdata s⟩
  case fired => rw [tick_fired, process_of_fire h]
  case overlay =>
    rw [tick_usActive, process_of_fire h]
    exact firedBlock_usActive (accumulate s)
  case bank =>
    have hbank := blockBody_prevbank (resampleIn (accumulate s)) ch
    rw [← firedBlock_prevbank] at hbank
    rw [tick_prevbank, process_of_fire h, hbank, bankNow_toNat]
    rfl
  case out =>
    rw [tick_out, process_of_fire h]
    exact blockBody_out_length (resampleIn (accumulate s)) ch

end Sys2Proof.Machine
end

section
/-! SUPPORT. Streams of a tick that are not active (45_io_pipeline.md R197), and streams that are fed alike (R196 (a)). -/

namespace Sys2Proof.Machine

/-! ## Inactive streams (R197) -/

section Inactive

variable {s : State} {i : Fin NC}

theorem process_outmode (s : State) : (process s).outmode = s.outmode :=
  outmode_eq_of_controlPart (process_controlPart s)

theorem process_in_of_inactive (h : ninOf s.inch ≤ i.val) :
    look (process s).inbuf i = look s.inbuf i ∧ look (process s).insrc i = look s.insrc i := by
  obtain ⟨hacc, -⟩ := accumulate_of_inactive h
  cases hfire : fireTest (accumulate s)
  case false =>
    rw [process_of_not_fire hfire]
    exact ⟨hacc, rfl⟩
  case true =>
    obtain ⟨hsrc, -, hbuf⟩ := resampleIn_of_inactive (s := accumulate s) h
    rw [process_of_fire hfire]
    dsimp only
    rw [firedBlock_inbuf, firedBlock_insrc, hsrc, hbuf, hacc]
    exact ⟨rfl, rfl⟩

theorem process_out_of_inactive (h : noutOf s.outmode ≤ i.val) :
    look (process s).outbuf i = look s.outbuf i ∧ look (process s).outsrc i = look s.outsrc i ∧
      look (process s).outlane i = look s.outlane i := by
  cases hfire : fireTest (accumulate s)
  case false =>
    rw [process_of_not_fire hfire]
    exact ⟨rfl, rfl, rfl⟩
  case true =>
    have hmode := blockBody_outmode (resampleIn (accumulate s))
    obtain ⟨hsrc, hbuf⟩ := resampleOut_of_inactive (s := blockBody (resampleIn (accumulate s))) (hmode ▸ h)
    rw [process_of_fire hfire]
    dsimp only
    rw [firedBlock_outbuf, firedBlock_outsrc, firedBlock_outlane, hbuf, hsrc, blockBody_outbuf, blockBody_outsrc]
    exact ⟨rfl, rfl, rfl⟩

end Inactive

/-- Settles O50: neither what stands before the drain nor the drain touches an inactive stream. -/
theorem inactiveStreamsAreUntouched : Obligations.InactiveStreamsAreUntouched := by
  unfold Obligations.InactiveStreamsAreUntouched
  refine fun s => ⟨tick s, rfl, fun i => ⟨process_in_of_inactive, fun h => ?out⟩⟩
  case out =>
    obtain ⟨hbuf, hsrc, hlane⟩ := process_out_of_inactive h
    obtain ⟨hdrained, -, hdelivered⟩ := drain_of_inactive (s := process s) ((process_outmode s).symm ▸ h)
    exact ⟨hdrained.trans hbuf, hsrc, hdelivered.trans hlane⟩

/-! ## Streams fed alike (R183, R196 (a)) -/

/-- Two input streams hold the same samples and resampler states. -/
def State.twinStreams (s : State) (i j : Fin NC) : Prop :=
  look s.inbuf i = look s.inbuf j ∧ look s.insrc i = look s.insrc j

section Twins

variable {s : State} {i j : Fin NC} (hi : i.val < ninOf s.inch) (hj : j.val < ninOf s.inch) (h : s.twinStreams i j)
include hi hj h

theorem State.twinStreams.accumulate (hlane : inSample s i = inSample s j) : (accumulate s).twinStreams i j := by
  obtain ⟨hbuf, hsrc⟩ := h
  refine ⟨?_, hsrc⟩
  rw [accumulate_inbuf, accumulate_inbuf, activeIn_of_lt hi, activeIn_of_lt hj, hbuf, hlane]

/-- Twins are resampled alike: the samples of the block, and what stays. -/
theorem State.twinStreams.resampleIn : (resampleIn s).twinStreams i j ∧
    look (resampleIn s).blk.rs i = look (resampleIn s).blk.rs j := by
  obtain ⟨hbuf, hsrc⟩ := h
  have hrun : inRun s i = inRun s j := by rw [inRun, inRun, hbuf, hsrc]
  obtain ⟨hsrci, hrsi, hbufi⟩ := resampleIn_of_active hi
  obtain ⟨hsrcj, hrsj, hbufj⟩ := resampleIn_of_active hj
  exact ⟨⟨by rw [hbufi, hbufj, hbuf, hrun], by rw [hsrci, hsrcj, hrun]⟩, by rw [hrsi, hrsj, hrun]⟩

theorem State.twinStreams.xq_eq : look (quantize (Machine.resampleIn s)).blk.xq i =
    look (quantize (Machine.resampleIn s)).blk.xq j := by
  obtain ⟨-, hrs⟩ := h.resampleIn hi hj
  rw [quantize_xq_of_active (s := Machine.resampleIn s) hi, quantize_xq_of_active (s := Machine.resampleIn s) hj, hrs]

/-- A tick keeps twins that are fed one sample. -/
theorem State.twinStreams.tick (hlane : inSample s i = inSample s j) : (tick s).twinStreams i j := by
  have hacc := h.accumulate hi hj hlane
  rw [State.twinStreams, tick_inbuf, tick_insrc]
  cases hfire : fireTest (Machine.accumulate s)
  case false =>
    rw [process_of_not_fire hfire]
    exact hacc
  case true =>
    rw [process_of_fire hfire]
    dsimp only
    rw [firedBlock_inbuf, firedBlock_insrc]
    exact (State.twinStreams.resampleIn (s := Machine.accumulate s) hi hj hacc).1

end Twins

/-- Where all active streams were quantized to the same samples, every channel gets them. -/
theorem fanIn_xin_of_active_eq {s : State} {xs : List Int} (h : ∀ i : Fin NC, i.val < ninOf s.inch → look s.blk.xq i = xs)
    (ch : Fin NC) : look (fanIn s).blk.xin ch = xs := (fanIn_xin s ch).trans (h _ (fanInSource_lt s ch))

theorem fanInSource_of_three {s : State} (h : s.inch = 3) {ch d : Fin NC} (heq : s.P.fanin3 ch = s.P.fanin3 d) :
    fanInSource s ch = fanInSource s d := by
  have hthree : fanInOf s.inch = .three := by rw [h]; rfl
  simp only [fanInSource, hthree, heq]

/-- Settles O48: one connected input feeds twins, which are all that mode 1's fan-in reads; with three, channels of one
stream read the same stream. -/
theorem fanOutKeepsDuplicatesEqual : Obligations.FanOutKeepsDuplicatesEqual := by
  unfold Obligations.FanOutKeepsDuplicatesEqual
  refine ⟨fun s hinch hbuf hsrc => ?one, fun s hinch ch d heq => ?three⟩
  case one =>
    have htwo : ninOf s.inch = 2 := by rw [hinch]; rfl
    have h0 : (0 : Fin NC).val < ninOf s.inch := by rw [htwo]; decide
    have h1 : (1 : Fin NC).val < ninOf s.inch := by rw [htwo]; decide
    have hlane : inSample s 0 = inSample s 1 := by
      have hone : s.inch.toNat = 1 := by rw [hinch]; rfl
      rw [inSample, inSample, laneOf_of_one s.P _ hone, laneOf_of_one s.P _ hone]
    have htwins : s.twinStreams 0 1 := ⟨hbuf, hsrc⟩
    refine ⟨⟨tick s, rfl, htwins.tick h0 h1 hlane⟩, fun ch d => ?channels⟩
    case channels =>
      have hxq := State.twinStreams.xq_eq (s := accumulate s) h0 h1 (htwins.accumulate h0 h1 hlane)
      have hall (i : Fin NC) (hi : i.val < ninOf s.inch) : look (quantize (resampleIn (accumulate s))).blk.xq i =
          look (quantize (resampleIn (accumulate s))).blk.xq 0 := by
        rw [htwo] at hi
        obtain rfl | rfl : i = 0 ∨ i = 1 :=
          (Nat.le_one_iff_eq_zero_or_eq_one.1 (Nat.lt_succ_iff.1 hi)).imp Fin.ext Fin.ext
        · rfl
        · exact hxq.symm
      exact (fanIn_xin_of_active_eq hall ch).trans (fanIn_xin_of_active_eq hall d).symm
  case three =>
    rw [fanIn_xin, fanIn_xin, fanInSource_of_three (s := quantize (resampleIn (accumulate s))) hinch heq]

end Sys2Proof.Machine
end

section
/-! SUPPORT. What the kernel's contract and the capacities give the pipeline (45_io_pipeline.md R185, R186, R191;
46_ringbuf_resampler.md R213 to R218; 70_reset_and_hazards.md R262). -/

namespace Sys2Proof.Machine

/-! ## The input rings after the input side -/

section Rings

variable {s : State} {i : Fin NC}

theorem length_accumulate_le (h : (look s.inbuf i).length ≤ s.P.inCap) :
    (look (accumulate s).inbuf i).length ≤ s.P.inCap := by
  rw [accumulate_inbuf]
  split
  · exact push_length_le _ h
  · exact h

/-- An active ring is full, or has one more sample. -/
theorem min_le_length_accumulate (hi : i.val < ninOf s.inch) :
    min s.P.inCap ((look s.inbuf i).length + 1) ≤ (look (accumulate s).inbuf i).length := by
  rcases Nat.lt_or_ge (look s.inbuf i).length s.P.inCap with hroom | hfull
  · rw [(accumulate_of_room hi hroom).1, List.length_append, List.length_singleton]
    exact min_le_right _ _
  · rw [(accumulate_of_full hi hfull).1]
    exact (min_le_left _ _).trans hfull

theorem length_drain_outbuf (hi : i.val < noutOf s.outmode) :
    (look (drain s).outbuf i).length = (look s.outbuf i).length - 1 := by
  rw [drain_outbuf, activeOut_of_lt hi]
  exact List.length_tail

end Rings

/-! ## What a tick can do to a resampler -/

/-- An input resampler stays, or is that of an active stream in a tick that fires. -/
theorem tick_insrc_cases (s : State) (i : Fin NC) : look (tick s).insrc i = look s.insrc i ∨
    (fireTest (accumulate s) = true ∧ i.val < ninOf s.inch ∧
      look (tick s).insrc i = (inRun (accumulate s) i).st) := by
  rw [tick_insrc]
  cases hfire : fireTest (accumulate s)
  case false => exact .inl (by rw [process_of_not_fire hfire]; rfl)
  case true =>
    rw [process_of_fire hfire]
    dsimp only
    rw [firedBlock_insrc]
    rcases Nat.lt_or_ge i.val (ninOf s.inch) with hi | hi
    · exact .inr ⟨rfl, hi, (resampleIn_of_active (s := accumulate s) hi).1⟩
    · exact .inl (resampleIn_of_inactive (s := accumulate s) hi).1

/-- The run of an output resampler in a fired block, by the state the block begins in. -/
theorem outRun_blockBody (s : State) (i : Fin NC) : outRun (blockBody s) i =
    s.P.src.run (look s.outsrc i) s.P.fsInt s.hostrate.toNat (look (blockBody s).blk.fold i) (yieldOf s i) := by
  rw [outRun, blockBody_yieldOf, blockBody_P, blockBody_outsrc, blockBody_hostrate]

/-- An output resampler stays, or is that of an active stream in a tick that fires. -/
theorem tick_outsrc_cases (s : State) (i : Fin NC) : look (tick s).outsrc i = look s.outsrc i ∨
    (fireTest (accumulate s) = true ∧ i.val < noutOf s.outmode ∧
      look (tick s).outsrc i = (outRun (blockBody (resampleIn (accumulate s))) i).st) := by
  rw [tick_outsrc]
  cases hfire : fireTest (accumulate s)
  case false => exact .inl (by rw [process_of_not_fire hfire]; rfl)
  case true =>
    rw [process_of_fire hfire]
    dsimp only
    rw [firedBlock_outsrc]
    have hmode := blockBody_outmode (resampleIn (accumulate s))
    rcases Nat.lt_or_ge i.val (noutOf s.outmode) with hi | hi
    · exact .inr ⟨rfl, hi, (resampleOut_of_active (s := blockBody (resampleIn (accumulate s))) (hmode ▸ hi)).1⟩
    · refine .inl ?_
      rw [(resampleOut_of_inactive (s := blockBody (resampleIn (accumulate s))) (hmode ▸ hi)).1, blockBody_outsrc]
      rfl

/-! ## A fired block under the kernel's contract (R215, R216) -/

section Contract

variable {s : State} {ok : SrcState → Prop} (hK : s.P.src.CountLaws ok)
  (hok : ∀ i : Fin NC, ok (look s.insrc i) ∧ ok (look s.outsrc i)) (hfire : fireTest s = true) {i : Fin NC}
include hK hok hfire

/-- The fire test asked for the samples a block needs, so the resampled block is whole. -/
theorem resampleIn_length (hi : i.val < ninOf s.inch) : (look (resampleIn s).blk.rs i).length = s.P.block := by
  obtain ⟨hrate, hneed, -⟩ := (fireTest_iff s).1 hfire
  obtain ⟨-, hrs, -⟩ := resampleIn_of_active hi
  rw [hrs]
  exact hK.production _ _ _ _ _ (Nat.pos_of_ne_zero hrate) (Nat.succ_pos _) (hok i).1 (hneed i hi)

/-- The whole folded block is consumed, and yields what the fire test asked room for. -/
theorem outRun_counts (hi : i.val < noutOf s.outmode) :
    (outRun (blockBody (resampleIn s)) i).consumed = s.P.block ∧
    (outRun (blockBody (resampleIn s)) i).ys.length = yieldOf s i := by
  obtain ⟨hrate, -, -⟩ := (fireTest_iff s).1 hfire
  have hlen : (look (blockBody (resampleIn s)).blk.fold i).length = s.P.block := blockBody_fold_length (s := resampleIn s) hi
  rw [outRun_blockBody]
  have h := hK.consumption (look s.outsrc i) s.P.fsInt s.hostrate.toNat (look (blockBody (resampleIn s)).blk.fold i)
    (yieldOf s i) (Nat.succ_pos _) (Nat.pos_of_ne_zero hrate) (hok i).2 (by rw [hlen]; exact le_rfl)
  rw [hlen] at h
  exact h

/-- Every output finds room. -/
theorem resampleOut_outbuf_of_fire (hi : i.val < noutOf s.outmode) :
    look (resampleOut (blockBody (resampleIn s))).outbuf i =
      look s.outbuf i ++ (outRun (blockBody (resampleIn s)) i).ys := by
  obtain ⟨-, -, hroom⟩ := (fireTest_iff s).1 hfire
  obtain ⟨-, hlen⟩ := outRun_counts hK hok hfire hi
  have hmode := blockBody_outmode (resampleIn s)
  obtain ⟨-, hpush⟩ := resampleOut_of_active (s := blockBody (resampleIn s)) (hmode ▸ hi)
  rw [hpush, blockBody_outbuf]
  · rfl
  · rw [hlen, blockBody_outbuf, blockBody_P]
    exact hroom i hi

end Contract

/-- A tick leaves the resamplers in states the kernel can be in. -/
theorem tick_keeps_ok {s : State} {ok : SrcState → Prop} (hK : s.P.src.CountLaws ok)
    (hok : ∀ i : Fin NC, ok (look s.insrc i) ∧ ok (look s.outsrc i)) (i : Fin NC) :
    ok (look (tick s).insrc i) ∧ ok (look (tick s).outsrc i) := by
  have hrate (hfire : fireTest (accumulate s) = true) : 0 < s.hostrate.toNat :=
    Nat.pos_of_ne_zero ((fireTest_iff _).1 hfire).1
  constructor
  · rcases tick_insrc_cases s i with h | ⟨hfire, -, h⟩ <;> rw [h]
    · exact (hok i).1
    · exact hK.run_ok _ _ _ _ _ (hrate hfire) (Nat.succ_pos _) (hok i).1
  · rcases tick_outsrc_cases s i with h | ⟨hfire, -, h⟩ <;> rw [h]
    · exact (hok i).2
    · rw [outRun_blockBody]
      exact hK.run_ok _ _ _ _ _ (Nat.succ_pos _) (hrate hfire) (hok i).2

/-! ## Resampler states that can arise (R218, R262) -/

/-- A tick leaves the resamplers in states that can arise: a fired block's runs are those R262 speaks of. -/
theorem tick_keeps_arises {s : State} {rates : Nat → Prop} (hinv : s.Inv) (hrate : rates s.hostrate.toNat)
    (h : ∀ i : Fin NC, s.P.InArises rates (look s.insrc i) ∧ s.P.OutArises rates (look s.outsrc i)) (i : Fin NC) :
    s.P.InArises rates (look (tick s).insrc i) ∧ s.P.OutArises rates (look (tick s).outsrc i) := by
  obtain ⟨hin, hout⟩ := h i
  constructor
  · rcases tick_insrc_cases s i with e | ⟨hfire, hi, e⟩ <;> rw [e]
    · exact hin
    · obtain ⟨-, hneed, -⟩ := (fireTest_iff _).1 hfire
      exact .run _ _ _ _ _ hin ⟨hrate, rfl, hneed i hi, length_accumulate_le (hinv.inbuf_le i), rfl⟩
  · rcases tick_outsrc_cases s i with e | ⟨-, hi, e⟩ <;> rw [e]
    · exact hout
    · rw [outRun_blockBody]
      exact .run _ _ _ _ _ hout ⟨rfl, hrate, blockBody_fold_length (s := resampleIn (accumulate s)) hi, rfl⟩

/-! ## Blocks keep firing where the rings can hold them (R262) -/

/-- `t` is `s` after `n` ticks that did not fire: what a block depends on is as it was, and each tick filled the active
input rings and emptied the active output rings by one, as far as they go. -/
structure State.Waited (s t : State) (n : Nat) : Prop where
  control : t.controlPart = s.controlPart
  insrc : t.insrc = s.insrc
  outsrc : t.outsrc = s.outsrc
  input : ∀ i : Fin NC, i.val < ninOf s.inch → min s.P.inCap n ≤ (look t.inbuf i).length
  output : ∀ i : Fin NC, i.val < noutOf s.outmode → (look t.outbuf i).length ≤ s.P.outCap - n

namespace State.Waited

variable {s t : State} {n : Nat}

theorem zero (hinv : s.Inv) : s.Waited s 0 := ⟨rfl, rfl, rfl, fun _ _ => by simp, fun i _ => hinv.outbuf_le i⟩

theorem hostrate_eq (h : s.Waited t n) : t.hostrate = s.hostrate := hostrate_eq_of_controlPart h.control
theorem inch_eq (h : s.Waited t n) : t.inch = s.inch := inch_eq_of_controlPart h.control
theorem outmode_eq (h : s.Waited t n) : t.outmode = s.outmode := outmode_eq_of_controlPart h.control
theorem P_eq (h : s.Waited t n) : t.P = s.P := P_eq_of_controlPart h.control

theorem tick (h : s.Waited t n) (hidle : fireTest (accumulate t) = false) : s.Waited (tick t) (n + 1) where
  control := (tick_controlPart t).trans h.control
  insrc := by rw [tick_insrc, process_of_not_fire hidle]; exact h.insrc
  outsrc := by rw [tick_outsrc, process_of_not_fire hidle]; exact h.outsrc
  input i hi := by
    have hgrow := min_le_length_accumulate (s := t) (i := i) (h.inch_eq ▸ hi)
    have hbefore := h.input i hi
    rw [h.P_eq] at hgrow
    rw [tick_inbuf, process_of_not_fire hidle]
    show _ ≤ (look (accumulate t).inbuf i).length
    omega
  output i hi := by
    have hshrink := length_drain_outbuf (s := process t) (i := i) (process_outmode t ▸ h.outmode_eq ▸ hi)
    have hbefore := h.output i hi
    rw [process_of_not_fire hidle] at hshrink
    rw [tick_outbuf, process_of_not_fire hidle, hshrink]
    show (look t.outbuf i).length - 1 ≤ _
    omega

/-- After as many ticks as the larger ring has places the block fires: the active input rings are full and the active
output rings empty. -/
theorem fires (h : s.Waited t n) (hin : s.P.inCap ≤ n) (hout : s.P.outCap ≤ n) {rates : Nat → Prop}
    (hsupports : s.P.Supports rates) (hrate : rates s.hostrate.toNat) (hnonzero : s.hostrate ≠ 0)
    (harises : ∀ i : Fin NC, s.P.InArises rates (look s.insrc i) ∧ s.P.OutArises rates (look s.outsrc i)) :
    fireTest (accumulate t) = true := by
  refine (fireTest_iff _).2 ⟨?rate, fun i hi => ?enough, fun i hi => ?room⟩
  case rate =>
    show t.hostrate.toNat ≠ 0
    rwa [h.hostrate_eq, ← hostrate_ne_zero_iff]
  case enough =>
    have hi' : i.val < ninOf s.inch := h.inch_eq ▸ hi
    have hneed := hsupports.in_room _ _ hrate (harises i).1
    have hgrow := min_le_length_accumulate (s := t) (i := i) hi
    have hfull := h.input i hi'
    show t.P.src.need (look t.insrc i) t.hostrate.toNat t.P.fsInt t.P.block ≤ _
    rw [h.P_eq] at hgrow ⊢
    rw [h.insrc, h.hostrate_eq]
    omega
  case room =>
    have hi' : i.val < noutOf s.outmode := h.outmode_eq ▸ hi
    have hyield := hsupports.out_room _ _ hrate (harises i).2
    have hempty := h.output i hi'
    show (look t.outbuf i).length + t.P.src.yld (look t.outsrc i) t.P.fsInt t.hostrate.toNat t.P.block ≤ t.P.outCap
    rw [h.P_eq, h.outsrc, h.hostrate_eq]
    omega

end State.Waited

/-- As long as no tick fires, waiting goes on. -/
theorem waited_iterate {s : State} (hinv : s.Inv) {n : Nat}
    (hidle : ∀ k < n, fireTest (accumulate (tick^[k] s)) = false) : s.Waited (tick^[n] s) n := by
  induction n with
  | zero => exact .zero hinv
  | succ n ih =>
    rw [Function.iterate_succ_apply']
    exact (ih fun k hk => hidle k (Nat.lt_succ_of_lt hk)).tick (hidle n (Nat.lt_succ_self n))

theorem exists_fire {s : State} {rates : Nat → Prop} (hinv : s.Inv) (hsupports : s.P.Supports rates)
    (hrate : rates s.hostrate.toNat) (hnonzero : s.hostrate ≠ 0)
    (harises : ∀ i : Fin NC, s.P.InArises rates (look s.insrc i) ∧ s.P.OutArises rates (look s.outsrc i)) :
    ∃ n ≤ max s.P.inCap s.P.outCap, fireTest (accumulate (tick^[n] s)) = true := by
  by_contra! hnone
  have hidle : ∀ k ≤ max s.P.inCap s.P.outCap, fireTest (accumulate (tick^[k] s)) = false :=
    fun k hk => Bool.eq_false_iff.2 (hnone k hk)
  exact hnone _ le_rfl ((waited_iterate hinv fun k hk => hidle k hk.le).fires (le_max_left _ _) (le_max_right _ _)
    hsupports hrate hnonzero harises)

/-- A ring too small for what a block needs or yields stops the blocks. -/
theorem fireTest_of_small_ring {s : State} (hinv : s.Inv) {i : Fin NC}
    (h : (i.val < ninOf s.inch ∧ s.P.inCap < needOf s i) ∨ (i.val < noutOf s.outmode ∧ s.P.outCap < yieldOf s i)) :
    fireTest (accumulate s) = false := by
  rw [← Bool.not_eq_true, fireTest_iff]
  rintro ⟨-, hneed, hroom⟩
  rcases h with ⟨hi, hsmall⟩ | ⟨hi, hsmall⟩
  · have := length_accumulate_le (hinv.inbuf_le i)
    exact absurd ((hneed i hi).trans this) (Nat.not_le.2 hsmall)
  · exact absurd ((Nat.le_add_left _ _).trans (hroom i hi)) (Nat.not_le.2 hsmall)

/-- Settles O60: the counts of a fired block from the contract, the resampler states from what a tick can do to them, and
progress from the rings filling and emptying while no block fires. -/
theorem firedBlockMeetsKernelContract : Obligations.FiredBlockMeetsKernelContract := by
  unfold Obligations.FiredBlockMeetsKernelContract
  refine ⟨fun s ok hK hok => ⟨fun hfire => ⟨fun i hi => ?whole, fun i hi => ?out⟩, tick s, rfl, tick_keeps_ok hK hok⟩,
    fun s rates hinv hsupports hrate hnonzero harises => ⟨exists_fire hinv hsupports hrate hnonzero harises,
      tick s, rfl, rfl, tick_keeps_arises hinv hrate harises⟩,
    fun p rates i => ?powerOn, fun s hinv ⟨i, h⟩ => fireTest_of_small_ring hinv h⟩
  case whole => exact resampleIn_length (s := accumulate s) hK hok hfire hi
  case out =>
    obtain ⟨hconsumed, hlen⟩ := outRun_counts (s := accumulate s) hK hok hfire hi
    have hpush := resampleOut_outbuf_of_fire (s := accumulate s) hK hok hfire hi
    rw [outRun_blockBody] at hconsumed hlen hpush
    exact ⟨blockBody_fold_length (s := resampleIn (accumulate s)) hi, hconsumed, hlen, hpush⟩
  case powerOn =>
    simp only [State.powerOn, look_replicate]
    exact ⟨.init, .init⟩

end Sys2Proof.Machine
end

section
/-! SUPPORT. The order in which a block filters the channels is not observable (45_io_pipeline.md R189): the resonator
operations of two channels commute. -/

namespace Sys2Proof.Machine

/-- Two channels' results stored in either order: each channel's are the same to it, and the histories come out the
same. -/
theorem FilterRun.store_comm {p q p' q' : FilterRun} {c d : Fin NC} (s : State) (hne : c ≠ d)
    (hp : p.Agree s.P c p') (hq : q.Agree s.P d q') (hha : q'.ha = p'.ha) (hhb : q'.hb = p'.hb) :
    q'.store (p.store s c) d = p'.store (q.store s d) c := by
  simp only [FilterRun.store, setPitch, setOutputs, State.setBlk, hp.yp, hp.yt, hp.pitch, hq.yp, hq.yt, hq.pitch, hha, hhb]
  cases p.yt <;> cases q.yt <;> simp only [upd_comm _ hne]

section Commute

variable {s : State} {c d : Fin NC} (h : s.Canonical) (hne : c ≠ d)
include h hne

/-- What channel `d` computes does not depend on whether channel `c` ran before. -/
theorem filterRun_filter_agree : (filterRun s d).Agree s.P d (filterRun (filter s c) d) :=
  (filter_keepsChannel hne h).alike.filterRun_agree h (filter_canonical c h)

/-- Outside the slice of `c` the histories after both channels are those after `d` alone: in the slice of `d` it wrote
the same, and elsewhere neither wrote. -/
theorem read_filterRun_filter {k : Nat} (hk : ¬ inSlice s.P c k) :
    (filterRun (filter s c) d).ha.read k = (filterRun s d).ha.read k ∧
    (filterRun (filter s c) d).hb.read k = (filterRun s d).hb.read k := by
  by_cases hkd : inSlice s.P d k
  · obtain ⟨-, -, -, ⟨-, -, hha⟩, -, -, hhb⟩ := filterRun_filter_agree h hne
    exact ⟨hha k hkd, hhb k hkd⟩
  · have hP : (filter s c).P = s.P := P_eq_of_controlPart (filter_controlPart s c)
    obtain ⟨⟨-, -, hac⟩, -, -, hbc⟩ := filterRun_outside c h
    obtain ⟨⟨-, -, had⟩, -, -, hbd⟩ := filterRun_outside d h
    obtain ⟨⟨-, -, ha⟩, -, -, hb⟩ := filterRun_outside d (filter_canonical c h)
    rw [hP] at ha hb
    rw [ha k hkd, hb k hkd, had k hkd, hbd k hkd, filter_eq_store]
    exact ⟨hac k hk, hbc k hk⟩

/-- Outside the slice of `c` both orders leave the same histories. -/
theorem read_filterRun_comm_outside {k : Nat} (hk : ¬ inSlice s.P c k) :
    (filterRun (filter s c) d).ha.read k = (filterRun (filter s d) c).ha.read k ∧
    (filterRun (filter s c) d).hb.read k = (filterRun (filter s d) c).hb.read k := by
  have hP : (filter s d).P = s.P := P_eq_of_controlPart (filter_controlPart s d)
  obtain ⟨hha, hhb⟩ := read_filterRun_filter h hne hk
  obtain ⟨⟨-, -, ha⟩, -, -, hb⟩ := filterRun_outside c (filter_canonical d h)
  rw [hP] at ha hb
  rw [hha, hhb, ha k hk, hb k hk, filter_eq_store]
  exact ⟨rfl, rfl⟩

/-- Both orders leave the same histories: no key is in two channels' slices. -/
theorem filterRun_comm_history : (filterRun (filter s c) d).ha = (filterRun (filter s d) c).ha ∧
    (filterRun (filter s c) d).hb = (filterRun (filter s d) c).hb := by
  obtain ⟨⟨-, hac, -⟩, -, hbc, -⟩ := filterRun_outside d (filter_canonical c h)
  obtain ⟨⟨-, had, -⟩, -, hbd, -⟩ := filterRun_outside c (filter_canonical d h)
  have hread (k : Nat) : (filterRun (filter s c) d).ha.read k = (filterRun (filter s d) c).ha.read k ∧
      (filterRun (filter s c) d).hb.read k = (filterRun (filter s d) c).hb.read k := by
    by_cases hk : inSlice s.P c k
    · obtain ⟨hha, hhb⟩ := read_filterRun_comm_outside h hne.symm (not_inSlice_of_ne hne.symm hk)
      exact ⟨hha.symm, hhb.symm⟩
    · exact read_filterRun_comm_outside h hne hk
  exact ⟨Memory.ext hac had fun k => (hread k).1, Memory.ext hbc hbd fun k => (hread k).2⟩

end Commute

/-- The resonator operations of two channels commute. -/
theorem filter_comm {s : State} (h : s.Canonical) (c d : Fin NC) : filter (filter s c) d = filter (filter s d) c := by
  rcases eq_or_ne c d with rfl | hne
  · rfl
  · obtain ⟨hha, hhb⟩ := filterRun_comm_history h hne
    calc filter (filter s c) d = (filterRun (filter s c) d).store ((filterRun s c).store s c) d := by
          rw [← filter_eq_store, ← filter_eq_store]
      _ = (filterRun (filter s d) c).store ((filterRun s d).store s d) c :=
          FilterRun.store_comm s hne (filterRun_filter_agree h hne.symm) (filterRun_filter_agree h hne) hha hhb
      _ = filter (filter s d) c := by rw [← filter_eq_store, ← filter_eq_store]

/-- Filtering the channels in another order comes to the same. -/
theorem filters_perm {l l' : List (Fin NC)} (hperm : l.Perm l') {s : State} (h : s.Canonical) :
    l.foldl filter s = l'.foldl filter s := by
  induction hperm generalizing s with
  | nil => rfl
  | cons c _ ih => exact ih (filter_canonical c h)
  | swap c d l => rw [List.foldl_cons, List.foldl_cons, List.foldl_cons, List.foldl_cons, filter_comm h]
  | trans _ _ ih ih' => exact (ih h).trans (ih' h)

/-- Settles O31: a permutation of the channels is a sequence of exchanges of neighbours, and neighbours commute. -/
theorem channelOrderIsUnobservable : Obligations.ChannelOrderIsUnobservable := by
  unfold Obligations.ChannelOrderIsUnobservable
  intro s l hha hhb hperm t u
  have htu : t = u := filters_perm hperm ⟨hha, hhb⟩
  rw [htu]
  exact ⟨rfl, fun _ => rfl⟩

end Sys2Proof.Machine
end

section
/-! SUPPORT. Every step keeps the invariant (46_ringbuf_resampler.md R213; 10_state.md R29, R33; 20_memory.md R52, R53):
phase by phase for the tick, by their frames for the other instructions. -/

namespace Sys2Proof.Machine

/-! ## A key bound as a property of reads -/

/-- At and above its key bound a memory reads the unlisted value. -/
theorem Memory.read_of_below {m : Memory} {bound k : Nat} (h : m.below bound = true) (hk : bound ≤ k) :
    m.read k = unlisted := by
  induction m with
  | nil => rfl
  | cons c m ih =>
    obtain ⟨hc, hm⟩ := (below_cell ..).1 h
    rw [read, if_neg (by omega), ih hm, ite_self]

/-- A canonical memory that reads the unlisted value at and above a bound lists no key there. -/
theorem Memory.below_of_read {m : Memory} {low bound : Nat} (h : wfFrom low m = true)
    (hread : ∀ k, bound ≤ k → m.read k = unlisted) : m.below bound = true := by
  induction m generalizing low with
  | nil => rfl
  | cons c m ih =>
    have htail := wfFrom_tail h
    simp only [wfFrom, Bool.and_eq_true, bne_iff_ne] at h
    refine (below_cell ..).2 ⟨?head, ih htail fun k hk => ?tail⟩
    case head =>
      by_contra hc
      have := hread c.1 (Nat.not_lt.1 hc)
      rw [read, if_pos rfl] at this
      exact h.1.2 this
    case tail =>
      rcases Nat.lt_or_ge c.1 k with hck | hck
      · have := hread k hk
        rwa [read, if_neg hck.ne, if_neg hck.asymm] at this
      · exact read_lt htail (by omega)

/-- An arena that a resonator operation of one channel left alone outside its slice still lies inside its space. -/
theorem Memory.agreeOn.below_arena {P : Params} {ch : Fin NC} {m w : Memory} (h : m.agreeOn (¬ inSlice P ch ·) w)
    (hm : m.below (sliceStart P NC) = true) : w.below (sliceStart P NC) = true := by
  obtain ⟨-, hw, hread⟩ := h
  refine below_of_read hw fun k hk => ?_
  have hslice : sliceStart P (ch.val + 1) ≤ sliceStart P NC := sliceStart_mono P ch.isLt
  rw [hread k fun hin => absurd hin.2 (by omega), read_of_below hm hk]

/-! ## Instructions by their frames -/

namespace State.Inv

variable {s t : State} {ch : Fin NC}

theorem canonical (h : s.Inv) : s.Canonical := ⟨h.ha_wf, h.hb_wf⟩

theorem ret (h : s.Inv) (r : Word) : (s.ret r).Inv := { h with }
theorem setBlk (h : s.Inv) (b : Block) : (s.setBlk b).Inv := { h with }
theorem begin (h : s.Inv) (x : Txn) (rest : List Txn) : (begin s x rest).Inv := { h with }
theorem beginProbe (h : s.Inv) : (beginProbe s).Inv := { h with }

/-- An operation of channel `ch` that keeps the arenas outside the channel's slice keeps the invariant. -/
theorem of_filterFrame (h : s.Inv) (hframe : FilterFrame ch s t) (ha : s.ha.agreeOn (¬ inSlice s.P ch ·) t.ha)
    (hb : s.hb.agreeOn (¬ inSlice s.P ch ·) t.hb) : t.Inv := by
  rw [hframe.rest]
  exact { h with
    ha_wf := ha.2.1, ha_below := ha.below_arena h.ha_below
    hb_wf := hb.2.1, hb_below := hb.below_arena h.hb_below }

theorem filt2p (h : s.Inv) (ch : Fin NC) : (filt2p ch s).Inv :=
  have hout := twoPassPasses_outside ch h.canonical
  h.of_filterFrame (filt2p_frame ch s) hout.1 hout.2

theorem filt1p (h : s.Inv) (ch : Fin NC) : (filt1p ch s).Inv :=
  h.of_filterFrame (filt1p_frame ch s) (onePassPasses_outside ch h.canonical) (.refl h.hb_wf)

theorem filtbl (h : s.Inv) (ch : Fin NC) : (filtbl ch s).Inv :=
  h.of_filterFrame (filtbl_frame ch s) (blendOrOpen_outside ch h.canonical) (.refl h.hb_wf)

theorem filter (h : s.Inv) (ch : Fin NC) : (filter s ch).Inv := by
  unfold Machine.filter
  cases algOf s.algsel
  · exact h.filt2p ch
  · exact h.filt1p ch
  · exact h.filtbl ch

theorem filters (h : s.Inv) (l : List (Fin NC)) : (l.foldl Machine.filter s).Inv := by
  induction l generalizing s with
  | nil => exact h
  | cons ch l ih => exact ih (h.filter ch)

/-- `WUS` writes the staging overlay only inside its space (R108). -/
theorem writeStage_below (h : s.Inv) (idx : Nat) : (writeStage s idx).below (s.P.ns * s.P.nf) = true := by
  unfold writeStage
  split
  · next hidx => exact Memory.below_write _ hidx h.stage_below
  · exact h.stage_below

/-- A host-side command that leaves the staging overlay or writes it by `WUS` keeps the invariant. -/
theorem of_hostFrame (h : s.Inv) (hframe : s.hostFrame t)
    (hstage : t.usStage = s.usStage ∨ ∃ idx, t.usStage = writeStage s idx) : t.Inv := by
  rw [State.hostFrame] at hframe
  rw [hframe]
  rcases hstage with e | ⟨idx, e⟩ <;> rw [e]
  · exact { h with }
  · exact { h with stage_wf := wf_writeStage idx h.stage_wf, stage_below := h.writeStage_below idx }

/-! ## The phases of a tick -/

theorem accumulate (h : s.Inv) : (accumulate s).Inv := { h with
  inbuf_le := fun i => length_accumulate_le (h.inbuf_le i) }

theorem resampleIn (h : s.Inv) : (resampleIn s).Inv := { h with
  inbuf_le := fun i => by
    rw [resampleIn_inbuf]
    split
    · exact (List.drop_sublist ..).length_le.trans (h.inbuf_le i)
    · exact h.inbuf_le i }

theorem quantize (h : s.Inv) : (quantize s).Inv := h.setBlk _

theorem fanIn (h : s.Inv) : (fanIn s).Inv := by
  obtain ⟨b, hb⟩ := fanIn_eq_setBlk s
  exact hb ▸ h.setBlk b

theorem foldOut (h : s.Inv) : (foldOut s).Inv := by
  obtain ⟨b, hb⟩ := foldOut_eq_setBlk s
  exact hb ▸ h.setBlk b

theorem activateOverlay (h : s.Inv) : (activateOverlay s).Inv := by
  unfold Machine.activateOverlay
  split
  · exact { h with active_wf := h.stage_wf, active_below := h.stage_below }
  · exact h

/-- The bank a block uses is clamped, so `PREVBANK` stays a bank index (R29, R103). -/
theorem blkStartChan (h : s.Inv) (ch : Fin NC) : (blkStartChan s ch).Inv := by
  unfold Machine.blkStartChan
  split
  · exact { h with
      ha_wf := Memory.wf_clear _ _ h.ha_wf, ha_below := Memory.below_clear _ _ h.ha_below
      hb_wf := Memory.wf_clear _ _ h.hb_wf, hb_below := Memory.below_clear _ _ h.hb_below
      prevbank_lt := fun d => by
        rw [look_upd]
        split
        · rw [bankNow_toNat]; exact clampIdx_lt _ _
        · exact h.prevbank_lt d }
  · exact h

theorem blkStart (h : s.Inv) : (blkStart s).Inv := by
  have hloop (l : List (Fin NC)) (u : State) (hu : u.Inv) : (l.foldl Machine.blkStartChan u).Inv := by
    induction l generalizing u with
    | nil => exact hu
    | cons ch l ih => exact ih _ (hu.blkStartChan ch)
  exact hloop channels _ h.activateOverlay

theorem clipTest (h : s.Inv) : (clipTest s).Inv := { h with }

theorem compose (h : s.Inv) (hout : ∀ ch, (look (compose s).out ch).length = s.P.block) : (compose s).Inv :=
  { h with out_length := hout }

/-- A block whose channels all have `BLOCK` input samples keeps the invariant: only the compositor writes `OUT`, as many
samples as each channel got. -/
theorem engine (h : s.Inv) (hxin : ∀ ch, (look s.blk.xin ch).length = s.P.block) : (engine s).Inv := by
  refine (h.blkStart.clipTest.filters channels).compose fun ch => ?_
  have hP : (channels.foldl Machine.filter (Machine.clipTest (Machine.blkStart s))).P = s.P :=
    P_eq_of_controlPart (by simp)
  rw [hP, ← hxin ch]
  exact engine_out_length s ch

theorem blockBody (h : s.Inv) : (blockBody s).Inv :=
  (h.quantize.fanIn.engine fun ch => (fanIn_quantize_length s ch).trans
    (congrArg Params.block (P_eq_of_controlPart (by simp)).symm)).foldOut

theorem resampleOut (h : s.Inv) : (resampleOut s).Inv := { h with
  outbuf_le := fun i => by
    rw [resampleOut_outbuf]
    split
    · exact pushAll_length_le _ (h.outbuf_le i)
    · exact h.outbuf_le i }

theorem firedBlock (h : s.Inv) : (firedBlock s).Inv := h.resampleIn.blockBody.resampleOut.setBlk Block.empty

theorem process (h : s.Inv) : (process s).Inv := by
  unfold Machine.process
  dsimp only
  split
  · exact { h.accumulate.firedBlock with }
  · exact { h.accumulate with }

theorem drain (h : s.Inv) : (drain s).Inv := { h with
  outbuf_le := fun i => by
    rw [drain_outbuf]
    split
    · exact (List.tail_sublist _).length_le.trans (h.outbuf_le i)
    · exact h.outbuf_le i }

theorem tick (h : s.Inv) : (tick s).Inv := h.process.drain.ret _

end State.Inv

/-! ## Every instruction, every step -/

theorem writeG_usStage (s : State) (v : Word) (reg : GReg) : (writeG s v reg).usStage = s.usStage := by
  cases reg <;> rfl

/-- Of the host-side commands only `WUS` writes the staging overlay (R108). -/
theorem exec_hostCommand_usStage {i : Instr} {s t : State} (hi : hostCommand i = true) (h : exec i s = .next t) :
    t.usStage = s.usStage ∨ ∃ idx, t.usStage = writeStage s idx := by
  cases i with
  | wus idx => cases h; exact .inr ⟨idx, rfl⟩
  | wrg reg => cases h; exact .inl (writeG_usStage s s.wdata reg)
  | nop | reset | usc | bank | rdg => cases h; exact .inl rfl
  | wrc | rdc | rob | win | rout =>
    simp only [exec, execWrc, execRdc, execRob, execWin, execRout] at h
    split at h <;> cases h <;> exact .inl rfl
  | tick | filt2p | filt1p | filtbl | fold1 | fold2 | fold6 | fanin2 | fanin3 | fanin6 => cases hi

/-- `TICK` and the engine operations keep the invariant. -/
theorem exec_engineOperation_inv {i : Instr} {s t : State} (hi : hostCommand i = false) (hs : s.Inv)
    (h : exec i s = .next t) : t.Inv := by
  cases i with
  | tick => cases h; exact hs.tick
  | filt2p ch =>
    simp only [exec, execFilt2p] at h
    split at h <;> cases h
    · exact hs.filt2p _
    · exact hs
  | filt1p ch =>
    simp only [exec, execFilt1p] at h
    split at h <;> cases h
    · exact hs.filt1p _
    · exact hs
  | filtbl ch =>
    simp only [exec, execFiltbl] at h
    split at h <;> cases h
    · exact hs.filtbl _
    · exact hs
  | fold1 | fold2 | fold6 | fanin2 | fanin3 | fanin6 => cases h; exact hs.setBlk _
  | nop | reset | usc | bank | wrg | rdg | wrc | rdc | wus | win | rout | rob => cases hi

theorem exec_inv {i : Instr} {s t : State} (hs : s.Inv) (h : exec i s = .next t) : t.Inv := by
  cases hi : hostCommand i
  case false => exact exec_engineOperation_inv hi hs h
  case true =>
    obtain ⟨u, hu, hframe⟩ := exec_hostCommand i s hi
    obtain rfl := Host.Outcome.next.inj (hu.symm.trans h)
    exact hs.of_hostFrame hframe (exec_hostCommand_usStage hi h)

/-- Taking a transaction or the probe keeps the invariant. -/
theorem fetch_inv {s b : State} {sp : Space} {w : Word} (hs : s.Inv) (h : fetch s = some (sp, w, b)) : b.Inv := by
  rcases fetch_cases s with ⟨-, -, e⟩ | ⟨x, rest, -, -, e⟩ | ⟨sp', w', -, e⟩ <;> cases e.symm.trans h
  · exact hs.begin x rest
  · exact hs.beginProbe

/-- Settles O58: a step waits, runs an instruction or takes a reserved word for a `NOP`; host-side commands keep the
invariant by their frame, and a tick phase by phase. -/
theorem everyStepKeepsInvariant : Obligations.EveryStepKeepsInvariant := by
  unfold Obligations.EveryStepKeepsInvariant
  intro s t hs h
  rcases step_cases s with ⟨-, e⟩ | ⟨sp, w, b, i, hf, -, e⟩ | ⟨sp, w, b, _, hf, -, e⟩
  · cases e.symm.trans h
    exact hs
  · exact exec_inv (fetch_inv hs hf) (e.symm.trans h)
  · cases e.symm.trans h
    exact (fetch_inv hs hf).ret 0

end Sys2Proof.Machine
end

section
/-! SUPPORT. The reference kernel's contract, its bounds at a constant ratio, and the round trip by two
(46_ringbuf_resampler.md R215 to R217, R222; 70_reset_and_hazards.md R262). -/

namespace Sys2Proof.RefLinear

/-! ## The bounds at a constant ratio (R262) -/

/-- At one pair of rates the position stays above 0 and at most the larger of 1 and the step. -/
theorem arises_t_mem {D : Domain} {rin rout : Nat} (hi : 0 < rin) (ho : 0 < rout) {st : SrcState}
    (h : (kernel D).Arises (fun _ i o _ _ => i = rin ∧ o = rout) st) :
    0 < st.t ∧ st.t ≤ max 1 (stepOf rin rout) := by
  constructor
  · exact arises_ok (by rintro st _ _ xs n ⟨rfl, rfl⟩; exact ⟨hi, ho⟩) h
  · exact arises_t_le (le_max_left _ _) (by rintro st _ _ xs n ⟨rfl, rfl⟩; exact ⟨hi, ho, le_max_right _ _⟩) h

/-- `need` from a position at most `bound`. -/
theorem need_le_ceil {st : SrcState} {rin rout n : Nat} (hi : 0 < rin) (ho : 0 < rout) (hn : 0 < n) {bound : Rat}
    (h0 : 0 < st.t) (ht : st.t ≤ bound) :
    (need st rin rout n : Int) ≤ (bound + ((n : Rat) - 1) * stepOf rin rout).ceil := by
  have hn1 : (0 : Rat) ≤ (n : Rat) - 1 := by rw [sub_nonneg]; exact_mod_cast hn
  have hpos : 0 < bound + ((n : Rat) - 1) * stepOf rin rout :=
    add_pos_of_pos_of_nonneg (h0.trans_le ht) (mul_nonneg hn1 (stepOf_pos hi ho).le)
  have hceil := ceil_pos hpos
  obtain ⟨m, hm⟩ := Int.eq_ofNat_of_zero_le (zero_le_one.trans hceil)
  rw [hm, Nat.cast_le, need_le_iff hn]
  calc st.t + ((n : Rat) - 1) * stepOf rin rout ≤ bound + ((n : Rat) - 1) * stepOf rin rout := by gcongr
    _ ≤ ((m : Int) : Rat) := Rat.ceil_le_iff.1 hm.le
    _ = m := Int.cast_natCast m

/-- `yield` from a position above 0: the last output lies inside the samples. -/
theorem yld_le_floor {st : SrcState} {rin rout : Nat} (hi : 0 < rin) (ho : 0 < rout) (h0 : 0 < st.t) (n : Nat) :
    (yld st rin rout n : Int) ≤ ((n : Rat) / stepOf rin rout).floor + 1 := by
  have hs := stepOf_pos hi ho
  rcases Nat.eq_zero_or_pos (yld st rin rout n) with hy | hy
  · have : 0 ≤ ((n : Rat) / stepOf rin rout).floor := Rat.le_floor_iff.2 (by push_cast; positivity)
    omega
  · have hlast := yld_last_le hi ho h0 n hy
    have hfloor : (yld st rin rout n : Int) - 1 ≤ ((n : Rat) / stepOf rin rout).floor := by
      rw [Rat.le_floor_iff, le_div_iff₀ hs]
      push_cast
      linarith
    omega

/-- Settles O51: the contract as it stands, and the bounds at a constant ratio from the position's. -/
theorem refLinearMeetsContract : Obligations.RefLinearMeetsContract := by
  unfold Obligations.RefLinearMeetsContract
  refine ⟨contract, fun D hr fs n hhr hfs hn => ⟨fun st h => ?input, fun st h => ?output⟩⟩
  case input =>
    obtain ⟨h0, ht⟩ := arises_t_mem hhr hfs h
    have hneed := need_le_ceil hhr hfs hn h0 ht
    rw [stepOf_eq_div] at ht hneed
    exact ⟨h0, ht, hneed⟩
  case output =>
    obtain ⟨h0, ht⟩ := arises_t_mem hfs hhr h
    have hyld := yld_le_floor hfs hhr h0 n
    rw [stepOf_eq_div] at ht hyld
    rw [one_div_div]
    rw [div_div_eq_mul_div, ← mul_div_assoc'] at hyld
    exact ⟨h0, ht, hyld⟩

/-! ## Up by two and down by two (R222) -/

/-- The `k`-th output is the one at `k` steps from where the loop starts. -/
theorem getElem?_produce (D : Domain) (prev : F) (xs : List F) (step : Rat) (n : Nat) (t : Rat) {k : Nat}
    (hk : k < (produce D prev xs step n t).1.length) :
    (produce D prev xs step n t).1[k]? = some (interp D prev xs (t + k * step)) := by
  induction n generalizing t k with
  | zero => cases hk
  | succ n ih =>
    simp only [produce] at hk ⊢
    split at hk
    · next hle =>
      rw [if_pos hle]
      cases k with
      | zero => simp
      | succ k =>
        rw [List.getElem?_cons_succ, ih (t + step) (Nat.lt_of_succ_lt_succ hk)]
        push_cast
        congr 2
        ring
    · cases hk

/-- An output at a whole position is the sample there. -/
theorem getElem?_produce_of_whole (D : Domain) (prev : F) (xs : List F) (step : Rat) (n : Nat) {t : Rat} {k j : Nat}
    (hk : k < (produce D prev xs step n t).1.length) (hpos : t + k * step = (j : Rat) + 1) (hj : j < xs.length) :
    (produce D prev xs step n t).1[k]? = xs[j]? := by
  rw [getElem?_produce D prev xs step n t hk, hpos, interp_natCast, sampleAt, if_neg (Nat.succ_ne_zero j),
    Nat.add_sub_cancel, List.getD_eq_getElem _ _ hj, List.getElem?_eq_getElem hj]

/-- Up by two, the samples stand at the even places, the last one last or next to last. -/
theorem produce_half (D : Domain) (prev : F) (xs : List F) :
    2 * xs.length ≤ (produce D prev xs (1 / 2) (2 * xs.length) 1).1.length + 1 ∧
    ∀ j < xs.length, (produce D prev xs (1 / 2) (2 * xs.length) 1).1[2 * j]? = xs[j]? := by
  obtain ⟨-, hend, -, hshort⟩ := produce_spec D prev xs (1 / 2) (2 * xs.length) 1
  have hlen : 2 * xs.length ≤ (produce D prev xs (1 / 2) (2 * xs.length) 1).1.length + 1 := by
    by_contra hlt
    have hpast := hshort (by omega)
    rw [hend] at hpast
    have : ((produce D prev xs (1 / 2) (2 * xs.length) 1).1.length : Rat) + 2 ≤ 2 * xs.length := by
      exact_mod_cast (by omega : _ + 2 ≤ 2 * xs.length)
    linarith
  exact ⟨hlen, fun j hj => getElem?_produce_of_whole D prev xs _ _ (by omega) (by push_cast; ring) hj⟩

/-- Down by two, the samples at the even places come out. -/
theorem produce_two (D : Domain) (prev : F) {xs ys : List F} (hlen : 2 * xs.length ≤ ys.length + 1)
    (hys : ∀ j < xs.length, ys[2 * j]? = xs[j]?) : (produce D prev ys 2 xs.length 1).1 = xs := by
  have hall : (produce D prev ys 2 xs.length 1).1.length = xs.length := by
    rw [length_eq_iff D prev ys two_pos]
    have : (2 : Rat) * xs.length ≤ ys.length + 1 := by exact_mod_cast hlen
    exact .inr (by linarith)
  refine List.ext_getElem? fun k => ?_
  rcases Nat.lt_or_ge k xs.length with hk | hk
  · rw [getElem?_produce_of_whole D prev ys 2 _ (hall.symm ▸ hk) (j := 2 * k) (by push_cast; ring) (by omega), hys k hk]
  · rw [List.getElem?_eq_none (hall.symm ▸ hk), List.getElem?_eq_none hk]

theorem stepOf_double_out {r : Nat} (hr : 0 < r) : stepOf r (2 * r) = 1 / 2 := by
  have : (r : Rat) ≠ 0 := by exact_mod_cast hr.ne'
  rw [stepOf_eq_div]
  push_cast
  field_simp

theorem stepOf_double_in {r : Nat} (hr : 0 < r) : stepOf (2 * r) r = 2 := by
  have : (r : Rat) ≠ 0 := by exact_mod_cast hr.ne'
  rw [stepOf_eq_div]
  push_cast
  field_simp

theorem run_up_down (D : Domain) {r : Nat} (hr : 0 < r) (xs : List F) :
    (run D (kernel D).init (2 * r) r (run D (kernel D).init r (2 * r) xs (2 * xs.length)).ys xs.length).ys = xs := by
  obtain ⟨hlen, hys⟩ := produce_half D Const.zero xs
  simp only [run_eq, stepOf_double_out hr, stepOf_double_in hr]
  exact produce_two D Const.zero hlen hys

/-- Settles O52: the round trip, the equal-rate copy, and the worked examples evaluated in the reference domain. -/
theorem refLinearRoundTripIsExact : Obligations.RefLinearRoundTripIsExact := by
  unfold Obligations.RefLinearRoundTripIsExact
  refine ⟨fun D r xs hr => run_up_down D hr xs, fun D r n xs hr => ?copy, ?worked⟩
  case copy =>
    obtain ⟨-, -, hys⟩ := run_equal_rates D (st := (kernel D).init) rfl hr xs n
    rw [hys, List.take_eq_take_iff]
    omega
  case worked => decide +kernel

end Sys2Proof.RefLinear
end

section
/-! SUPPORT. Exceptions and reset (60_exceptions.md R230, R239; 70_reset_and_hazards.md R250 to R252): every command
completes, a host transaction reaches the host-side commands and `TICK` only, and what power-on and `RESET` leave. -/

namespace Sys2Proof.Machine

/-! ## Every command completes (R230) -/

theorem exec_completes (i : Instr) (s : State) : ∃ t, exec i s = .next t := by
  cases hi : hostCommand i
  case false =>
    obtain ⟨t, ht, -⟩ := exec_engineOperation i s hi
    exact ⟨t, ht⟩
  case true =>
    obtain ⟨t, ht, -⟩ := exec_hostCommand i s hi
    exact ⟨t, ht⟩

/-- Settles O2: an instruction by its frame, a step by what it can do. -/
theorem everyCommandCompletes : Obligations.EveryCommandCompletes := by
  unfold Obligations.EveryCommandCompletes
  refine ⟨exec_completes, fun s => ?_⟩
  rcases step_cases s with ⟨-, e⟩ | ⟨_, _, b, i, -, -, e⟩ | ⟨_, _, b, _, -, -, e⟩
  · exact ⟨s, e⟩
  · exact e ▸ exec_completes i b
  · exact ⟨reserved b, e⟩

/-! ## What a host transaction reaches (R239) -/

/-- A command word of any opcode but `TICK`'s encodes a host-side command (R72). -/
theorem hostCommand_of_decodeCmd {w : Word} {i : Instr} (h : decodeCmd w = .ok i) (hop : opField w ≠ 0x02) :
    hostCommand i = true := by
  unfold decodeCmd at h
  split at h <;> cases h
  case h_3 htick => exact absurd htick hop
  all_goals rfl

/-- No instruction changes the host's list or sets the probe. -/
theorem exec_host_probe {i : Instr} {s t : State} (h : exec i s = .next t) : t.host = s.host ∧ t.probe = s.probe := by
  cases hi : hostCommand i
  case false =>
    obtain ⟨u, hu, hpart⟩ := exec_engineOperation i s hi
    obtain rfl := Host.Outcome.next.inj (hu.symm.trans h)
    simp only [State.controlPart, Prod.mk.injEq] at hpart
    simp only [hpart, and_self]
  case true =>
    obtain ⟨u, hu, hframe⟩ := exec_hostCommand i s hi
    obtain rfl := Host.Outcome.next.inj (hu.symm.trans h)
    rw [State.hostFrame] at hframe
    exact ⟨(congrArg State.host hframe).trans rfl, (congrArg State.probe hframe).trans rfl⟩

/-- A host-side command leaves what only the engine writes (R35). -/
theorem exec_sameEngine {i : Instr} {s t : State} (hi : hostCommand i = true) (h : exec i s = .next t) :
    s.sameEngine t := by
  obtain ⟨u, hu, hsame⟩ := hostCommandsKeepEngineState i s hi
  obtain rfl := Host.Outcome.next.inj (hu.symm.trans h)
  exact hsame

/-- Taking a transaction off the host's list touches nothing of the engine. -/
theorem State.sameEngine.of_begin {s t : State} {x : Txn} {rest : List Txn} (h : (begin s x rest).sameEngine t) :
    s.sameEngine t := h

/-- A reserved word, run as a `NOP` (R79), touches nothing of the engine. -/
theorem sameEngine_reserved (s : State) : s.sameEngine (reserved s) := by
  simp [State.sameEngine, reserved]

/-- Settles O59: nothing offered leaves the state; a transaction's word is reserved, `TICK`'s or a host-side command's,
and no instruction changes the list or the probe. -/
theorem hostReachesCommandsOnly : Obligations.HostReachesCommandsOnly := by
  unfold Obligations.HostReachesCommandsOnly
  refine ⟨fun s t hp hstep => ?step, rfl, fun _ => rfl⟩
  cases hh : s.host with
  | nil =>
    obtain rfl := Host.Outcome.next.inj ((step_of_idle (fetch_of_idle hp hh)).symm.trans hstep)
    exact ⟨hp, .inl ⟨rfl, rfl⟩⟩
  | cons x rest =>
    have hfetch := fetch_of_host hp hh
    cases hd : decodeCmd x.word with
    | error e =>
      obtain rfl := Host.Outcome.next.inj ((step_of_fetch_error hfetch hd).symm.trans hstep)
      exact ⟨hp, .inr ⟨x, rest, rfl, rfl, fun _ => (sameEngine_reserved _).of_begin⟩⟩
    | ok i =>
      have hexec := (step_of_fetch hfetch hd).symm.trans hstep
      obtain ⟨hhost, hprobe⟩ := exec_host_probe hexec
      refine ⟨hprobe.trans hp, .inr ⟨x, rest, rfl, hhost, fun hop => ?_⟩⟩
      exact (exec_sameEngine (hostCommand_of_decodeCmd hd hop) hexec).of_begin

/-! ## Reset and power-on (R250 to R252) -/

/-- Settles O18: the write of the defaults to every channel. -/
theorem resetSetsChannelDefaultsOnly : Obligations.ResetSetsChannelDefaultsOnly := by
  unfold Obligations.ResetSetsChannelDefaultsOnly
  exact ⟨fun s => ⟨_, rfl, rfl, fun ch => look_replicate Chan.default ch⟩, fun w h => by simp only [decodeCmd, h]⟩

section PowerOn

variable (p : ParamSet)

theorem powerOn_hostrate : (State.powerOn p).hostrate = BitVec.ofNat 32 p.params.fsInt := rfl
theorem look_powerOn_chan (ch : Fin NC) : look (State.powerOn p).chan ch = Chan.default := look_replicate ..
theorem look_powerOn_out (ch : Fin NC) :
    look (State.powerOn p).out ch = List.replicate p.params.block Const.zero := look_replicate ..

theorem powerOn_out_length (ch : Fin NC) : (look (State.powerOn p).out ch).length = p.params.block := by
  rw [look_powerOn_out, List.length_replicate]

theorem powerOn_out_eq_zero (ch : Fin NC) : ∀ v ∈ look (State.powerOn p).out ch, v = Const.zero := by
  rw [look_powerOn_out]
  exact fun _ => List.eq_of_mem_replicate

/-- `HOSTRATE` powers on at `FS_INT` where a U32 holds it (R37). -/
theorem powerOn_hostrate_toNat (h : p.params.fsInt < 2 ^ 32) : (State.powerOn p).hostrate.toNat = p.params.fsInt := by
  rw [powerOn_hostrate, BitVec.toNat_ofNat, Nat.mod_eq_of_lt h]

end PowerOn

/-- Settles O56: the registers by definition, the register files entry by entry. -/
theorem powerOnState : Obligations.PowerOnState := by
  unfold Obligations.PowerOnState
  intro p
  refine ⟨rfl, rfl, rfl, rfl, rfl, rfl, powerOn_hostrate_toNat p, rfl, rfl, rfl, rfl, rfl, look_powerOn_chan p,
    fun ch => ?streams, look_replicate _, fun _ => ⟨rfl, rfl, rfl, rfl⟩, rfl⟩
  case streams =>
    refine ⟨?_, ?_, ?_, ?_, ?_, ?_, ?_, ?_, ?_, ?_, ?_, powerOn_out_length p ch, powerOn_out_eq_zero p ch⟩ <;>
      exact look_replicate _ ch

/-- Settles O57: empty memories and rings, bank 0, and a block output of `BLOCK` zeros. -/
theorem powerOnMeetsInvariant : Obligations.PowerOnMeetsInvariant := by
  unfold Obligations.PowerOnMeetsInvariant
  intro p
  exact {
    ha_wf := rfl, hb_wf := rfl, stage_wf := rfl, active_wf := rfl
    ha_below := rfl, hb_below := rfl, stage_below := rfl, active_below := rfl
    inbuf_le := fun i => by simp [State.powerOn]
    outbuf_le := fun i => by simp [State.powerOn]
    prevbank_lt := fun ch => by simp [State.powerOn, Params.nb]
    out_length := powerOn_out_length p }

end Sys2Proof.Machine
end
